-- ==== Sys2Proof/Word.lean ====
section
/-! DEFINITION. The words of the block: the spec's widths (00_scope.md R6, 10_state.md R22, R24). -/

namespace Sys2Proof

/-- One byte: IN, a pair's control and value byte, a channel value (10_state.md R46, R47). -/
abbrev Byte := BitVec 8

/-- A 16-bit document field (30_encoding.md R85, R86). -/
abbrev Half := BitVec 16

/-- A register of the window (10_state.md R24), and the 32-bit working registers (R22). -/
abbrev W32 := BitVec 32

/-- An output triple (45_raster_interleaver.md R232). -/
abbrev Pixel := BitVec 24

end Sys2Proof
end

