-- ==== Sys2Proof/Config.lean ====
section
/-! DEFINITION. What an implementation fixes (00_scope.md R5) and the values the spec leaves free.
The free values are opaque constants with no body: no proof can see what they are. -/

namespace Sys2Proof

/-- The parameters of 00_scope.md R5 that the block itself uses. They stand in `State` as plain data that no
step changes, so that a claim over all states is a claim for every legal value (DESIGN CHOICE, log 1). The two
text parameters of R5 are the host's: they are arguments of `Machine.hostText`. -/
structure Params where
  /-- `IN_SIZE_MAX`: the size in bytes of IN. -/
  inSizeMax : Nat
  /-- `CB_LEN_MAX`: the most values one channel buffer can hold. -/
  cbLenMax : Nat
  deriving DecidableEq, Repr

/-- The legal values of 00_scope.md R5. -/
abbrev Params.Legal (p : Params) : Prop :=
  40 ≤ p.inSizeMax ∧ p.inSizeMax ≤ 2 ^ 32 - 1 ∧ 1 ≤ p.cbLenMax ∧ p.cbLenMax ≤ 2 ^ 31

/-- The parameters of `State.reset`: `CB_LEN_MAX` is the default of D17; `IN_SIZE_MAX` is OPEN in the spec, and
its largest legal value stands here (DESIGN CHOICE, log 1). -/
def Config.defaultParams : Params := { inSizeMax := 2 ^ 32 - 1, cbLenMax := 100000000 }

/-- The byte at an IN offset that nothing has written since power-on number `epoch` (70_reset_and_hazards.md R282:
unspecified; log 5). -/
opaque Config.powerOnByte (epoch offset : Nat) : Byte

/-- What an engine read, numbered `draw`, returns at an IN offset the host wrote during the run
(20_memory.md R71: unspecified; log 6). -/
opaque Config.racedByte (draw offset : Nat) : Byte

/-- What a host read, numbered `draw`, of an engine-written register at `offset` returns before the host has read in
STATUS that the run is over (10_state.md R45, 70_reset_and_hazards.md R284: unspecified; log 7). -/
opaque Config.earlyRead (draw offset : Nat) : W32

/-- Whether a host read of OUT, numbered `draw`, already sees the triple at `position`, before the host has read in STATUS
that the run is over (20_memory.md R69 (b): not yet guaranteed; log 23). -/
opaque Config.outShown (draw position : Nat) : Bool

/-- What stands in channel buffer `c` at an index below `CB_LEN[c]` that no append has written. No run reaches such
a state (44_channel_buffer.md R210, R215; log 15). -/
opaque Config.unwrittenValue (c index : Nat) : Byte

end Sys2Proof
end

