-- ==== Sys2Proof/Syntax.lean ====
section
/-! DEFINITION. The instructions: one constructor per mnemonic of spec/opcode_table.json. The first four are the
pairs the engine executes (30_encoding.md R81, R82), the others the commands a host write of CMD gives (R88, R89). -/

namespace Sys2Proof

/-- A channel number, 0, 1 or 2 (00_scope.md R11). The value 3 is never read (10_state.md R28). -/
inductive Chan where
  | c0 | c1 | c2
  deriving DecidableEq, Repr

/-- The channel's number. -/
def Chan.toNat : Chan → Nat
  | .c0 => 0
  | .c1 => 1
  | .c2 => 2

/-- The channel's number as the 2-bit field it fills in STATUS, ERR_INFO and CMD. -/
def Chan.bits : Chan → BitVec 2
  | .c0 => 0
  | .c1 => 1
  | .c2 => 2

inductive Instr where
  /-- `LIT v`: literal run of length 1 (43_rle_decoder.md R183). -/
  | lit (val : Byte)
  /-- `REP n, v` with n = 257 - ctrl: repeat run (R184). -/
  | rep (ctrl val : Byte)
  /-- a control byte in 0x01 .. 0x7F; the value byte is fetched and ignored (R185). -/
  | illegal (ctrl val : Byte)
  /-- the control byte 0x80; the value byte is ignored (R186). -/
  | illegal80 (val : Byte)
  /-- `NOP` (40_pipeline_control.md R110). -/
  | nop
  /-- `START` (R111). -/
  | start
  /-- `CLEAR` (R112). -/
  | clear
  /-- `READ c` (R113). -/
  | read (c : Chan)
  /-- OP 3 with CH = 3 (R114). -/
  | readReserved
  /-- OP 4 .. 15 (R114). -/
  | cmdReserved (op : BitVec 4)
  deriving DecidableEq, Repr

/-- The four pair kinds of 30_encoding.md R82. -/
def Instr.isPair : Instr → Bool
  | .lit _ | .rep _ _ | .illegal _ _ | .illegal80 _ => true
  | .nop | .start | .clear | .read _ | .readReserved | .cmdReserved _ => false

end Sys2Proof
end

