-- ==== Sys2Proof/Machine/State.lean ====
section
/-! DEFINITION. The state of the block and its host (10_state.md; INVENTORY.md, State), and the reasons a step can stop. -/

namespace Sys2Proof.Machine

/-- `STATUS.STATE` (10_state.md R26). -/
inductive RunState where
  | idle | busy | done | error | fatal
  deriving DecidableEq, Repr

/-- `STATUS.PHASE` (10_state.md R27). -/
inductive Phase where
  | none | hdr | lt | payload | dec | chk | asm
  deriving DecidableEq, Repr

/-- The errors of 60_exceptions.md R251, under the source's names (00_scope.md R10). -/
inductive ErrorName where
  /-- `IOError::UnexpectedEnd` -/
  | unexpectedEnd
  /-- `FormatError::SignatureMismatch` -/
  | signatureMismatch
  /-- `FormatError::ResolutionTooLarge` -/
  | resolutionTooLarge
  /-- `DecodeError::InvalidControlByte` -/
  | invalidControlByte
  /-- `DecodeError::ChannelLengthMismatch` -/
  | channelLengthMismatch
  /-- `DecodeError::OddStreamLength` -/
  | oddStreamLength
  /-- `DecodeError::RasterSizeMismatch` -/
  | rasterSizeMismatch
  /-- `IndexError::OutOfBounds`; never in `STATUS.ERR_CODE` -/
  | outOfBounds
  /-- `ResourceExhaustion` -/
  | resourceExhaustion
  deriving DecidableEq, Repr

/-- `STATUS` by its fields (10_state.md R26 to R30); the reserved bits read 0 (R31), so only the fields are held.
`Machine.statusWord` is the 32-bit view. -/
structure Status where
  state  : RunState
  phase  : Phase
  chan   : Chan
  /-- `ERR_CODE`: `none` is the code 0x00. -/
  err    : Option ErrorName
  cmdRej : Bool
  deriving DecidableEq, Repr

/-- `RD_RESULT` by its fields (10_state.md R42). `Machine.rdResultWord` is the 32-bit view. -/
structure RdResult where
  value : Byte
  done  : Bool
  oob   : Bool
  deriving DecidableEq, Repr

/-- One thing for each of the three channels. -/
structure PerChan (α : Type) where
  c0 : α
  c1 : α
  c2 : α
  deriving DecidableEq, Repr

/-- The channel's own. -/
def PerChan.get {α : Type} (p : PerChan α) : Chan → α
  | .c0 => p.c0
  | .c1 => p.c1
  | .c2 => p.c2

/-- Replace one channel's. -/
def PerChan.set {α : Type} (p : PerChan α) (c : Chan) (x : α) : PerChan α :=
  match c with
  | .c0 => { p with c0 := x }
  | .c1 => { p with c1 := x }
  | .c2 => { p with c2 := x }

/-- IN: the bytes written since power-on, by offset, strictly rising. An unlisted offset holds no known byte: the
engine reads a free value there (70_reset_and_hazards.md R282; log 5). -/
abbrev Memory := List Host.Cell

/-- Which engine step of 40_pipeline_control.md R122 the run takes next (log 8). -/
inductive Seq where
  /-- no run is in progress -/
  | idle
  | hdr
  | lt
  | payload
  /-- the start of a channel's decode -/
  | chanStart (c : Chan)
  /-- the pair loop of the channel in STATUS.CHAN: a pair, or the end of the channel -/
  | pairs
  | chk
  | asmCheck
  /-- the emission loop: one triple, or completion -/
  | emit
  deriving DecidableEq, Repr

/-- A move of the host (30_encoding.md R96, 20_memory.md R64, 70_reset_and_hazards.md R280). -/
inductive HostMove where
  /-- a write of the low `bytes` bytes of `v` at window offset `off`; `WR`, and a command when `off` is CMD's -/
  | write (off bytes : Nat) (v : W32)
  /-- a read of `bytes` bytes at window offset `off`; `RR` -/
  | read (off bytes : Nat)
  /-- `POLL`: read STATUS until STATE ≠ BUSY -/
  | poll
  /-- `LOAD a, bytes`: write bytes into IN from offset `a` -/
  | load (a : Nat) (data : List Byte)
  /-- read the next triple of OUT -/
  | readOut
  /-- the platform's reset input -/
  | reset
  /-- power-on: a reset after which IN is unspecified -/
  | powerOn
  deriving DecidableEq, Repr

/-- A pending host move, and how many engine steps fall before it (40_pipeline_control.md R122; log 2). -/
structure HostEntry where
  after : Nat
  move  : HostMove
  deriving DecidableEq, Repr

/-- What a read of the host returned (log 13). -/
inductive HostSeen where
  | word (off : Nat) (v : W32)
  | triple (t : Pixel)
  /-- a read of OUT when every triple appended so far has been read -/
  | noTriple
  deriving DecidableEq, Repr

structure State where
  /-- IN_SIZE_MAX and CB_LEN_MAX (00_scope.md R5); no step changes them -/
  params     : Params
  /-- STATUS (10_state.md R26 to R31) -/
  status     : Status
  /-- ERR_INFO (R32) -/
  errInfo    : W32
  /-- ERR_ADDR (R33) -/
  errAddr    : W32
  /-- DOC_LEN (R34) -/
  docLen     : W32
  /-- WIDTH[15:0] (R35) -/
  width      : Half
  /-- HEIGHT[15:0] (R36) -/
  height     : Half
  /-- TOTAL_SIZE (R37) -/
  totalSize  : W32
  /-- CH_SIZE[c] (R38) -/
  chSize     : PerChan W32
  /-- CB_LEN[c] (R39) -/
  cbLen      : PerChan W32
  /-- CB_CAP[c] (R40) -/
  cbCap      : PerChan W32
  /-- RD_INDEX (R41) -/
  rdIndex    : W32
  /-- RD_RESULT (R42) -/
  rdResult   : RdResult
  /-- OUT_COUNT (R43) -/
  outCount   : W32
  /-- `pos`, the decode cursor (R22, R23) -/
  pos        : W32
  /-- `end` (R22) -/
  endPos     : W32
  /-- `ctrl` (R22) -/
  ctrl       : Byte
  /-- `val` (R22) -/
  val        : Byte
  /-- `cnt` (R22) -/
  cnt        : Byte
  /-- `i`, the pixel index (R22) -/
  i          : W32
  /-- IN (R46) -/
  inMem      : Memory
  /-- CB[c], index 0 first (R47) -/
  cb         : PerChan (List Byte)
  /-- OUT, first triple first (R48) -/
  out        : List Pixel
  /-- which engine step comes next (40_pipeline_control.md R118, R122) -/
  seq        : Seq
  /-- IN offsets the host has written during this run, strictly rising (20_memory.md R71) -/
  raced      : List Nat
  /-- has the host read STATE ≠ BUSY in STATUS since the last accepted START? (20_memory.md R69 (b),
  70_reset_and_hazards.md R284; log 23) -/
  statusRead : Bool
  /-- the model's own: pending host moves, next one first (log 2) -/
  host       : List HostEntry
  /-- the model's own: what host reads returned, oldest first (log 13) -/
  seen       : List HostSeen
  /-- the model's own: how many triples of OUT the host has read (log 13) -/
  outRead    : Nat
  /-- the model's own: counter of free values drawn (logs 6, 7, 23) -/
  draw       : Nat
  /-- the model's own: number of power-ons after the first (log 5) -/
  powerEpoch : Nat
  deriving DecidableEq, Repr

/-- Why the machine stops. No instruction and no engine step of a run ends in one (log 12). -/
inductive Fault where
  /-- A host LOAD, or an engine step, touches an IN offset at or above IN_SIZE_MAX, which does not exist
  (20_memory.md R60). Raised by `loadIn` and by `engineStep`. Safe: the machine stops. -/
  | inOffsetAbsent
  /-- The pair loop would fetch a pair that is not below DOC_LEN, which 43_rle_decoder.md R182 shows no run does.
  Raised by `pairStep`. Safe: the machine stops. -/
  | fetchBeyondDocument
  deriving DecidableEq, Repr

/-- What the model refuses. -/
inductive Refusal where
  /-- An instruction without a meaning yet; raised by an arm of `exec` only. Safe: the machine stops. -/
  | notModelled (mnemonic : String)
  /-- A host access to the register window that is not an aligned 32-bit word: "A model refuses it as a host move"
  (20_memory.md R64). Raised by `hostAct`. Safe: the machine stops. -/
  | hostAccessNotWord
  deriving DecidableEq, Repr

/-- Every field of STATUS zero (10_state.md R50). -/
def Status.zero : Status :=
  { state := .idle, phase := .none, chan := .c0, err := none, cmdRej := false }

/-- RD_RESULT zero (10_state.md R50). -/
def RdResult.zero : RdResult := { value := 0, done := false, oob := false }

/-- The machine right after reset (10_state.md R50, 70_reset_and_hazards.md R280): the spec gives every value of its own
state. No run is waiting to be seen over, so `statusRead` is true
(log 23). The model's own fields start empty or at 0 (DESIGN CHOICE, logs 1, 2, 5, 6, 7, 13). -/
def State.reset : State where
  params     := Config.defaultParams
  status     := Status.zero
  errInfo    := 0
  errAddr    := 0
  docLen     := 0
  width      := 0
  height     := 0
  totalSize  := 0
  chSize     := ⟨0, 0, 0⟩
  cbLen      := ⟨0, 0, 0⟩
  cbCap      := ⟨0, 0, 0⟩
  rdIndex    := 0
  rdResult   := RdResult.zero
  outCount   := 0
  pos        := 0
  endPos     := 0
  ctrl       := 0
  val        := 0
  cnt        := 0
  i          := 0
  inMem      := []
  cb         := ⟨[], [], []⟩
  out        := []
  seq        := .idle
  raced      := []
  statusRead := true
  host       := []
  seen       := []
  outRead    := 0
  draw       := 0
  powerEpoch := 0

end Sys2Proof.Machine
end

