-- ==== Sys2Proof/Machine/Flags.lean ====
section
/-! DEFINITION. The status flags as the host reads them: the packings of STATUS and RD_RESULT, the codes of their fields,
and the packings of ERR_INFO (10_state.md R26 to R32, R42, R49; 60_exceptions.md R251). -/

namespace Sys2Proof.Machine

/-- `STATUS[2:0]` (10_state.md R26). -/
def runStateCode : RunState → BitVec 3
  | .idle => 0
  | .busy => 1
  | .done => 2
  | .error => 3
  | .fatal => 4

/-- `STATUS[6:4]` (10_state.md R27). -/
def phaseCode : Phase → BitVec 3
  | .none => 0
  | .hdr => 1
  | .lt => 2
  | .payload => 3
  | .dec => 4
  | .chk => 5
  | .asm => 6

/-- The numeric codes of 60_exceptions.md R251. -/
def errorCode : ErrorName → Byte
  | .unexpectedEnd => 0x10
  | .signatureMismatch => 0x20
  | .resolutionTooLarge => 0x21
  | .invalidControlByte => 0x30
  | .channelLengthMismatch => 0x31
  | .oddStreamLength => 0x32
  | .rasterSizeMismatch => 0x33
  | .outOfBounds => 0x40
  | .resourceExhaustion => 0x50

/-- `STATUS[23:16]` (10_state.md R29): 0x00 when no error has ended a run. -/
def errCodeField : Option ErrorName → Byte
  | none => 0x00
  | some e => errorCode e

/-- `STATUS`: CMD_REJ [24], ERR_CODE [23:16], CHAN [9:8], PHASE [6:4], STATE [2:0]; every other bit reads 0
(10_state.md R26 to R31). -/
def statusWord (st : Status) : W32 :=
  0#7 ++ BitVec.ofBool st.cmdRej ++ errCodeField st.err ++ 0#6 ++ st.chan.bits ++ 0#1 ++ phaseCode st.phase
    ++ 0#1 ++ runStateCode st.state

/-- `RD_RESULT`: OOB [17], DONE [16], VALUE [7:0]; every other bit reads 0 (10_state.md R42). -/
def rdResultWord (r : RdResult) : W32 :=
  0#14 ++ BitVec.ofBool r.oob ++ BitVec.ofBool r.done ++ 0#8 ++ r.value

/-- `{c:2, b:8}`: the channel in ERR_INFO[9:8], a byte in [7:0] (43_rle_decoder.md R180). -/
def chanInfo (c : Chan) (b : Byte) : W32 := 0#22 ++ c.bits ++ b

/-- `{0:15, sel:1, v:16}`: ERR_INFO of ResolutionTooLarge, `sel` 0 for width and 1 for height (41_header.md R143). -/
def dimInfo (sel : BitVec 1) (v : Half) : W32 := 0#15 ++ sel ++ v

/-- `{b0:8, b1:8, b2:8, b3:8}`: ERR_INFO of SignatureMismatch (41_header.md R141). -/
def sigInfo (b0 b1 b2 b3 : Byte) : W32 := b0 ++ b1 ++ b2 ++ b3

end Sys2Proof.Machine
end

