-- ==== Sys2Proof/WellFormed.lean ====
section
/-! DEFINITION. Which terms of `Instr` stand for an encoding: the operand ranges of 30_encoding.md R82, R89, R91. -/

namespace Sys2Proof

/-- R82: a repeat pair's control byte is 0x81 .. 0xFF. -/
def wfRepCtrl (ctrl : Byte) : Bool := decide (0x81 ≤ ctrl.toNat)

/-- R82: an ILLEGAL pair's control byte is 0x01 .. 0x7F. -/
def wfIllegalCtrl (ctrl : Byte) : Bool := decide (1 ≤ ctrl.toNat ∧ ctrl.toNat ≤ 0x7F)

/-- R89, R91: a reserved opcode is 0x4 .. 0xF. -/
def wfReservedOp (op : BitVec 4) : Bool := decide (4 ≤ op.toNat)

/-- The instruction's operands are in the ranges its row admits. -/
def Instr.wf : Instr → Bool
  | .lit _ => true
  | .rep ctrl _ => wfRepCtrl ctrl
  | .illegal ctrl _ => wfIllegalCtrl ctrl
  | .illegal80 _ => true
  | .nop => true
  | .start => true
  | .clear => true
  | .read _ => true
  | .readReserved => true
  | .cmdReserved op => wfReservedOp op

end Sys2Proof
end

