-- ==== Sys2Proof/Decode.lean ====
section
/-! DEFINITION. Decoding pairs and command words (30_encoding.md R81 to R91), then the encoder. Every 16-bit pair and
every command word is some instruction, so nothing falls through; what is rejected is a byte list too short for a
pair, and a table row width the table does not have. -/

namespace Sys2Proof

/-- 00_scope.md R7: the byte as a signed 8-bit integer, two's complement (PRESUMED, log 9). -/
def sext8 (b : Byte) : Int := if b.toNat < 128 then (b.toNat : Int) else (b.toNat : Int) - 256

/-- 30_encoding.md R82: the control byte alone selects the pair's kind. -/
def decodePair (ctrl val : Byte) : Instr :=
  if sext8 ctrl = 0 then .lit val
  else if 0 < sext8 ctrl then .illegal ctrl val
  else if sext8 ctrl = -128 then .illegal80 val
  else .rep ctrl val

/-- 30_encoding.md R88: the field OP, bits [3:0] of a command word. -/
def cmdOp (w : W32) : BitVec 4 := w.extractLsb' 0 4

/-- 30_encoding.md R88: the field CH, bits [5:4] of a command word. -/
def cmdCh (w : W32) : BitVec 2 := w.extractLsb' 4 2

/-- 30_encoding.md R88 to R91: the command a word stands for. Bits [31:6], and CH of every command but READ, are
ignored (log 20). -/
def decodeCmd (w : W32) : Instr :=
  match (cmdOp w).toNat with
  | 0 => .nop
  | 1 => .start
  | 2 => .clear
  | 3 =>
    match (cmdCh w).toNat with
    | 0 => .read .c0
    | 1 => .read .c1
    | 2 => .read .c2
    | _ => .readReserved
  | _ => .cmdReserved (cmdOp w)

/-- Why a list of bytes is no pair. -/
inductive DecodeReject where
  /-- R93: a pair is exactly two bytes, and fewer are left. -/
  | pairTruncated
  deriving DecidableEq, Repr

/-- 30_encoding.md R81: the pair at the head of a byte list, control byte first, and the bytes after it. -/
def decodeBytes : List Byte → Except DecodeReject (Instr × List Byte)
  | ctrl :: val :: rest => .ok (decodePair ctrl val, rest)
  | [_] => .error .pairTruncated
  | [] => .error .pairTruncated

/-- An instruction's encoding: the 16-bit view of a pair (30_encoding.md R81) or a command word (R88). -/
inductive EncWord where
  | pair (w : BitVec 16)
  | cmd (w : W32)
  deriving DecidableEq, Repr

/-- R81: the control byte stands in bits [15:8] of the 16-bit view. -/
def pairCtrl (w : BitVec 16) : Byte := w.extractLsb' 8 8

/-- R81: the value byte stands in bits [7:0] of the 16-bit view. -/
def pairVal (w : BitVec 16) : Byte := w.extractLsb' 0 8

/-- The instruction an encoding stands for. -/
def decodeWord : EncWord → Instr
  | .pair w => decodePair (pairCtrl w) (pairVal w)
  | .cmd w => decodeCmd w

/-- spec/opcode_table.json's numbering: a row of 16 bits is a pair (its word is the 16-bit view of R81, so the control
byte is the byte at the lower IN offset); every other width the table can give, up to 32 bits, is a command word whose
bits above are 0. -/
def decodeTableWord (nbits w : Nat) : Option Instr :=
  if nbits = 16 then some (decodeWord (.pair (BitVec.ofNat 16 w)))
  else if 1 ≤ nbits ∧ nbits ≤ 32 then some (decodeWord (.cmd (BitVec.ofNat 32 w)))
  else none

/-- R81: the 16-bit view of a pair. -/
def encodePair (ctrl val : Byte) : EncWord := .pair (ctrl ++ val)

/-- R88, R89: a command word from CH and OP; the ignored bits [31:6] are written 0. -/
def encodeCmd (ch : BitVec 2) (op : BitVec 4) : EncWord := .cmd ((0#26 ++ ch) ++ op)

/-- 30_encoding.md R82, R89: the word of a well-formed instruction; ignored bits are 0. -/
def encode : Instr → EncWord
  | .lit val => encodePair 0x00 val
  | .rep ctrl val => encodePair ctrl val
  | .illegal ctrl val => encodePair ctrl val
  | .illegal80 val => encodePair 0x80 val
  | .nop => encodeCmd 0 0
  | .start => encodeCmd 0 1
  | .clear => encodeCmd 0 2
  | .read c => encodeCmd c.bits 3
  | .readReserved => encodeCmd 3 3
  | .cmdReserved op => encodeCmd 0 op

/-- R81: the bytes of an encoding in address order; for a pair the control byte first. A command word is one
32-bit register write and has no bytes (20_memory.md R62). -/
def EncWord.pairBytes : EncWord → List Byte
  | .pair w => [pairCtrl w, pairVal w]
  | .cmd _ => []

end Sys2Proof
end

