-- ==== Sys2Proof/Machine/Constants.lean ====
section
/-! DEFINITION. The fixed constants of 00_scope.md R4, each under its own name: the source's literals are unaudited
(D29), and a corrected value changes one definition here. -/

namespace Sys2Proof.Machine

/-- `HDR_LEN` (R4). -/
def hdrLen : Nat := 40

/-- `MAGIC`, the bytes at offsets 0..3 (R4). -/
def magic : List Byte := [0x6A, 0x87, 0x01, 0x00]

/-- `W_OFF` (R4). -/
def wOff : Nat := 8

/-- `H_OFF` (R4). -/
def hOff : Nat := 12

/-- `DIM_MAX` (R4). -/
def dimMax : Nat := 10000

/-- `ENTRY_BYTES` (R4). -/
def entryBytes : Nat := 2

/-- `NCHAN` (R4). -/
def nchan : Nat := 3

/-- `CB_INIT_CAP` (R4). -/
def cbInitCap : Nat := 256

/-- `MAXVAL` (R4); used by the host's text only. -/
def maxVal : Nat := 255

end Sys2Proof.Machine
end

