-- ==== Sys2Proof/Machine/Operands.lean ====
section
/-! DEFINITION. The operands of pairs, document fields and register accesses: the repeat count (30_encoding.md R83),
where fields, table entries and sub-streams lie (R86, R87; 42_length_table.md R160, R166), and which register an offset
of the window names (10_state.md R24). -/

namespace Sys2Proof.Machine

/-- R83: `count = (-sext_8(ctrl)) + 1`. -/
def repCount (ctrl : Byte) : Nat := (-(sext8 ctrl) + 1).toNat

/-- 42_length_table.md R160: the offset of entry `r` of channel `c`, for a document of height `h`. -/
def lteOffset (h : Nat) (c : Chan) (r : Nat) : Nat := hdrLen + entryBytes * h * c.toNat + entryBytes * r

/-- 42_length_table.md R166: `P0 = 40 + 6·H`, the first payload byte. -/
def payloadStart (s : State) : Nat := hdrLen + nchan * (entryBytes * s.height.toNat)

/-- 42_length_table.md R166: `base[c]`, where channel `c`'s sub-stream starts. -/
def chanBase (s : State) : Chan → Nat
  | .c0 => payloadStart s
  | .c1 => payloadStart s + s.chSize.c0.toNat
  | .c2 => payloadStart s + s.chSize.c0.toNat + s.chSize.c1.toNat

/-- The number of pixels `W · H` (45_raster_interleaver.md R230). -/
def pixelCount (s : State) : Nat := s.width.toNat * s.height.toNat

/-- The registers of 10_state.md R24. -/
inductive Reg where
  | cmd | status | errInfo | errAddr | docLen | width | height | totalSize
  | chSize (c : Chan) | cbLen (c : Chan) | cbCap (c : Chan)
  | rdIndex | rdResult | outCount
  | reserved
  deriving DecidableEq, Repr

/-- The register at a byte offset of the window (R24); the named reserved offsets and every offset at or above 0x60 are
reserved (R44). -/
def regAt (off : Nat) : Reg :=
  match off with
  | 0x00 => .cmd
  | 0x04 => .status
  | 0x08 => .errInfo
  | 0x0C => .errAddr
  | 0x10 => .docLen
  | 0x14 => .width
  | 0x18 => .height
  | 0x1C => .totalSize
  | 0x20 => .chSize .c0
  | 0x24 => .chSize .c1
  | 0x28 => .chSize .c2
  | 0x30 => .cbLen .c0
  | 0x34 => .cbLen .c1
  | 0x38 => .cbLen .c2
  | 0x40 => .cbCap .c0
  | 0x44 => .cbCap .c1
  | 0x48 => .cbCap .c2
  | 0x50 => .rdIndex
  | 0x54 => .rdResult
  | 0x58 => .outCount
  | _ => .reserved

/-- 20_memory.md R64: an aligned 32-bit access. -/
def wordAccess (off bytes : Nat) : Bool := decide (bytes = 4 ∧ off % 4 = 0)

/-- 10_state.md R45, 70_reset_and_hazards.md R284: the registers the engine writes during a run, whose value a host read
leaves unspecified until the results are visible. -/
def engineWritten : Reg → Bool
  | .errInfo | .errAddr | .width | .height | .totalSize | .chSize _ | .cbLen _ | .cbCap _ | .outCount => true
  | .cmd | .status | .docLen | .rdIndex | .rdResult | .reserved => false

end Sys2Proof.Machine
end

