-- ==== Sys2Proof/Machine/Ops.lean ====
section
/-! DEFINITION. The operations over memory and registers that the meanings share: IN (20_memory.md), entering a phase
(40_pipeline_control.md R119), rejecting a command (10_state.md R30), raising an error and the return from one
(60_exceptions.md R252, R255), and reset (70_reset_and_hazards.md R280). -/

namespace Sys2Proof.Machine

/-! ### IN -/

/-- The canonical form: offsets strictly rising, so equal memories are equal lists. -/
abbrev Memory.wf (m : Memory) : Prop := m.Pairwise (fun x y => x.1 < y.1)

/-- The byte listed at an offset, if one is. -/
def Memory.read : Memory → Nat → Option Byte
  | [], _ => none
  | (k, x) :: m, a => if k = a then some x else Memory.read m a

/-- List a byte at an offset. -/
def Memory.write : Memory → Nat → Byte → Memory
  | [], a, b => [(a, b)]
  | (k, x) :: m, a, b =>
    if a < k then (a, b) :: (k, x) :: m
    else if a = k then (a, b) :: m
    else (k, x) :: Memory.write m a b

/-- List bytes from an offset on. -/
def Memory.load : Memory → Nat → List Byte → Memory
  | m, _, [] => m
  | m, a, b :: bs => Memory.load (Memory.write m a b) (a + 1) bs

/-- Add an offset to a strictly rising list of offsets. -/
def insertOffset : List Nat → Nat → List Nat
  | [], a => [a]
  | k :: l, a => if a < k then a :: k :: l else if a = k then k :: l else k :: insertOffset l a

/-- Add `n` offsets from `a` on. -/
def insertOffsets : List Nat → Nat → Nat → List Nat
  | l, _, 0 => l
  | l, a, n + 1 => insertOffsets (insertOffset l a) (a + 1) n

/-- What the engine reads at an IN offset (20_memory.md R66): the byte there; an unspecified byte where the host has
written during the run (R71, log 6) or where nothing has been written since power-on (70_reset_and_hazards.md R282,
log 5). -/
def inByte (s : State) (a : Nat) : Byte :=
  if a ∈ s.raced then Config.racedByte s.draw a
  else (s.inMem.read a).getD (Config.powerOnByte s.powerEpoch a)

/-- `MemRead(a, n)` (00_scope.md R9). -/
def memRead (s : State) (a : Nat) : Nat → List Byte
  | 0 => []
  | n + 1 => inByte s a :: memRead s (a + 1) n

/-- `be16(a) = IN[a]·256 + IN[a+1]` (00_scope.md R8, 20_memory.md R61). -/
def be16 (s : State) (a : Nat) : Nat := (inByte s a).toNat * 256 + (inByte s (a + 1)).toNat

/-- `LOAD a, data` (30_encoding.md R96), for data that fits IN; while BUSY the offsets written are noted, since the
run's reads of them are unspecified (20_memory.md R71). -/
def loadIn (a : Nat) (data : List Byte) (s : State) : State :=
  { s with
    inMem := s.inMem.load a data
    raced := if s.status.state = .busy then insertOffsets s.raced a data.length else s.raced }

/-! ### Registers -/

/-- A fresh number for the free values of one engine step or one host read. -/
def State.drawNext (s : State) : State := { s with draw := s.draw + 1 }

/-- `enter(p)` (40_pipeline_control.md R119). -/
def State.enter (p : Phase) (s : State) : State := { s with status := { s.status with phase := p } }

/-- `reg[STATUS].CHAN <- c` (40_pipeline_control.md R118). -/
def State.setChan (c : Chan) (s : State) : State := { s with status := { s.status with chan := c } }

/-- A rejected command sets CMD_REJ and changes nothing else (10_state.md R30). -/
def State.reject (s : State) : State := { s with status := { s.status with cmdRej := true } }

/-! ### Taking an error, and the return from one -/

/-- `raise Code(info, addr)` (60_exceptions.md R252): the record is written, STATE becomes ERROR, or FATAL for
ResourceExhaustion, PHASE and CHAN are kept, and the run ends. -/
def State.raise (e : ErrorName) (info addr : W32) (s : State) : State :=
  { s with
    status := { s.status with
      err := some e
      state := if e = .resourceExhaustion then .fatal else .error }
    errInfo := info
    errAddr := addr
    seq := .idle }

/-- The effect of an accepted CLEAR (40_pipeline_control.md R112), the return from a recoverable error (60_exceptions.md
R255): buffers released (44_channel_buffer.md R216), OUT emptied, results, record and STATUS zeroed. DOC_LEN and
RD_INDEX are kept. What CLEAR writes is complete before the host's next access (70_reset_and_hazards.md R289), so no result
is left to wait for (log 23). -/
def State.clearResults (s : State) : State :=
  { s with
    cbLen := ⟨0, 0, 0⟩
    cbCap := ⟨0, 0, 0⟩
    cb := ⟨[], [], []⟩
    out := []
    outCount := 0
    outRead := 0
    width := 0
    height := 0
    totalSize := 0
    chSize := ⟨0, 0, 0⟩
    errInfo := 0
    errAddr := 0
    rdResult := RdResult.zero
    status := Status.zero
    statusRead := true }

/-! ### Reset -/

/-- A reset (70_reset_and_hazards.md R280, R281): every field as in 10_state.md R50; IN is kept (R282), and so is what
is not the block's: the parameters and the model's own fields. -/
def State.resetBlock (s : State) : State :=
  { State.reset with
    params := s.params
    inMem := s.inMem
    host := s.host
    seen := s.seen
    draw := s.draw
    powerEpoch := s.powerEpoch }

/-- Power-on (R280, R282): a reset after which IN's contents are unspecified. -/
def State.powerOn (s : State) : State :=
  { s.resetBlock with inMem := [], powerEpoch := s.powerEpoch + 1 }

end Sys2Proof.Machine
end

