-- ==== Sys2Proof/Machine/Buffer.lean ====
section
/-! DEFINITION. The channel buffer's operations (44_channel_buffer.md R211 to R214; R216 is part of CLEAR and reset). -/

namespace Sys2Proof.Machine

/-- Where an operation that may raise leaves the engine. -/
inductive EngineResult where
  /-- the operation is done -/
  | ok (s : State)
  /-- an error was raised and the run has ended (60_exceptions.md R252) -/
  | raised (s : State)
  deriving DecidableEq, Repr

/-- `CBNew(c)` (R211). -/
def cbNew (c : Chan) (s : State) : State :=
  { s with
    cbLen := s.cbLen.set c 0
    cbCap := s.cbCap.set c (BitVec.ofNat 32 cbInitCap)
    cb := s.cb.set c [] }

/-- The part of `CBAppend(c, v)` after its check (R212): growth by doubling when the buffer is full, then the value. -/
def cbPush (c : Chan) (v : Byte) (s : State) : State :=
  { s with
    cbCap := if s.cbLen.get c = s.cbCap.get c then s.cbCap.set c (2 * s.cbCap.get c) else s.cbCap
    cb := s.cb.set c (s.cb.get c ++ [v])
    cbLen := s.cbLen.set c (s.cbLen.get c + 1) }

/-- `CBAppend(c, v)` (R212). -/
def cbAppend (c : Chan) (v : Byte) (s : State) : EngineResult :=
  if (s.cbLen.get c).toNat = s.params.cbLenMax then
    .raised (s.raise .resourceExhaustion (chanInfo c 0) s.pos)
  else .ok (cbPush c v s)

/-- `CBRead(c, i)` (R214). -/
def cbRead (s : State) (c : Chan) (i : W32) : Bool × Byte :=
  if i < s.cbLen.get c then
    (true, ((s.cb.get c)[i.toNat]?).getD (Config.unwrittenValue c.toNat i.toNat))
  else (false, 0)

end Sys2Proof.Machine
end

