-- ==== Sys2Proof/Machine/Channel.lean ====
section
/-! DEFINITION. The engine steps of a channel's decode other than its pairs, and the cross-channel check
(43_rle_decoder.md R180, R181, R188 to R191). -/

namespace Sys2Proof.Machine

/-- The start of channel `c` (40_pipeline_control.md R118, R122): enter DEC, the odd-size check (R181), `CBNew`, and the
cursor at the sub-stream's base (R180). -/
def chanStartStep (c : Chan) (s0 : State) : State :=
  let s := (s0.enter .dec).setChan c
  if (s.chSize.get c).toNat % 2 = 1 then
    s.raise .oddStreamLength (chanInfo c 0) (BitVec.ofNat 32 (chanBase s c + (s.chSize.get c).toNat - 1))
  else
    { cbNew c s with
      pos := BitVec.ofNat 32 (chanBase s c)
      endPos := BitVec.ofNat 32 (chanBase s c + (s.chSize.get c).toNat)
      seq := .pairs }

/-- R189, 40_pipeline_control.md R118: what follows the end of a channel's decode. -/
def afterChan : Chan → Seq
  | .c0 => .chanStart .c1
  | .c1 => .chanStart .c2
  | .c2 => .chk

/-- The end of one channel (40_pipeline_control.md R122). -/
def chanEndStep (s : State) : State := { s with seq := afterChan s.status.chan }

/-- The CHK phase (R190): the three produced counts are equal. -/
def chkStep (s0 : State) : State :=
  let s := (s0.enter .chk).setChan .c0
  if s.cbLen.c0 = s.cbLen.c1 ∧ s.cbLen.c1 = s.cbLen.c2 then { s with seq := .asmCheck }
  else s.raise .channelLengthMismatch 0 0

end Sys2Proof.Machine
end

