-- ==== Sys2Proof/Machine/Commands.lean ====
section
/-! DEFINITION. The meanings of the host's commands (40_pipeline_control.md R110 to R114). -/

namespace Sys2Proof.Machine

/-- `NOP` (R110): no effect, in every state. -/
def execNop (s : State) : Host.Outcome State Fault Refusal := .next s

/-- R111: when START is accepted. -/
def startAccepted (s : State) : Bool :=
  decide (s.status.state = .idle ∧ s.docLen.toNat ≤ s.params.inSizeMax)

/-- R111: the effect of an accepted START; the first engine step of the run is the HDR phase (R118). PHASE and CHAN are
not written (log 4). The host has not yet read that this run is over (20_memory.md R69 (b)). -/
def State.beginRun (s : State) : State :=
  { s with
    status := { s.status with cmdRej := false, err := none, state := .busy }
    errInfo := 0
    errAddr := 0
    width := 0
    height := 0
    totalSize := 0
    chSize := ⟨0, 0, 0⟩
    cbLen := ⟨0, 0, 0⟩
    cbCap := ⟨0, 0, 0⟩
    cb := ⟨[], [], []⟩
    out := []
    outCount := 0
    outRead := 0
    raced := []
    statusRead := false
    seq := .hdr }

/-- `START` (R111). -/
def execStart (s : State) : Host.Outcome State Fault Refusal :=
  if startAccepted s then .next s.beginRun else .next s.reject

/-- R112, R113: the states in which CLEAR and READ are accepted. -/
def resultState : RunState → Bool
  | .idle | .done | .error => true
  | .busy | .fatal => false

/-- `CLEAR` (R112). -/
def execClear (s : State) : Host.Outcome State Fault Refusal :=
  if resultState s.status.state then .next s.clearResults else .next s.reject

/-- `READ c` (R113). -/
def execRead (c : Chan) (s : State) : Host.Outcome State Fault Refusal :=
  if resultState s.status.state then
    .next { s with
      status := { s.status with cmdRej := false }
      rdResult :=
        match cbRead s c s.rdIndex with
        | (true, v) => { value := v, done := true, oob := false }
        | (false, _) => { value := 0, done := true, oob := true } }
  else .next s.reject

/-- READ with CH = 3 (R114). -/
def execReadReserved (s : State) : Host.Outcome State Fault Refusal := .next s.reject

/-- OP 0x4 .. 0xF (R114); the opcode itself is not looked at. -/
def execCmdReserved (_op : BitVec 4) (s : State) : Host.Outcome State Fault Refusal := .next s.reject

end Sys2Proof.Machine
end

