-- ==== Sys2Proof/Machine/Pairs.lean ====
section
/-! DEFINITION. The meanings of the pairs (43_rle_decoder.md R183 to R186). A pair acts on the channel in STATUS.CHAN.
The fetch (R182) has latched `ctrl` and `val`; a pair's appends are merged into one step, as 40_pipeline_control.md
R122 allows (log 3). -/

namespace Sys2Proof.Machine

/-- After a pair that has executed, `pos <- pos + 2` (R180, R182); after one that has raised, `pos` stays. -/
def finishPair : EngineResult → Host.Outcome State Fault Refusal
  | .ok s => .next { s with pos := s.pos + 2 }
  | .raised s => .next s

/-- R184's loop: append and count down `cnt`, `n` times, stopping at the first append that raises. -/
def appendRun (c : Chan) (v : Byte) : Nat → State → EngineResult
  | 0, s => .ok s
  | n + 1, s =>
    match cbAppend c v s with
    | .ok t => appendRun c v n { t with cnt := t.cnt - 1 }
    | .raised t => .raised t

/-- `LIT v` (R183). -/
def execLit (val : Byte) (s : State) : Host.Outcome State Fault Refusal :=
  finishPair (cbAppend s.status.chan val s)

/-- `REP n, v` (R184): `cnt <- 257 - ctrl`, then that many appends. -/
def execRep (ctrl val : Byte) (s : State) : Host.Outcome State Fault Refusal :=
  finishPair (appendRun s.status.chan val (repCount ctrl) { s with cnt := BitVec.ofNat 8 (repCount ctrl) })

/-- R185, R186: an illegal pair raises and appends nothing; `pos` stays at the pair. -/
def raiseInvalidControl (ctrl : Byte) (s : State) : Host.Outcome State Fault Refusal :=
  .next (s.raise .invalidControlByte (chanInfo s.status.chan ctrl) s.pos)

/-- An ILLEGAL pair (R185); the value byte is ignored. -/
def execIllegal (ctrl _val : Byte) (s : State) : Host.Outcome State Fault Refusal :=
  raiseInvalidControl ctrl s

/-- An ILLEGAL80 pair (R186); the value byte is ignored. -/
def execIllegal80 (_val : Byte) (s : State) : Host.Outcome State Fault Refusal :=
  raiseInvalidControl 0x80 s

end Sys2Proof.Machine
end

