-- ==== Sys2Proof/Machine/Dispatch.lean ====
section
/-! DEFINITION. The meaning of each instruction: one arm per constructor. -/

namespace Sys2Proof.Machine

def exec (i : Instr) (s : State) : Host.Outcome State Fault Refusal :=
  match i with
  | .lit val => Sys2Proof.Machine.execLit val s
  | .rep ctrl val => Sys2Proof.Machine.execRep ctrl val s
  | .illegal ctrl val => Sys2Proof.Machine.execIllegal ctrl val s
  | .illegal80 val => Sys2Proof.Machine.execIllegal80 val s
  | .nop => Sys2Proof.Machine.execNop s
  | .start => Sys2Proof.Machine.execStart s
  | .clear => Sys2Proof.Machine.execClear s
  | .read c => Sys2Proof.Machine.execRead c s
  | .readReserved => Sys2Proof.Machine.execReadReserved s
  | .cmdReserved op => Sys2Proof.Machine.execCmdReserved op s

end Sys2Proof.Machine
end

