-- ==== Sys2Proof/Machine/Header.lean ====
section
/-! DEFINITION. The HDR phase (41_header.md R140 to R147), one engine step. -/

namespace Sys2Proof.Machine

/-- The least index at which two lists of bytes differ (R141's `k`). -/
def firstDiff : List Byte → List Byte → Nat
  | a :: as, b :: bs => if a = b then firstDiff as bs + 1 else 0
  | _, _ => 0

/-- R143, after the dimensions are latched: the width bound, then the height bound; then the next phase is LT. -/
def checkDimensions (s : State) : State :=
  if dimMax < s.width.toNat then
    s.raise .resolutionTooLarge (dimInfo 0 s.width) (BitVec.ofNat 32 wOff)
  else if dimMax < s.height.toNat then
    s.raise .resolutionTooLarge (dimInfo 1 s.height) (BitVec.ofNat 32 hOff)
  else { s with seq := .lt }

/-- R142, R144: latch WIDTH and HEIGHT from the header. -/
def latchDimensions (s : State) : State :=
  { s with width := BitVec.ofNat 16 (be16 s wOff), height := BitVec.ofNat 16 (be16 s hOff) }

/-- The HDR phase in R144's order: length (R140), signature (R141), dimensions (R142), bounds (R143). -/
def headerStep (s0 : State) : State :=
  let s := s0.enter .hdr
  if s.docLen.toNat < hdrLen then
    s.raise .unexpectedEnd (BitVec.ofNat 32 hdrLen) 0
  else if memRead s 0 4 ≠ magic then
    s.raise .signatureMismatch (sigInfo (inByte s 0) (inByte s 1) (inByte s 2) (inByte s 3))
      (BitVec.ofNat 32 (firstDiff (memRead s 0 4) magic))
  else checkDimensions (latchDimensions s)

end Sys2Proof.Machine
end

