-- ==== Sys2Proof/Machine/LengthTable.lean ====
section
/-! DEFINITION. The LT phase and the PAYLOAD phase (42_length_table.md), one engine step each. -/

namespace Sys2Proof.Machine

/-- R162, R163: the sum of channel `c`'s first `n` entries. -/
def sumEntries (s : State) (c : Chan) : Nat → Nat
  | 0 => 0
  | n + 1 => sumEntries s c n + be16 s (lteOffset s.height.toNat c n)

/-- R163: `CH_SIZE[c]`. -/
def channelSum (s : State) (c : Chan) : W32 := BitVec.ofNat 32 (sumEntries s c s.height.toNat)

/-- The LT phase: truncation check (R161), per-channel sums (R163), total (R164). -/
def ltStep (s0 : State) : State :=
  let s := s0.enter .lt
  if s.docLen.toNat < payloadStart s then
    s.raise .unexpectedEnd (BitVec.ofNat 32 (payloadStart s)) (BitVec.ofNat 32 hdrLen)
  else
    { s with
      chSize := ⟨channelSum s .c0, channelSum s .c1, channelSum s .c2⟩
      totalSize := channelSum s .c0 + channelSum s .c1 + channelSum s .c2
      seq := .payload }

/-- The PAYLOAD phase: truncation check (R167); then channel 0 starts (40_pipeline_control.md R118). -/
def payloadStep (s0 : State) : State :=
  let s := s0.enter .payload
  if s.docLen.toNat < payloadStart s + s.totalSize.toNat then
    s.raise .unexpectedEnd (BitVec.ofNat 32 (payloadStart s + s.totalSize.toNat)) (BitVec.ofNat 32 (payloadStart s))
  else { s with seq := .chanStart .c0 }

end Sys2Proof.Machine
end

