-- ==== Sys2Proof/Machine/Raster.lean ====
section
/-! DEFINITION. The ASM phase (45_raster_interleaver.md R230 to R235) and completion (40_pipeline_control.md R120). -/

namespace Sys2Proof.Machine

/-- The ASM size check (R230), and `i <- 0` (R231). -/
def asmCheckStep (s0 : State) : State :=
  let s := s0.enter .asm
  if s.cbLen.c0.toNat ≠ pixelCount s then s.raise .rasterSizeMismatch 0 0
  else { s with i := 0, seq := .emit }

/-- R232: the triple at index `i`, channel 0 in bits [23:16], 1 in [15:8], 2 in [7:0]. -/
def tripleAt (s : State) (i : W32) : Pixel :=
  (cbRead s .c0 i).2 ++ (cbRead s .c1 i).2 ++ (cbRead s .c2 i).2

/-- One `Emit` (R231). -/
def emitOne (s : State) : State :=
  { s with out := s.out ++ [tripleAt s s.i], outCount := s.i + 1, i := s.i + 1 }

/-- `complete()` (40_pipeline_control.md R120). -/
def complete (s : State) : State :=
  { s with status := { s.status with state := .done }, seq := .idle }

/-- The emission loop (R231): one triple while `i < W·H`, then completion (R234). -/
def emitStep (s : State) : State :=
  if s.i.toNat < pixelCount s then emitOne s else complete s

end Sys2Proof.Machine
end

