-- ==== Sys2Proof/Machine/Sequencer.lean ====
section
/-! DEFINITION. The sequencer (40_pipeline_control.md R118, R122): one engine step. -/

namespace Sys2Proof.Machine

/-- R182: the instruction at `pos`. -/
def fetchPair (s : State) : Instr := decodePair (inByte s s.pos.toNat) (inByte s (s.pos.toNat + 1))

/-- R182: `ctrl <- IN[pos]`, `val <- IN[pos+1]`. -/
def latchPair (s : State) : State :=
  { s with ctrl := inByte s s.pos.toNat, val := inByte s (s.pos.toNat + 1) }

/-- The pair loop (43_rle_decoder.md R180): fetch and execute one pair while `pos < end`, else end the channel. -/
def pairStep (s : State) : Host.Outcome State Fault Refusal :=
  if s.endPos ≤ s.pos then .next (chanEndStep s)
  else if s.docLen.toNat < s.pos.toNat + 2 then .fault .fetchBeyondDocument
  else exec (fetchPair s) (latchPair s)

/-- The engine step that `seq` names. -/
def runSeq (s : State) : Host.Outcome State Fault Refusal :=
  match s.seq with
  | .idle => .next s
  | .hdr => .next (headerStep s)
  | .lt => .next (ltStep s)
  | .payload => .next (payloadStep s)
  | .chanStart c => .next (chanStartStep c s)
  | .pairs => pairStep s
  | .chk => .next (chkStep s)
  | .asmCheck => .next (asmCheckStep s)
  | .emit => .next (emitStep s)

/-- One engine step. The engine takes steps only while BUSY (60_exceptions.md R265); each has a draw number of its own
for the free values it may read. IN has no offset at or above IN_SIZE_MAX (10_state.md R46). -/
def engineStep (s : State) : Host.Outcome State Fault Refusal :=
  if s.status.state ≠ .busy then .next s
  else if s.params.inSizeMax < s.docLen.toNat then .fault .inOffsetAbsent
  else runSeq s.drawNext

end Sys2Proof.Machine
end

