-- ==== Sys2Proof/Machine/HostPort.lean ====
section
/-! DEFINITION. The host's moves: the register window (10_state.md R24 to R45, 20_memory.md R64 to R66,
40_pipeline_control.md R115 to R117), LOAD and reads of OUT (30_encoding.md R96, 20_memory.md R69), reset, and how the
pending moves interleave with the engine (40_pipeline_control.md R122). -/

namespace Sys2Proof.Machine

/-- The value a register holds, as a 32-bit word (10_state.md R25 to R44). -/
def regValue (s : State) : Reg → W32
  | .cmd => 0
  | .status => statusWord s.status
  | .errInfo => s.errInfo
  | .errAddr => s.errAddr
  | .docLen => s.docLen
  | .width => s.width.zeroExtend 32
  | .height => s.height.zeroExtend 32
  | .totalSize => s.totalSize
  | .chSize c => s.chSize.get c
  | .cbLen c => s.cbLen.get c
  | .cbCap c => s.cbCap.get c
  | .rdIndex => s.rdIndex
  | .rdResult => rdResultWord s.rdResult
  | .outCount => s.outCount
  | .reserved => 0

/-- 20_memory.md R69 (b), 70_reset_and_hazards.md R284: are the engine's results the host's to see? They are when no run
is in progress and the host has read so in STATUS. -/
def resultsVisible (s : State) : Bool := decide (s.status.state ≠ .busy) && s.statusRead

/-- What a host read of the word at an offset returns: the register's value, but for an engine-written register an
unspecified one until the results are visible (10_state.md R45, 70_reset_and_hazards.md R284; log 7). -/
def hostReadValue (s : State) (off : Nat) : W32 :=
  if engineWritten (regAt off) && !resultsVisible s then Config.earlyRead s.draw off
  else regValue s (regAt off)

/-- After a host read at an offset: has the host read STATE ≠ BUSY? A read of STATUS is the only synchronisation point
(20_memory.md R69). -/
def statusReadAfter (off : Nat) (s : State) : Bool :=
  s.statusRead || (decide (regAt off = .status) && decide (s.status.state ≠ .busy))

/-- A host word write (40_pipeline_control.md R115 to R117; 10_state.md R25): CMD executes a command, DOC_LEN stores
unless BUSY, RD_INDEX stores, every other offset ignores the write. -/
def regWrite (r : Reg) (v : W32) (s : State) : Host.Outcome State Fault Refusal :=
  match r with
  | .cmd => exec (decodeCmd v) s
  | .docLen => if s.status.state = .busy then .next s else .next { s with docLen := v }
  | .rdIndex => .next { s with rdIndex := v }
  | _ => .next s

/-- A host read of the word at an offset (20_memory.md R66: no side effect on the block). -/
def regRead (off : Nat) (s : State) : State :=
  { s with
    seen := s.seen ++ [.word off (hostReadValue s off)]
    statusRead := statusReadAfter off s
    draw := s.draw + 1 }

/-- What a host read of OUT sees: the next triple in append order (20_memory.md R69 (d)); until the results are visible, one
that has been appended may not be visible yet (R69 (b), 70_reset_and_hazards.md R288; log 23). -/
def nextTriple (s : State) : Option Pixel :=
  if resultsVisible s || Config.outShown s.draw s.outRead then s.out[s.outRead]? else none

/-- A host read of the next triple of OUT (log 13). -/
def readOut (s : State) : State :=
  match nextTriple s with
  | some t => { s with seen := s.seen ++ [.triple t], outRead := s.outRead + 1, draw := s.draw + 1 }
  | none => { s with seen := s.seen ++ [.noTriple], draw := s.draw + 1 }

/-- One host move that is due; POLL here is its last read of STATUS. -/
def hostAct (m : HostMove) (s : State) : Host.Outcome State Fault Refusal :=
  match m with
  | .write off bytes v =>
    if wordAccess off bytes then regWrite (regAt off) v s else .refused .hostAccessNotWord
  | .read off bytes =>
    if wordAccess off bytes then .next (regRead off s) else .refused .hostAccessNotWord
  | .poll => .next (regRead 0x04 s)
  | .load a data =>
    if a + data.length ≤ s.params.inSizeMax then .next (loadIn a data s) else .fault .inOffsetAbsent
  | .readOut => .next (readOut s)
  | .reset => .next s.resetBlock
  | .powerOn => .next s.powerOn

/-- A POLL that is due while the block is BUSY waits (30_encoding.md R96; log 16). -/
def pollWaits (m : HostMove) (s : State) : Bool :=
  match m with
  | .poll => decide (s.status.state = .busy)
  | _ => false

/-- The next step of host and engine (40_pipeline_control.md R122): the first pending host move when it is due; otherwise
an engine step, which brings that move one step nearer. -/
def hostOrEngineStep (s : State) : Host.Outcome State Fault Refusal :=
  match s.host with
  | [] => engineStep s
  | e :: rest =>
    if e.after = 0 then
      if pollWaits e.move s then engineStep s else hostAct e.move { s with host := rest }
    else engineStep { s with host := { e with after := e.after - 1 } :: rest }

/-! ### Placing an instruction where the next step fetches -/

/-- Is the engine at a pair fetch, with a pair that fits below `end`, DOC_LEN and IN? -/
def fetchReady (s : State) : Bool :=
  decide (s.status.state = .busy ∧ s.seq = .pairs ∧ s.pos.toNat + 2 ≤ s.endPos.toNat ∧
    s.pos.toNat + 2 ≤ s.docLen.toNat ∧ s.docLen.toNat ≤ s.params.inSizeMax)

/-- A state in the decode of channel 0, just after `CBNew(0)`, of a 48-byte document of one pixel whose length table gave
the sizes 2, 0, 0, so that the one pair at 46 comes next: what placing a pair from outside takes when no pair is about to
be fetched (log 14). -/
def enterDecode (s : State) : State :=
  { cbNew .c0 s.beginRun with
    status := { state := .busy, phase := .dec, chan := .c0, err := none, cmdRej := s.status.cmdRej }
    docLen := 48
    width := 1
    height := 1
    totalSize := 2
    chSize := ⟨2, 0, 0⟩
    pos := 46
    endPos := 48
    seq := .pairs }

/-- Put a pair at `pos` and let the engine, not the host, move next. -/
def placePair (w : BitVec 16) (s0 : State) : State :=
  let s := if fetchReady s0 then s0 else enterDecode s0
  { s with
    inMem := (s.inMem.write s.pos.toNat (pairCtrl w)).write (s.pos.toNat + 1) (pairVal w)
    raced := s.raced.filter (fun a => decide (a ≠ s.pos.toNat ∧ a ≠ s.pos.toNat + 1))
    host := [] }

/-- Make a write of a command word to CMD the host's next move. -/
def placeCommand (w : W32) (s : State) : State :=
  { s with host := { after := 0, move := .write 0x00 4 w } :: s.host }

end Sys2Proof.Machine
end

