-- ==== Sys2Proof/Machine/Step.lean ====
section
/-! DEFINITION. The step of the machine, and how an instruction is placed where it is fetched next. -/

namespace Sys2Proof.Machine

/-- One step of host and engine. -/
def step (s : State) : Host.Outcome State Fault Refusal := Sys2Proof.Machine.hostOrEngineStep s

/-- `s` with an instruction placed where the next step fetches (log 14). A table row of 16 bits is a pair, which the
engine fetches from IN at `pos`; any other row is a command word, which a host write of CMD brings. -/
def State.withFetchWord (s : State) (nbits w : Nat) : State :=
  if nbits = 16 then Sys2Proof.Machine.placePair (BitVec.ofNat 16 w) s
  else Sys2Proof.Machine.placeCommand (BitVec.ofNat 32 w) s

end Sys2Proof.Machine
end

