-- ==== Sys2Proof/Machine/Assembler.lean ====
section
/-! DEFINITION. The notations of 30_encoding.md R94 to R97 as functions to instructions and document bytes. The block has no
step for them. -/

namespace Sys2Proof.Machine

/-- `REP n, v` (R94): the pair `(257 - n) v`. -/
def asmRep (n : Nat) (v : Byte) : Instr := .rep (BitVec.ofNat 8 (257 - n)) v

/-- R95's loop, with at most `fuel` pairs. -/
def asmRunLoop : Nat → Nat → Byte → List Instr
  | 0, _, _ => []
  | fuel + 1, n, v =>
    if 128 < n then asmRep 128 v :: asmRunLoop fuel (n - 128) v
    else if n = 1 then [.lit v]
    else [asmRep n v]

/-- `RUN n, v` (R95), n ≥ 1; every pair appends at least one value, so `n` pairs are fuel enough. -/
def asmRun (n : Nat) (v : Byte) : List Instr := asmRunLoop n n v

/-- The bytes of a list of pairs, in order (R81). -/
def pairsBytes (is : List Instr) : List Byte := is.flatMap (fun i => (encode i).pairBytes)

/-- A 16-bit field as two big-endian bytes (20_memory.md R61). -/
def be16Bytes (v : Half) : List Byte := [v.extractLsb' 8 8, v.extractLsb' 0 8]

/-- `.header W, H` (R97). -/
def headerBytes (w h : Half) : List Byte :=
  magic ++ List.replicate 4 0 ++ be16Bytes w ++ [0, 0] ++ be16Bytes h ++ List.replicate 26 0

/-- `.table c: e0, e1, …` (R97). -/
def tableBytes (entries : List Half) : List Byte := entries.flatMap be16Bytes

end Sys2Proof.Machine
end

