-- ==== Sys2Proof/Safety.lean ====
section
/-! DEFINITION. What claims are stated in: what an instruction and the host can do, the invariant of the block, the bound on
a run, and what a channel's sub-stream and a document stand for. -/

namespace Sys2Proof.Safety

open Sys2Proof.Machine

/-! ### Expected values, written from the rules and not from the machine -/

/-- 44_channel_buffer.md R213: `cap` is the least `256·2^k` that is at least `n`. -/
def IsCapacityFor (n cap : Nat) : Prop :=
  (∃ k, cap = 256 * 2 ^ k) ∧ n ≤ cap ∧ ∀ k, n ≤ 256 * 2 ^ k → cap ≤ 256 * 2 ^ k

/-- 43_rle_decoder.md R188: the values one pair appends, 1 per LIT and `257 - ctrl` per REP; none for an illegal one. -/
def pairValues (ctrl val : Byte) : Option (List Byte) :=
  if ctrl.toNat = 0 then some [val]
  else if ctrl.toNat ≤ 0x80 then none
  else some (List.replicate (257 - ctrl.toNat) val)

/-- 43_rle_decoder.md R189: the pure function `decode_channel(bytes)`; `none` when a pair is illegal or the length
is odd. -/
def expand : List Byte → Option (List Byte)
  | [] => some []
  | [_] => none
  | ctrl :: val :: rest =>
    match pairValues ctrl val, expand rest with
    | some vs, some ws => some (vs ++ ws)
    | _, _ => none

/-- 45_raster_interleaver.md R232, R233: the triples of three channels, in index order. -/
def interleave : List Byte → List Byte → List Byte → List Pixel
  | r :: rs, g :: gs, b :: bs => (r ++ g ++ b) :: interleave rs gs bs
  | _, _, _ => []

/-- The bytes of channel `c`'s sub-stream (42_length_table.md R166). -/
def subStream (s : State) (c : Chan) : List Byte := memRead s (chanBase s c) (s.chSize.get c).toNat

/-- 44_channel_buffer.md R217: append a list of values, one after another. -/
def appendAll (c : Chan) : List Byte → State → EngineResult
  | [], s => .ok s
  | v :: vs, s =>
    match cbAppend c v s with
    | .ok t => appendAll c vs t
    | .raised t => .raised t

/-- Execute a list of pairs, one after another, while each answers a next state that is still BUSY. -/
def execPairs : List Instr → State → Option State
  | [], s => some s
  | i :: is, s =>
    match exec i s with
    | .next t => if t.status.state = .busy then execPairs is t else none
    | _ => none

/-- The move the host makes in the next step, if it makes one (40_pipeline_control.md R122). -/
def dueMove (s : State) : Option HostMove :=
  match s.host with
  | [] => none
  | e :: _ => if e.after = 0 ∧ pollWaits e.move s = false then some e.move else none

/-- The state a step hands to the engine when no host move is due: the pending move, if there is one, has come one step
nearer. -/
def engineTurn (s : State) : State :=
  match s.host with
  | [] => s
  | e :: rest => if e.after = 0 then s else { s with host := { e with after := e.after - 1 } :: rest }

/-! ### The invariant -/

/-- 44_channel_buffer.md R210, R213, for buffer `c`. -/
structure BufferOk (s : State) (c : Chan) : Prop where
  contents : (s.cb.get c).length = (s.cbLen.get c).toNat
  bound    : (s.cbLen.get c).toNat ≤ s.params.cbLenMax
  absent   : s.cbCap.get c = 0 → s.cbLen.get c = 0
  capacity : s.cbCap.get c ≠ 0 → IsCapacityFor (s.cbLen.get c).toNat (s.cbCap.get c).toNat

/-- Every result register is 0 and no buffer exists: IDLE (10_state.md R50; 40_pipeline_control.md R111, R112). -/
structure ResultsZero (s : State) : Prop where
  width     : s.width = 0
  height    : s.height = 0
  totalSize : s.totalSize = 0
  chSize    : s.chSize = ⟨0, 0, 0⟩
  cbLen     : s.cbLen = ⟨0, 0, 0⟩
  cbCap     : s.cbCap = ⟨0, 0, 0⟩

/-- The header has passed its bounds (41_header.md R143). -/
structure HeaderOk (s : State) : Prop where
  width  : s.width.toNat ≤ dimMax
  height : s.height.toNat ≤ dimMax
  docLen : hdrLen ≤ s.docLen.toNat

/-- The table has been summed (42_length_table.md R161 to R165). -/
structure TableOk (s : State) : Prop extends HeaderOk s where
  sizes : ∀ c, (s.chSize.get c).toNat ≤ 65535 * s.height.toNat
  total : s.totalSize.toNat = s.chSize.c0.toNat + s.chSize.c1.toNat + s.chSize.c2.toNat
  table : payloadStart s ≤ s.docLen.toNat

/-- The payload is present (42_length_table.md R167). -/
structure PayloadOk (s : State) : Prop extends TableOk s where
  payload : payloadStart s + s.totalSize.toNat ≤ s.docLen.toNat

/-- The three produced counts are `W·H` (43_rle_decoder.md R190, 45_raster_interleaver.md R230). -/
def CountsOk (s : State) : Prop := ∀ c, (s.cbLen.get c).toNat = pixelCount s

/-- The cursor of the channel being decoded (10_state.md R23, 43_rle_decoder.md R181, R182). -/
structure CursorOk (s : State) : Prop where
  size  : (s.chSize.get s.status.chan).toNat % 2 = 0
  endAt : s.endPos.toNat = chanBase s s.status.chan + (s.chSize.get s.status.chan).toNat
  low   : chanBase s s.status.chan ≤ s.pos.toNat
  high  : s.pos.toNat ≤ s.endPos.toNat
  even  : (s.pos.toNat - chanBase s s.status.chan) % 2 = 0

/-- What holds while a run is in progress, by the engine step that comes next (40_pipeline_control.md R118). -/
def RunOk (s : State) : Prop :=
  match s.seq with
  | .idle => False
  | .hdr => s.status.phase = .none ∧ ResultsZero s ∧ s.out = []
  | .lt => s.status.phase = .hdr ∧ HeaderOk s ∧ s.cbCap = ⟨0, 0, 0⟩ ∧ s.chSize = ⟨0, 0, 0⟩ ∧ s.totalSize = 0 ∧ s.out = []
  | .payload => s.status.phase = .lt ∧ TableOk s ∧ s.cbCap = ⟨0, 0, 0⟩ ∧ s.out = []
  | .chanStart .c0 => s.status.phase = .payload ∧ PayloadOk s ∧ s.cbCap = ⟨0, 0, 0⟩ ∧ s.out = []
  | .chanStart .c1 => s.status.phase = .dec ∧ s.status.chan = .c0 ∧ PayloadOk s ∧ s.cbCap.c0 ≠ 0 ∧
      s.cbCap.c1 = 0 ∧ s.cbCap.c2 = 0 ∧ s.out = []
  | .chanStart .c2 => s.status.phase = .dec ∧ s.status.chan = .c1 ∧ PayloadOk s ∧ s.cbCap.c0 ≠ 0 ∧
      s.cbCap.c1 ≠ 0 ∧ s.cbCap.c2 = 0 ∧ s.out = []
  | .pairs => s.status.phase = .dec ∧ PayloadOk s ∧ CursorOk s ∧ s.out = [] ∧
      (∀ c, s.cbCap.get c ≠ 0 ↔ c.toNat ≤ s.status.chan.toNat)
  | .chk => s.status.phase = .dec ∧ s.status.chan = .c2 ∧ PayloadOk s ∧ (∀ c, s.cbCap.get c ≠ 0) ∧ s.out = []
  | .asmCheck => s.status.phase = .chk ∧ PayloadOk s ∧ s.cbLen.c0 = s.cbLen.c1 ∧ s.cbLen.c1 = s.cbLen.c2 ∧
      (∀ c, s.cbCap.get c ≠ 0) ∧ s.out = []
  | .emit => s.status.phase = .asm ∧ PayloadOk s ∧ CountsOk s ∧ (∀ c, s.cbCap.get c ≠ 0) ∧
      s.i.toNat = s.out.length ∧ s.out.length ≤ pixelCount s

/-- What STATUS.STATE says of the rest of the state (10_state.md R26 to R29, R32, R33; 40_pipeline_control.md R120;
45_raster_interleaver.md R234, R235; 60_exceptions.md R250). -/
def StateOk (s : State) : Prop :=
  match s.status.state with
  | .idle => s.status.phase = .none ∧ s.status.err = none ∧ ResultsZero s ∧ s.out = [] ∧ s.seq = .idle
  | .busy => s.status.err = none ∧ s.docLen.toNat ≤ s.params.inSizeMax ∧ RunOk s
  | .done => s.status.phase = .asm ∧ s.status.err = none ∧ CountsOk s ∧ s.out.length = pixelCount s ∧
      s.width.toNat ≤ dimMax ∧ s.height.toNat ≤ dimMax ∧ s.seq = .idle
  | .error => (∃ e, s.status.err = some e ∧ e ≠ .resourceExhaustion ∧ e ≠ .outOfBounds) ∧ s.out = [] ∧ s.seq = .idle
  | .fatal => s.status.err = some .resourceExhaustion ∧ s.status.phase = .dec ∧ s.out = [] ∧ s.seq = .idle

/-- The invariant of the block: it holds at reset and every step keeps it. `unseen` and `settled`: the host cannot have read
that a run is over while it goes on, and in IDLE there is no run to read of (20_memory.md R69 (b)). -/
structure Inv (s : State) : Prop where
  params    : s.params.Legal
  memory    : s.inMem.wf
  inBound   : ∀ x ∈ s.inMem, x.1 < s.params.inSizeMax
  raced     : s.raced.Pairwise (· < ·)
  buffers   : ∀ c, BufferOk s c
  outCount  : s.outCount.toNat = s.out.length
  outRead   : s.outRead ≤ s.out.length
  rdResult  : s.rdResult.oob = true → s.rdResult.value = 0 ∧ s.rdResult.done = true
  noError   : s.status.err = none → s.errInfo = 0 ∧ s.errAddr = 0
  chanPhase : s.status.phase ≠ .dec → s.status.chan = .c0
  state     : StateOk s
  unseen    : s.status.state = .busy → s.statusRead = false
  settled   : s.status.state = .idle → s.statusRead = true

/-! ### The bound on a run -/

/-- An upper bound on the engine steps left in the run in progress, once the table has been summed
(40_pipeline_control.md R123). -/
def stepsFromChk (s : State) : Nat := 3 + pixelCount s

/-- From the start of channel `c`'s decode: its start, its pairs, its end, then what follows. -/
def stepsFromChan (s : State) : Chan → Nat
  | .c2 => 2 + s.chSize.c2.toNat / 2 + stepsFromChk s
  | .c1 => 2 + s.chSize.c1.toNat / 2 + (2 + s.chSize.c2.toNat / 2 + stepsFromChk s)
  | .c0 => 2 + s.chSize.c0.toNat / 2 +
      (2 + s.chSize.c1.toNat / 2 + (2 + s.chSize.c2.toNat / 2 + stepsFromChk s))

/-- What follows channel `c`'s end. -/
def stepsAfterChan (s : State) : Chan → Nat
  | .c0 => stepsFromChan s .c1
  | .c1 => stepsFromChan s .c2
  | .c2 => stepsFromChk s

/-- The most engine steps from PAYLOAD on, for any table and a raster of `n` pixels. -/
def maxStepsFromPayload (n : Nat) : Nat := 1 + 3 * (2 + 327675000) + (3 + n)

/-- An upper bound on the engine steps left in the run in progress (40_pipeline_control.md R123); 0 when none is. -/
def stepsLeft (s : State) : Nat :=
  if s.status.state = .busy then
    match s.seq with
    | .idle => 0
    | .hdr => 2 + maxStepsFromPayload (dimMax * dimMax)
    | .lt => 1 + maxStepsFromPayload (pixelCount s)
    | .payload => 1 + stepsFromChan s .c0
    | .chanStart c => stepsFromChan s c
    | .pairs => 1 + (s.endPos.toNat - s.pos.toNat) / 2 + stepsAfterChan s s.status.chan
    | .chk => stepsFromChk s
    | .asmCheck => 2 + pixelCount s
    | .emit => 1 + (pixelCount s - s.i.toNat)
  else 0

/-! ### Documents -/

/-- The document below DOC_LEN is well formed and holds a raster of `w` by `h` whose channels decode to `r`, `g`, `b`
(41_header.md, 42_length_table.md, 43_rle_decoder.md, 45_raster_interleaver.md R230), with the sizes `sz` its length table
gives. -/
structure GoodDocument (s : State) (w h : Nat) (sz : PerChan Nat) (r g b : List Byte) : Prop where
  fits   : s.docLen.toNat ≤ s.params.inSizeMax
  header : 40 ≤ s.docLen.toNat
  magic  : memRead s 0 4 = [0x6A, 0x87, 0x01, 0x00]
  width  : be16 s 8 = w
  height : be16 s 12 = h
  wMax   : w ≤ 10000
  hMax   : h ≤ 10000
  size0  : sz.c0 = ((List.range h).map fun k => be16 s (40 + 2 * k)).sum
  size1  : sz.c1 = ((List.range h).map fun k => be16 s (40 + 2 * h + 2 * k)).sum
  size2  : sz.c2 = ((List.range h).map fun k => be16 s (40 + 4 * h + 2 * k)).sum
  whole  : 40 + 6 * h + sz.c0 + sz.c1 + sz.c2 ≤ s.docLen.toNat
  chan0  : expand (memRead s (40 + 6 * h) sz.c0) = some r
  chan1  : expand (memRead s (40 + 6 * h + sz.c0) sz.c1) = some g
  chan2  : expand (memRead s (40 + 6 * h + sz.c0 + sz.c1) sz.c2) = some b
  lenR   : r.length = w * h
  lenG   : g.length = w * h
  lenB   : b.length = w * h
  room   : w * h ≤ s.params.cbLenMax

end Sys2Proof.Safety
end

