-- ==== Sys2Proof/Certificates/Slice0/Obligations.lean ====
section
/-! DEFINITION. The statements for the provers. Each docstring names the rules of spec/ it formalises. -/

open Sys2Proof Sys2Proof.Machine Sys2Proof.Safety

/-! ### Commands -/

/-- 40_pipeline_control.md R110: NOP is OP 0, whatever CH and the reserved bits are, and has no effect, in any state. -/
def Obligations.NopChangesNothing : Prop :=
  (∀ w : W32, (cmdOp w).toNat = 0 → decodeCmd w = .nop) ∧ ∀ s : State, exec .nop s = .next s

/-- R111: when START is accepted, and what it then writes; that the run's first step, HDR, comes next; what it leaves alone;
and that a START which is not accepted sets CMD_REJ only. Three clauses are the model's reading, not R111's words: that PHASE
and CHAN are left as they were until the HDR step (log 4), that the working registers are left alone (log 22), and that
`statusRead` becomes false (log 23). -/
def Obligations.StartZeroesResultsOrIsRejected : Prop :=
  (∀ w : W32, (cmdOp w).toNat = 1 → decodeCmd w = .start) ∧
  ∀ s : State,
    (s.status.state = .idle → s.docLen.toNat ≤ s.params.inSizeMax →
      ∃ t, exec .start s = .next t ∧
        t.status = { s.status with cmdRej := false, err := none, state := .busy } ∧
        t.errInfo = 0 ∧ t.errAddr = 0 ∧ t.width = 0 ∧ t.height = 0 ∧ t.totalSize = 0 ∧
        (∀ c, t.chSize.get c = 0 ∧ t.cbLen.get c = 0 ∧ t.cbCap.get c = 0) ∧
        t.out = [] ∧ t.outCount = 0 ∧ t.seq = .hdr ∧ t.statusRead = false ∧
        t.docLen = s.docLen ∧ t.rdIndex = s.rdIndex ∧ t.rdResult = s.rdResult ∧ t.inMem = s.inMem ∧
        t.pos = s.pos ∧ t.endPos = s.endPos ∧ t.ctrl = s.ctrl ∧ t.val = s.val ∧ t.cnt = s.cnt ∧ t.i = s.i ∧
        t.params = s.params) ∧
    (¬ (s.status.state = .idle ∧ s.docLen.toNat ≤ s.params.inSizeMax) →
      exec .start s = .next { s with status := { s.status with cmdRej := true } })

/-- R112: when CLEAR is accepted, and what it then writes; what it keeps; and that a CLEAR which is not accepted sets
CMD_REJ only. Two clauses are the model's reading, not R112's words: that the working registers are left alone (log 22), and
that `statusRead` becomes true (log 23). -/
def Obligations.ClearReleasesAndZeroesOrIsRejected : Prop :=
  (∀ w : W32, (cmdOp w).toNat = 2 → decodeCmd w = .clear) ∧
  ∀ s : State,
    (s.status.state = .idle ∨ s.status.state = .done ∨ s.status.state = .error →
      ∃ t, exec .clear s = .next t ∧ statusWord t.status = 0 ∧ rdResultWord t.rdResult = 0 ∧
        (∀ c, t.cbLen.get c = 0 ∧ t.cbCap.get c = 0 ∧ t.chSize.get c = 0) ∧
        t.out = [] ∧ t.outCount = 0 ∧ t.width = 0 ∧ t.height = 0 ∧ t.totalSize = 0 ∧
        t.errInfo = 0 ∧ t.errAddr = 0 ∧ t.statusRead = true ∧
        t.docLen = s.docLen ∧ t.rdIndex = s.rdIndex ∧ t.inMem = s.inMem ∧
        t.pos = s.pos ∧ t.endPos = s.endPos ∧ t.ctrl = s.ctrl ∧ t.val = s.val ∧ t.cnt = s.cnt ∧ t.i = s.i ∧
        t.params = s.params) ∧
    (s.status.state = .busy ∨ s.status.state = .fatal →
      exec .clear s = .next { s with status := { s.status with cmdRej := true } })

/-- R113, 44_channel_buffer.md R214, 60_exceptions.md R258: READ c below the length returns the value there, at or above it
reports OOB with VALUE 0; either way only RD_RESULT and CMD_REJ change; a READ that is not accepted, CH 3 among them, sets
CMD_REJ only. In IDLE, and at index 2^32 - 1, every READ is out of bounds. That READ leaves the working register `i` alone,
though R113's pseudocode names an i, is the model's reading (log 21). -/
def Obligations.ReadIsBoundsCheckedOrIsRejected : Prop :=
  (∀ (c : Chan) (w : W32), (cmdOp w).toNat = 3 → (cmdCh w).toNat = c.toNat → decodeCmd w = .read c) ∧
  (∀ (w : W32) (s : State), (cmdOp w).toNat = 3 → (cmdCh w).toNat = 3 →
    exec (decodeCmd w) s = .next { s with status := { s.status with cmdRej := true } }) ∧
  (∀ (c : Chan) (s : State), Safety.Inv s → s.status.state = .idle ∨ s.rdIndex = 0xFFFFFFFF →
    (s.cbLen.get c).toNat ≤ s.rdIndex.toNat) ∧
  ∀ (c : Chan) (s : State),
    (s.status.state = .idle ∨ s.status.state = .done ∨ s.status.state = .error →
      (∀ v, s.rdIndex.toNat < (s.cbLen.get c).toNat → (s.cb.get c)[s.rdIndex.toNat]? = some v →
        exec (.read c) s = .next { s with
          status := { s.status with cmdRej := false }
          rdResult := { value := v, done := true, oob := false } }) ∧
      ((s.cbLen.get c).toNat ≤ s.rdIndex.toNat →
        exec (.read c) s = .next { s with
          status := { s.status with cmdRej := false }
          rdResult := { value := 0, done := true, oob := true } })) ∧
    (s.status.state = .busy ∨ s.status.state = .fatal →
      exec (.read c) s = .next { s with status := { s.status with cmdRej := true } })

/-- R114: OP 4 to 15, and OP 3 with CH 3, are reserved commands; each sets CMD_REJ and changes nothing else, in any state. -/
def Obligations.ReservedCommandsOnlySetCmdRej : Prop :=
  (∀ w : W32, 4 ≤ (cmdOp w).toNat → decodeCmd w = .cmdReserved (cmdOp w) ∧ (Instr.cmdReserved (cmdOp w)).wf = true) ∧
  (∀ w : W32, (cmdOp w).toNat = 3 → (cmdCh w).toNat = 3 → decodeCmd w = .readReserved) ∧
  ∀ s : State,
    exec .readReserved s = .next { s with status := { s.status with cmdRej := true } } ∧
    ∀ op : BitVec 4, (Instr.cmdReserved op).wf = true →
      exec (.cmdReserved op) s = .next { s with status := { s.status with cmdRej := true } }

/-- 70_reset_and_hazards.md R285: while BUSY, NOP has no effect and every other command is rejected; a rejected command is
not queued. -/
def Obligations.BusyRejectsEveryCommandButNop : Prop :=
  ∀ (i : Instr) (s : State), s.status.state = .busy → i.isPair = false → i.wf = true →
    (i = .nop → exec i s = .next s) ∧
    (i ≠ .nop → exec i s = .next { s with status := { s.status with cmdRej := true } })

/-- 10_state.md R30: a command other than NOP leaves CMD_REJ at 0 when its rule accepts it, and otherwise sets CMD_REJ and
changes no other state; NOP leaves it unchanged. -/
def Obligations.CmdRejTellsARejectedCommand : Prop :=
  ∀ (i : Instr) (s t : State), i.isPair = false → exec i s = .next t →
    (i = .nop → t.status.cmdRej = s.status.cmdRej) ∧
    (i ≠ .nop →
      (t.status.cmdRej = false ∧
        ((i = .start ∧ s.status.state = .idle ∧ s.docLen.toNat ≤ s.params.inSizeMax) ∨
          ((i = .clear ∨ ∃ c, i = .read c) ∧ s.status.state ≠ .busy ∧ s.status.state ≠ .fatal))) ∨
      t = { s with status := { s.status with cmdRej := true } })

/-- The frame of the commands (R110 to R114): none changes IN, DOC_LEN, RD_INDEX, a working register or a parameter, and
NOP, READ and the reserved commands change no result register, no buffer and no triple either, nor what the host has read of
STATUS. That START and CLEAR leave the working registers alone (log 22), and READ the working register `i` (log 21), is the
model's reading. -/
def Obligations.CommandsKeepTheirFrame : Prop :=
  ∀ (i : Instr) (s t : State), i.isPair = false → exec i s = .next t →
    (t.inMem = s.inMem ∧ t.docLen = s.docLen ∧ t.rdIndex = s.rdIndex ∧ t.params = s.params ∧
      t.pos = s.pos ∧ t.endPos = s.endPos ∧ t.ctrl = s.ctrl ∧ t.val = s.val ∧ t.cnt = s.cnt ∧ t.i = s.i) ∧
    (i ≠ .start → (∀ a, inByte t a = inByte s a)) ∧
    (i ≠ .clear → (∀ c, i ≠ .read c) → t.rdResult = s.rdResult) ∧
    (i ≠ .start → i ≠ .clear →
      t.status.state = s.status.state ∧ t.status.phase = s.status.phase ∧ t.status.chan = s.status.chan ∧
      t.status.err = s.status.err ∧ t.errInfo = s.errInfo ∧ t.errAddr = s.errAddr ∧
      t.width = s.width ∧ t.height = s.height ∧ t.totalSize = s.totalSize ∧ t.chSize = s.chSize ∧
      t.cbLen = s.cbLen ∧ t.cbCap = s.cbCap ∧ t.cb = s.cb ∧ t.out = s.out ∧ t.outCount = s.outCount ∧
      t.statusRead = s.statusRead)

/-- 60_exceptions.md R257: FATAL is left only by a reset. -/
def Obligations.FatalIsLeftOnlyByReset : Prop :=
  ∀ s t : State, s.status.state = .fatal → step s = .next t →
    dueMove s ≠ some .reset → dueMove s ≠ some .powerOn → t.status.state = .fatal

/-- R257: in FATAL the buffer contents cannot be observed: whatever they are, every step ends the same way, and leaves the
same state but for them (a reset drops them). -/
def Obligations.FatalHidesBufferContents : Prop :=
  ∀ (s : State) (b : PerChan (List Byte)), s.status.state = .fatal →
    (∀ t, step s = .next t → ∃ b', step { s with cb := b } = .next { t with cb := b' }) ∧
    (∀ f, step s = .fault f → step { s with cb := b } = .fault f) ∧
    (∀ r, step s = .refused r → step { s with cb := b } = .refused r)

/-! ### The register window and the host's moves -/

/-- 40_pipeline_control.md R115, R116, R117: what a host word write other than to CMD does. -/
def Obligations.RegisterWritesFollowTheirRules : Prop :=
  ∀ (s : State) (rest : List HostEntry) (off : Nat) (v : W32),
    s.host = { after := 0, move := .write off 4 v } :: rest → off % 4 = 0 →
    (off = 0x10 → s.status.state ≠ .busy → step s = .next { s with host := rest, docLen := v }) ∧
    (off = 0x10 → s.status.state = .busy → step s = .next { s with host := rest }) ∧
    (off = 0x50 → step s = .next { s with host := rest, rdIndex := v }) ∧
    (off ≠ 0x00 → off ≠ 0x10 → off ≠ 0x50 → step s = .next { s with host := rest }) ∧
    hostReadValue s 0x00 = 0

/-- 10_state.md R24, R44, R45; 20_memory.md R66, R69 (b); 70_reset_and_hazards.md R284: a host word read changes nothing of
the block. STATUS, DOC_LEN, RD_INDEX, RD_RESULT, CMD and the reserved offsets read exactly in every state; the registers the
engine writes read exactly once the run is over and the host has read so in STATUS, and as a free value before. That the
value is appended to `seen` and `draw` counts the read is the model's own (logs 7, 13); `statusRead` is its record of the
host's reads of STATUS (log 23). -/
def Obligations.RegisterReadsReturnTheMap : Prop :=
  ∀ (s : State) (rest : List HostEntry) (off : Nat),
    s.host = { after := 0, move := .read off 4 } :: rest → off % 4 = 0 →
    ∃ (v : W32) (read : Bool),
      step s = .next { s with host := rest, seen := s.seen ++ [.word off v], statusRead := read, draw := s.draw + 1 } ∧
      (read = true ↔ s.statusRead = true ∨ (off = 0x04 ∧ s.status.state ≠ .busy)) ∧
      (off = 0x00 → v = 0) ∧
      (off = 0x04 → v = statusWord s.status) ∧
      (off = 0x10 → v = s.docLen) ∧
      (off = 0x50 → v = s.rdIndex) ∧
      (off = 0x54 → v = rdResultWord s.rdResult) ∧
      (off = 0x2C ∨ off = 0x3C ∨ off = 0x4C ∨ off = 0x5C ∨ 0x60 ≤ off → v = 0) ∧
      (s.status.state ≠ .busy → s.statusRead = true →
        (off = 0x08 → v = s.errInfo) ∧ (off = 0x0C → v = s.errAddr) ∧
        (off = 0x14 → v.toNat = s.width.toNat) ∧ (off = 0x18 → v.toNat = s.height.toNat) ∧
        (off = 0x1C → v = s.totalSize) ∧
        (∀ c : Chan, (off = 0x20 + 4 * c.toNat → v = s.chSize.get c) ∧
          (off = 0x30 + 4 * c.toNat → v = s.cbLen.get c) ∧ (off = 0x40 + 4 * c.toNat → v = s.cbCap.get c)) ∧
        (off = 0x58 → v = s.outCount)) ∧
      (s.status.state = .busy ∨ s.statusRead = false →
        (off ∈ [0x08, 0x0C, 0x14, 0x18, 0x1C, 0x58] ∨
          ∃ c : Chan, off = 0x20 + 4 * c.toNat ∨ off = 0x30 + 4 * c.toNat ∨ off = 0x40 + 4 * c.toNat) →
        v = Config.earlyRead s.draw off)

/-- 10_state.md R26 to R31, 60_exceptions.md R251: STATUS bit by bit, with the numbers of its fields. -/
def Obligations.StatusWordIsLaidOutAsGiven : Prop :=
  ∀ st : Status,
    ((statusWord st).extractLsb' 0 3).toNat =
      (match st.state with | .idle => 0 | .busy => 1 | .done => 2 | .error => 3 | .fatal => 4) ∧
    ((statusWord st).extractLsb' 4 3).toNat =
      (match st.phase with | .none => 0 | .hdr => 1 | .lt => 2 | .payload => 3 | .dec => 4 | .chk => 5 | .asm => 6) ∧
    ((statusWord st).extractLsb' 8 2).toNat = (match st.chan with | .c0 => 0 | .c1 => 1 | .c2 => 2) ∧
    ((statusWord st).extractLsb' 16 8).toNat =
      (match st.err with
        | none => 0x00
        | some .unexpectedEnd => 0x10
        | some .signatureMismatch => 0x20
        | some .resolutionTooLarge => 0x21
        | some .invalidControlByte => 0x30
        | some .channelLengthMismatch => 0x31
        | some .oddStreamLength => 0x32
        | some .rasterSizeMismatch => 0x33
        | some .outOfBounds => 0x40
        | some .resourceExhaustion => 0x50) ∧
    (statusWord st).getLsbD 24 = st.cmdRej ∧
    (statusWord st).getLsbD 3 = false ∧ (statusWord st).getLsbD 7 = false ∧
    (statusWord st).extractLsb' 10 6 = 0 ∧ (statusWord st).extractLsb' 25 7 = 0

/-- 10_state.md R42: RD_RESULT bit by bit. -/
def Obligations.RdResultIsLaidOutAsGiven : Prop :=
  ∀ r : RdResult,
    (rdResultWord r).extractLsb' 0 8 = r.value ∧ (rdResultWord r).getLsbD 16 = r.done ∧
    (rdResultWord r).getLsbD 17 = r.oob ∧
    (rdResultWord r).extractLsb' 8 8 = 0 ∧ (rdResultWord r).extractLsb' 18 14 = 0

/-- 20_memory.md R64: a host access that is not an aligned 32-bit word is refused as a host move. -/
def Obligations.NonWordAccessIsRefused : Prop :=
  ∀ (s : State) (rest : List HostEntry) (off bytes : Nat) (v : W32), ¬ (bytes = 4 ∧ off % 4 = 0) →
    (s.host = { after := 0, move := .write off bytes v } :: rest → step s = .refused .hostAccessNotWord) ∧
    (s.host = { after := 0, move := .read off bytes } :: rest → step s = .refused .hostAccessNotWord)

/-- 20_memory.md R69 (c): bytes loaded before START are what the run's engine reads, and every other offset reads as
it would have without the load. -/
def Obligations.LoadBeforeStartIsSeenByTheRun : Prop :=
  ∀ (s : State) (rest : List HostEntry) (a : Nat) (data : List Byte),
    s.host = { after := 0, move := .load a data } :: rest → a + data.length ≤ s.params.inSizeMax →
    s.status.state = .idle → s.docLen.toNat ≤ s.params.inSizeMax →
    ∃ t u u0, step s = .next t ∧ exec .start t = .next u ∧ exec .start s = .next u0 ∧
      (∀ k b, data[k]? = some b → inByte u (a + k) = b) ∧
      (∀ x, x < a ∨ a + data.length ≤ x → inByte u x = inByte u0 x)

/-- 20_memory.md R71: while BUSY, every engine read of a byte the host has written is a free value, and every other offset
reads as before. That reads of one engine step share a draw number is the model's choice (log 6). -/
def Obligations.BytesLoadedWhileBusyReadFreely : Prop :=
  ∀ (s : State) (rest : List HostEntry) (a : Nat) (data : List Byte),
    s.host = { after := 0, move := .load a data } :: rest → a + data.length ≤ s.params.inSizeMax →
    s.status.state = .busy →
    ∃ t, step s = .next t ∧
      (∀ n x, a ≤ x → x < a + data.length →
        inByte { t with draw := n } x = Config.racedByte n x) ∧
      (∀ n x, x < a ∨ a + data.length ≤ x → inByte { t with draw := n } x = inByte { s with draw := n } x)

/-- 40_pipeline_control.md R122: host moves fall between engine steps. A pending move that is due is made, and otherwise the
engine takes one step; a POLL waits for the end of the run. That pending moves carry their delay is the model's
(log 2). -/
def Obligations.HostMovesFallBetweenEngineSteps : Prop :=
  ∀ s : State,
    (dueMove s = none → step s = engineStep (engineTurn s)) ∧
    (∀ m, dueMove s = some m → step s = hostAct m { s with host := s.host.tail }) ∧
    (∀ rest, s.host = { after := 0, move := .poll } :: rest → (dueMove s = none ↔ s.status.state = .busy))

/-! ### Reset -/

/-- 10_state.md R50: the state after reset. -/
def Obligations.ResetLeavesTheGivenValues : Prop :=
  statusWord State.reset.status = 0 ∧ State.reset.errInfo = 0 ∧ State.reset.errAddr = 0 ∧ State.reset.docLen = 0 ∧
  State.reset.width = 0 ∧ State.reset.height = 0 ∧ State.reset.totalSize = 0 ∧
  (∀ c, State.reset.chSize.get c = 0 ∧ State.reset.cbLen.get c = 0 ∧ State.reset.cbCap.get c = 0) ∧
  State.reset.rdIndex = 0 ∧ rdResultWord State.reset.rdResult = 0 ∧ State.reset.outCount = 0 ∧
  State.reset.pos = 0 ∧ State.reset.endPos = 0 ∧ State.reset.ctrl = 0 ∧ State.reset.val = 0 ∧
  State.reset.cnt = 0 ∧ State.reset.i = 0 ∧ State.reset.out = []

/-- 70_reset_and_hazards.md R280, R281, R282: a reset in any state, BUSY and FATAL among them, sets every register and
working register to its value of R50, releases the buffers, empties OUT and leaves IN. That it makes `statusRead` true is
the model's reading (log 23). -/
def Obligations.ResetMoveRestoresAllButIn : Prop :=
  ∀ (s : State) (rest : List HostEntry), s.host = { after := 0, move := .reset } :: rest →
    ∃ t, step s = .next t ∧ statusWord t.status = 0 ∧ t.errInfo = 0 ∧ t.errAddr = 0 ∧ t.docLen = 0 ∧
      t.width = 0 ∧ t.height = 0 ∧ t.totalSize = 0 ∧
      (∀ c, t.chSize.get c = 0 ∧ t.cbLen.get c = 0 ∧ t.cbCap.get c = 0) ∧
      t.rdIndex = 0 ∧ rdResultWord t.rdResult = 0 ∧ t.outCount = 0 ∧ t.out = [] ∧
      t.pos = 0 ∧ t.endPos = 0 ∧ t.ctrl = 0 ∧ t.val = 0 ∧ t.cnt = 0 ∧ t.i = 0 ∧ t.statusRead = true ∧
      t.inMem = s.inMem ∧ t.params = s.params

/-! ### Encoding -/

/-- 30_encoding.md R81 to R91: decoding an encoded well-formed instruction gives it back, with every operand. -/
def Obligations.DecodeOfEncodeIsTheInstruction : Prop :=
  ∀ i : Instr, i.wf = true → decodeWord (encode i) = i

/-- R81, R82, R84: every 16-bit pair is the encoding of the one well-formed instruction it decodes to, and so no bit of a
pair is dropped; every command word decodes to a well-formed command. -/
def Obligations.EveryWordHasOneMeaning : Prop :=
  (∀ w : BitVec 16, encode (decodeWord (.pair w)) = .pair w ∧ (decodeWord (.pair w)).wf = true ∧
    (decodeWord (.pair w)).isPair = true) ∧
  (∀ w : W32, (decodeWord (.cmd w)).wf = true ∧ (decodeWord (.cmd w)).isPair = false)

/-- R88, R89, R91: OP and CH alone select the command; CH counts for READ only. -/
def Obligations.CommandWordReservedBitsAreIgnored : Prop :=
  ∀ (hi : BitVec 26) (ch : BitVec 2) (op : BitVec 4),
    decodeCmd ((hi ++ ch) ++ op) = decodeCmd ((0#26 ++ ch) ++ op) ∧
    (op.toNat = 0 → decodeCmd ((hi ++ ch) ++ op) = .nop) ∧
    (op.toNat = 1 → decodeCmd ((hi ++ ch) ++ op) = .start) ∧
    (op.toNat = 2 → decodeCmd ((hi ++ ch) ++ op) = .clear) ∧
    (op.toNat = 3 → ∀ c : Chan, ch.toNat = c.toNat → decodeCmd ((hi ++ ch) ++ op) = .read c) ∧
    (op.toNat = 3 → ch.toNat = 3 → decodeCmd ((hi ++ ch) ++ op) = .readReserved) ∧
    (4 ≤ op.toNat → decodeCmd ((hi ++ ch) ++ op) = .cmdReserved op)

/-- R82: the control byte alone selects the pair's kind. -/
def Obligations.ControlByteSelectsTheKind : Prop :=
  ∀ ctrl val : Byte,
    (ctrl.toNat = 0x00 → decodePair ctrl val = .lit val) ∧
    (0x01 ≤ ctrl.toNat → ctrl.toNat ≤ 0x7F → decodePair ctrl val = .illegal ctrl val) ∧
    (ctrl.toNat = 0x80 → decodePair ctrl val = .illegal80 val) ∧
    (0x81 ≤ ctrl.toNat → decodePair ctrl val = .rep ctrl val)

/-- R83: the repeat count, its range and its two bounds; a LIT pair's control byte gives 1. That `sext8` reads a byte as two's
complement is presumed (00_scope.md R7; log 9). -/
def Obligations.RepeatCountIs257MinusCtrl : Prop :=
  ∀ ctrl : Byte, 0x81 ≤ ctrl.toNat →
    repCount ctrl = 257 - ctrl.toNat ∧ (repCount ctrl : Int) = -(sext8 ctrl) + 1 ∧
    2 ≤ repCount ctrl ∧ repCount ctrl ≤ 128 ∧ repCount 0xFF = 2 ∧ repCount 0x81 = 128 ∧ repCount 0x00 = 1

/-- Words written out from R81, R82 and R89 decode to what they stand for. -/
def Obligations.WrittenOutWordsDecode : Prop :=
  decodeTableWord 16 0x0010 = some (.lit 0x10) ∧ decodeTableWord 16 0xFD07 = some (.rep 0xFD 0x07) ∧
  decodeTableWord 16 0x7F00 = some (.illegal 0x7F 0x00) ∧ decodeTableWord 16 0x8000 = some (.illegal80 0x00) ∧
  decodeTableWord 32 0x00000001 = some .start ∧ decodeTableWord 32 0x00000023 = some (.read .c2) ∧
  decodeTableWord 32 0xFFFFFFC1 = some .start ∧ decodeTableWord 32 0x0000000F = some (.cmdReserved 0xF)

/-! ### Pairs -/

/-- 43_rle_decoder.md R183, 44_channel_buffer.md R212: LIT, control byte 0x00, appends its value once, the buffer doubling when it is full, and
`pos` advances by 2; a full CB_LEN_MAX raises ResourceExhaustion and nothing is appended. -/
def Obligations.LitAppendsItsValueOnce : Prop :=
  (∀ v : Byte, decodePair 0x00 v = .lit v) ∧
  ∀ (v : Byte) (s : State) (c : Chan), c = s.status.chan →
    ((s.cbLen.get c).toNat ≠ s.params.cbLenMax →
      exec (.lit v) s = .next { s with
        cb := s.cb.set c (s.cb.get c ++ [v])
        cbLen := s.cbLen.set c (s.cbLen.get c + 1)
        cbCap := s.cbCap.set c (if s.cbLen.get c = s.cbCap.get c then 2 * s.cbCap.get c else s.cbCap.get c)
        pos := s.pos + 2 }) ∧
    ((s.cbLen.get c).toNat = s.params.cbLenMax →
      ∃ t, exec (.lit v) s = .next t ∧
        t.status = { s.status with err := some .resourceExhaustion, state := .fatal } ∧
        t.errInfo.toNat = 256 * c.toNat ∧ t.errAddr = s.pos ∧
        t.cb = s.cb ∧ t.cbLen = s.cbLen ∧ t.cbCap = s.cbCap ∧ t.pos = s.pos)

/-- R184, R83, 44_channel_buffer.md R213: REP appends its value 257 - ctrl times, `cnt` ends at 0 and `pos` advances by 2;
the capacity stays the least that holds the values. -/
def Obligations.RepAppendsItsRun : Prop :=
  ∀ (ctrl v : Byte) (s : State) (c : Chan) (n : Nat), (Instr.rep ctrl v).wf = true → c = s.status.chan →
    n = 257 - ctrl.toNat → s.params.Legal → (s.cbLen.get c).toNat + n ≤ s.params.cbLenMax →
    ∃ cap : W32,
      exec (.rep ctrl v) s = .next { s with
        cb := s.cb.set c (s.cb.get c ++ List.replicate n v)
        cbLen := s.cbLen.set c (s.cbLen.get c + BitVec.ofNat 32 n)
        cbCap := s.cbCap.set c cap
        cnt := 0
        pos := s.pos + 2 } ∧
      (IsCapacityFor (s.cbLen.get c).toNat (s.cbCap.get c).toNat →
        IsCapacityFor ((s.cbLen.get c).toNat + n) cap.toNat)

/-- R184, 60_exceptions.md R253: a REP whose run does not fit keeps the appends that fit and ends in FATAL with `pos` still
at the pair. -/
def Obligations.RepThatDoesNotFitIsExhausted : Prop :=
  ∀ (ctrl v : Byte) (s : State) (c : Chan) (n : Nat), (Instr.rep ctrl v).wf = true → c = s.status.chan →
    n = 257 - ctrl.toNat → s.params.Legal → (s.cbLen.get c).toNat ≤ s.params.cbLenMax →
    s.params.cbLenMax < (s.cbLen.get c).toNat + n →
    ∃ t, exec (.rep ctrl v) s = .next t ∧
      t.status = { s.status with err := some .resourceExhaustion, state := .fatal } ∧
      t.errInfo.toNat = 256 * c.toNat ∧ t.errAddr = s.pos ∧ t.pos = s.pos ∧
      t.cb = s.cb.set c (s.cb.get c ++ List.replicate (s.params.cbLenMax - (s.cbLen.get c).toNat) v) ∧
      (t.cbLen.get c).toNat = s.params.cbLenMax ∧ (∀ d, d ≠ c → t.cbLen.get d = s.cbLen.get d) ∧
      (∀ d, d ≠ c → t.cbCap.get d = s.cbCap.get d)

/-- R185, R186: an illegal pair raises InvalidControlByte (code 0x30) with the channel and the control byte in ERR_INFO and
`pos` in ERR_ADDR; nothing is appended and `pos` stays. -/
def Obligations.IllegalPairsRaiseInvalidControlByte : Prop :=
  ∀ (i : Instr) (ctrl v : Byte) (s : State), i.wf = true →
    (i = .illegal ctrl v ∨ (i = .illegal80 v ∧ ctrl = 0x80)) →
    ∃ t, exec i s = .next t ∧
      t.status = { s.status with err := some .invalidControlByte, state := .error } ∧
      errCodeField t.status.err = 0x30 ∧
      t.errInfo.toNat = 256 * s.status.chan.toNat + ctrl.toNat ∧ t.errAddr = s.pos ∧ t.pos = s.pos ∧
      t.cb = s.cb ∧ t.cbLen = s.cbLen ∧ t.cbCap = s.cbCap ∧ t.cnt = s.cnt

/-- The frame of the pairs (10_state.md R49; 43_rle_decoder.md R183 to R186, R189; 44_channel_buffer.md R215): a pair changes
only its own channel's buffer, `pos`, `cnt` (REP only) and, when it raises, STATE, ERR_CODE and the error record; every
buffer index already written, and every byte of IN, reads as before. -/
def Obligations.PairsKeepTheirFrame : Prop :=
  ∀ (i : Instr) (s t : State), i.isPair = true → exec i s = .next t →
    (∀ c, (s.cb.get c).length = (s.cbLen.get c).toNat → (s.cbLen.get c).toNat ≤ s.params.cbLenMax →
      s.params.Legal → ∀ k : W32, k.toNat < (s.cbLen.get c).toNat → cbRead t c k = cbRead s c k) ∧
    (∀ c, c ≠ s.status.chan →
      t.cb.get c = s.cb.get c ∧ t.cbLen.get c = s.cbLen.get c ∧ t.cbCap.get c = s.cbCap.get c) ∧
    (∀ a, inByte t a = inByte s a) ∧ t.inMem = s.inMem ∧ t.out = s.out ∧ t.outCount = s.outCount ∧
    t.docLen = s.docLen ∧ t.width = s.width ∧ t.height = s.height ∧ t.totalSize = s.totalSize ∧
    t.chSize = s.chSize ∧ t.rdIndex = s.rdIndex ∧ t.rdResult = s.rdResult ∧ t.endPos = s.endPos ∧
    t.ctrl = s.ctrl ∧ t.val = s.val ∧ t.i = s.i ∧ t.params = s.params ∧ t.statusRead = s.statusRead ∧
    ((∀ x y, i ≠ .rep x y) → t.cnt = s.cnt) ∧
    t.status.phase = s.status.phase ∧ t.status.chan = s.status.chan ∧ t.status.cmdRej = s.status.cmdRej ∧
    (t.status = s.status ∧ t.errInfo = s.errInfo ∧ t.errAddr = s.errAddr ∧ t.pos = s.pos + 2 ∨
      t.status.state = .error ∧ t.status.err = some .invalidControlByte ∧ t.pos = s.pos ∨
      t.status.state = .fatal ∧ t.status.err = some .resourceExhaustion ∧ t.pos = s.pos)

/-- 30_encoding.md R95: executing the expansion of `RUN n, v` appends exactly n copies of v, in ceil(n / 128) pairs. -/
def Obligations.RunExpansionAppendsNCopies : Prop :=
  ∀ (n : Nat) (v : Byte) (s : State) (c : Chan), 1 ≤ n → c = s.status.chan → s.status.state = .busy →
    s.params.Legal → (s.cbLen.get c).toNat + n ≤ s.params.cbLenMax →
    (asmRun n v).length = (n + 127) / 128 ∧ (∀ i ∈ asmRun n v, i.wf = true) ∧
    ∃ t, execPairs (asmRun n v) s = some t ∧
      t.cb = s.cb.set c (s.cb.get c ++ List.replicate n v) ∧
      (t.cbLen.get c).toNat = (s.cbLen.get c).toNat + n ∧
      t.pos = s.pos + BitVec.ofNat 32 (2 * ((n + 127) / 128))

/-! ### The channel buffer -/

/-- 44_channel_buffer.md R211, R213, R217: n values appended to a new buffer are read back in order, every index from n on is
out of bounds, and the capacity is the least 256·2^k that holds n. -/
def Obligations.AppendedValuesAreReadBack : Prop :=
  ∀ (c : Chan) (vs : List Byte) (s : State), s.params.Legal → vs.length ≤ s.params.cbLenMax →
    ∃ t, appendAll c vs (cbNew c s) = .ok t ∧ (t.cbLen.get c).toNat = vs.length ∧
      IsCapacityFor vs.length (t.cbCap.get c).toNat ∧
      (∀ (k : W32) (v : Byte), vs[k.toNat]? = some v → cbRead t c k = (true, v)) ∧
      (∀ k : W32, vs.length ≤ k.toNat → cbRead t c k = (false, 0))

/-! ### Taking an error -/

/-- 60_exceptions.md R252: raising an error writes ERR_CODE, ERR_INFO, ERR_ADDR and STATE, keeps PHASE and CHAN and
everything else, and ends the run: the engine takes no further step. -/
def Obligations.RaisingAnErrorWritesItsRecord : Prop :=
  ∀ (e : ErrorName) (info addr : W32) (s : State),
    s.raise e info addr = { s with
      status := { s.status with
        err := some e
        state := if e = .resourceExhaustion then .fatal else .error }
      errInfo := info
      errAddr := addr
      seq := .idle } ∧
    engineStep (s.raise e info addr) = .next (s.raise e info addr)

/-! ### The engine's steps -/

/-- 43_rle_decoder.md R182: when the engine moves and a pair stands at `pos`, the step is the meaning of the pair the two
bytes there decode to, in the state that has latched them. The draw number is the model's own (log 6). -/
def Obligations.StepRunsThePairAtPos : Prop :=
  ∀ s u : State, dueMove s = none → u = (engineTurn s).drawNext → s.status.state = .busy → s.seq = .pairs →
    s.pos.toNat < s.endPos.toNat → s.pos.toNat + 2 ≤ s.docLen.toNat → s.docLen.toNat ≤ s.params.inSizeMax →
    step s = exec (decodePair (inByte u s.pos.toNat) (inByte u (s.pos.toNat + 1)))
      { u with ctrl := inByte u s.pos.toNat, val := inByte u (s.pos.toNat + 1) }

/-- 10_state.md R25: a host write of CMD executes the command its word decodes to. -/
def Obligations.StepRunsTheCommandWritten : Prop :=
  ∀ (s : State) (rest : List HostEntry) (w : W32), s.host = { after := 0, move := .write 0x00 4 w } :: rest →
    step s = exec (decodeCmd w) { s with host := rest }

/-- 60_exceptions.md R265: the engine takes no step unless STATE is BUSY. -/
def Obligations.EngineIsIdleUnlessBusy : Prop :=
  ∀ s : State, s.status.state ≠ .busy → engineStep s = .next s

/-- 41_header.md R140 to R144: the HDR phase, its checks in order, and what each writes. Where the host has written a
signature byte during the run, that ERR_INFO holds the very bytes that were compared is the model's choice: reads of one
engine step share a draw number (log 6). -/
def Obligations.HeaderPhaseChecksInOrder : Prop :=
  ∀ s u : State, s.status.state = .busy → s.seq = .hdr → s.docLen.toNat ≤ s.params.inSizeMax → u = s.drawNext →
    ∃ t, engineStep s = .next t ∧ t.status.phase = .hdr ∧ t.status.chan = s.status.chan ∧
      (s.docLen.toNat < 40 →
        t.status.state = .error ∧ t.status.err = some .unexpectedEnd ∧ t.errInfo = 40 ∧ t.errAddr = 0 ∧
        t.width = s.width ∧ t.height = s.height) ∧
      (∀ k, 40 ≤ s.docLen.toNat → k < 4 →
        (∀ j, j < k → some (inByte u j) = [0x6A#8, 0x87, 0x01, 0x00][j]?) →
        some (inByte u k) ≠ [0x6A#8, 0x87, 0x01, 0x00][k]? →
        t.status.state = .error ∧ t.status.err = some .signatureMismatch ∧
        t.errInfo = inByte u 0 ++ inByte u 1 ++ inByte u 2 ++ inByte u 3 ∧ t.errAddr.toNat = k ∧
        t.width = s.width ∧ t.height = s.height) ∧
      (40 ≤ s.docLen.toNat → inByte u 0 = 0x6A → inByte u 1 = 0x87 → inByte u 2 = 0x01 → inByte u 3 = 0x00 →
        t.width.toNat = (inByte u 8).toNat * 256 + (inByte u 9).toNat ∧
        t.height.toNat = (inByte u 12).toNat * 256 + (inByte u 13).toNat ∧
        (10000 < t.width.toNat →
          t.status.state = .error ∧ t.status.err = some .resolutionTooLarge ∧ t.errInfo.toNat = t.width.toNat ∧
          t.errAddr = 8) ∧
        (t.width.toNat ≤ 10000 → 10000 < t.height.toNat →
          t.status.state = .error ∧ t.status.err = some .resolutionTooLarge ∧
          t.errInfo.toNat = 2 ^ 16 + t.height.toNat ∧ t.errAddr = 12) ∧
        (t.width.toNat ≤ 10000 → t.height.toNat ≤ 10000 →
          t.status.state = .busy ∧ t.status.err = s.status.err ∧ t.seq = .lt))

/-- 41_header.md R147: the HDR phase creates no buffer and writes no IN byte; a run that ends in it leaves every capacity
as START did. -/
def Obligations.HeaderPhaseCreatesNoBuffer : Prop :=
  ∀ s t : State, s.status.state = .busy → s.seq = .hdr → engineStep s = .next t →
    t.cbCap = s.cbCap ∧ t.cbLen = s.cbLen ∧ t.cb = s.cb ∧ t.inMem = s.inMem ∧ t.out = s.out ∧
    ((∀ c, s.cbCap.get c = 0) → ∀ c, t.cbCap.get c = 0)

/-- 41_header.md R145: the header bytes at 4..7, 10..11 and 14..39 affect no state: with any other bytes there the HDR phase
leaves the same state, but for IN itself. -/
def Obligations.HeaderGapBytesAffectNothing : Prop :=
  ∀ (s : State) (m : Memory), s.status.state = .busy → s.seq = .hdr →
    (∀ a ∈ [0, 1, 2, 3, 8, 9, 12, 13], inByte { s.drawNext with inMem := m } a = inByte s.drawNext a) →
    ∀ t, engineStep s = .next t → engineStep { s with inMem := m } = .next { t with inMem := m }

/-- 42_length_table.md R160 to R164: the LT phase. -/
def Obligations.LengthTablePhaseSumsEntries : Prop :=
  ∀ (s u : State) (h : Nat), s.status.state = .busy → s.seq = .lt → s.docLen.toNat ≤ s.params.inSizeMax →
    u = s.drawNext → h = s.height.toNat → h ≤ 10000 →
    ∃ t, engineStep s = .next t ∧ t.status.phase = .lt ∧
      (s.docLen.toNat < 40 + 6 * h →
        t.status.state = .error ∧ t.status.err = some .unexpectedEnd ∧ t.errInfo.toNat = 40 + 6 * h ∧
        t.errAddr = 40 ∧ t.chSize = s.chSize ∧ t.totalSize = s.totalSize) ∧
      (40 + 6 * h ≤ s.docLen.toNat →
        (∀ c : Chan, (t.chSize.get c).toNat =
          ((List.range h).map fun r => (inByte u (40 + 2 * h * c.toNat + 2 * r)).toNat * 256
            + (inByte u (40 + 2 * h * c.toNat + 2 * r + 1)).toNat).sum) ∧
        t.totalSize.toNat = t.chSize.c0.toNat + t.chSize.c1.toNat + t.chSize.c2.toNat ∧
        t.status.state = .busy ∧ t.status.err = s.status.err ∧ t.seq = .payload)

/-- 42_length_table.md R166, R167: the PAYLOAD phase. -/
def Obligations.PayloadPhaseChecksPresence : Prop :=
  ∀ (s : State) (p0 : Nat), s.status.state = .busy → s.seq = .payload → s.docLen.toNat ≤ s.params.inSizeMax →
    TableOk s → p0 = 40 + 6 * s.height.toNat →
    ∃ t, engineStep s = .next t ∧ t.status.phase = .payload ∧ t.cbCap = s.cbCap ∧ t.cb = s.cb ∧
      (s.docLen.toNat < p0 + s.totalSize.toNat →
        t.status.state = .error ∧ t.status.err = some .unexpectedEnd ∧
        t.errInfo.toNat = p0 + s.totalSize.toNat ∧ t.errAddr.toNat = p0) ∧
      (p0 + s.totalSize.toNat ≤ s.docLen.toNat →
        t.status.state = .busy ∧ t.status.err = s.status.err ∧ t.seq = .chanStart .c0)

/-- 43_rle_decoder.md R180, R181; 44_channel_buffer.md R211; 42_length_table.md R166: the start of a channel's decode. -/
def Obligations.ChannelStartChecksSizeAndCreatesBuffer : Prop :=
  ∀ (s : State) (c : Chan) (base size : Nat), s.status.state = .busy → s.seq = .chanStart c →
    s.docLen.toNat ≤ s.params.inSizeMax → s.params.Legal → PayloadOk s → size = (s.chSize.get c).toNat →
    base = 40 + 6 * s.height.toNat + (if 1 ≤ c.toNat then s.chSize.c0.toNat else 0)
      + (if 2 ≤ c.toNat then s.chSize.c1.toNat else 0) →
    ∃ t, engineStep s = .next t ∧ t.status.phase = .dec ∧ t.status.chan = c ∧
      (∀ d, d ≠ c → t.cb.get d = s.cb.get d ∧ t.cbLen.get d = s.cbLen.get d ∧ t.cbCap.get d = s.cbCap.get d) ∧
      (size % 2 = 1 →
        t.status.state = .error ∧ t.status.err = some .oddStreamLength ∧ t.errInfo.toNat = 256 * c.toNat ∧
        t.errAddr.toNat = base + size - 1 ∧ t.cbCap.get c = s.cbCap.get c ∧ t.cb.get c = s.cb.get c) ∧
      (size % 2 = 0 →
        t.status.state = .busy ∧ t.status.err = s.status.err ∧ t.cbLen.get c = 0 ∧ t.cbCap.get c = 256 ∧
        t.pos.toNat = base ∧ t.endPos.toNat = base + size ∧ t.seq = .pairs)

/-- 43_rle_decoder.md R180, R189; 40_pipeline_control.md R118: when `pos` has reached `end` the channel ends, and the channels
follow one another 0, 1, 2, then CHK. -/
def Obligations.ChannelsFollowOneAnother : Prop :=
  ∀ s : State, s.status.state = .busy → s.seq = .pairs → s.docLen.toNat ≤ s.params.inSizeMax →
    s.pos = s.endPos →
    (s.status.chan = .c0 → engineStep s = .next { s.drawNext with seq := .chanStart .c1 }) ∧
    (s.status.chan = .c1 → engineStep s = .next { s.drawNext with seq := .chanStart .c2 }) ∧
    (s.status.chan = .c2 → engineStep s = .next { s.drawNext with seq := .chk })

/-- 43_rle_decoder.md R190: the CHK phase. -/
def Obligations.CrossChannelCheckComparesLengths : Prop :=
  ∀ s : State, s.status.state = .busy → s.seq = .chk → s.docLen.toNat ≤ s.params.inSizeMax →
    ∃ t, engineStep s = .next t ∧ t.status.phase = .chk ∧ t.status.chan = .c0 ∧
      t.cbLen = s.cbLen ∧ t.cb = s.cb ∧ t.out = s.out ∧
      ((∀ c d, s.cbLen.get c = s.cbLen.get d) →
        t.status.state = .busy ∧ t.status.err = s.status.err ∧ t.seq = .asmCheck) ∧
      (¬ (∀ c d, s.cbLen.get c = s.cbLen.get d) →
        t.status.state = .error ∧ t.status.err = some .channelLengthMismatch ∧ t.errInfo = 0 ∧ t.errAddr = 0)

/-- 45_raster_interleaver.md R230: the ASM size check. -/
def Obligations.RasterSizeCheckComparesArea : Prop :=
  ∀ s : State, s.status.state = .busy → s.seq = .asmCheck → s.docLen.toNat ≤ s.params.inSizeMax →
    ∃ t, engineStep s = .next t ∧ t.status.phase = .asm ∧ t.out = s.out ∧
      (s.cbLen.c0.toNat ≠ s.width.toNat * s.height.toNat →
        t.status.state = .error ∧ t.status.err = some .rasterSizeMismatch ∧ t.errInfo = 0 ∧ t.errAddr = 0) ∧
      (s.cbLen.c0.toNat = s.width.toNat * s.height.toNat →
        t.status.state = .busy ∧ t.status.err = s.status.err ∧ t.i = 0 ∧ t.seq = .emit)

/-- 45_raster_interleaver.md R231, R232; 40_pipeline_control.md R120: one emission, and completion. -/
def Obligations.EmissionAppendsTriplesThenCompletes : Prop :=
  ∀ (s : State) (r g b : Byte), s.status.state = .busy → s.seq = .emit → s.docLen.toNat ≤ s.params.inSizeMax →
    (s.i.toNat < s.width.toNat * s.height.toNat → cbRead s .c0 s.i = (true, r) → cbRead s .c1 s.i = (true, g) →
      cbRead s .c2 s.i = (true, b) →
      ∃ t, engineStep s = .next { s.drawNext with out := s.out ++ [t], outCount := s.i + 1, i := s.i + 1 } ∧
        t.extractLsb' 16 8 = r ∧ t.extractLsb' 8 8 = g ∧ t.extractLsb' 0 8 = b) ∧
    (s.width.toNat * s.height.toNat ≤ s.i.toNat →
      engineStep s = .next { s.drawNext with status := { s.status with state := .done }, seq := .idle })

/-! ### The whole machine -/

/-- The invariant holds at reset (10_state.md R50). -/
def Obligations.ResetMeetsTheInvariant : Prop := Safety.Inv State.reset

/-- Every step of host and engine keeps the invariant: 44_channel_buffer.md R210, R213; 10_state.md R23, R26 to R29, R32, R33,
R42, R43; 40_pipeline_control.md R118, R120; 42_length_table.md R165; 45_raster_interleaver.md R234, R235;
60_exceptions.md R250, R251. -/
def Obligations.EveryStepKeepsTheInvariant : Prop :=
  ∀ s t : State, Safety.Inv s → step s = .next t → Safety.Inv t

/-- 43_rle_decoder.md R182, 10_state.md R23, R46: from a state that meets the invariant no engine step faults or refuses. -/
def Obligations.EngineStepsNeverStop : Prop :=
  ∀ s : State, Safety.Inv s → ∃ t, engineStep s = .next t

/-- 40_pipeline_control.md R123: every engine step of a run brings its bound nearer. The bound counts one step for a pair
with all its appends, which is the model's (log 3). -/
def Obligations.EveryEngineStepComesNearerTheEnd : Prop :=
  ∀ s t : State, Safety.Inv s → s.status.state = .busy → engineStep s = .next t → stepsLeft t < stepsLeft s

/-- 40_pipeline_control.md R121, R123; 70_reset_and_hazards.md R290: every run with no host move pending ends, in DONE,
ERROR or FATAL, after at most the steps of the largest document: 6 phase steps, 3 channels of 327,675,000 pairs with a start
and an end each, and 10^8 triples. That a pair with all its appends counts as one step is the model's (log 3; R122 counts
each append). -/
def Obligations.EveryRunEndsWithinTheBound : Prop :=
  ∀ s : State, Safety.Inv s → s.status.state = .busy → s.host = [] →
    ∃ k t, k ≤ 1083025012 ∧ Host.Core.run core k s = .next t ∧
      (t.status.state = .done ∨ t.status.state = .error ∨ t.status.state = .fatal)

/-- 43_rle_decoder.md R188, R189: the decode of one channel is the pure function `expand` of its sub-stream's bytes: with no
host move pending, a channel whose sub-stream expands to values that fit is decoded, in one start step, one step per pair
and one end step, to a buffer of exactly those values, with every byte of the sub-stream consumed; nothing of another
channel changes. The count of steps is the model's: a pair's fetch and appends are merged (log 3). -/
def Obligations.ChannelDecodeIsExpansion : Prop :=
  ∀ (s : State) (c : Chan) (vs : List Byte), Safety.Inv s → s.status.state = .busy → s.seq = .chanStart c →
    s.host = [] → s.raced = [] → expand (subStream s c) = some vs → vs.length ≤ s.params.cbLenMax →
    ∃ t, Host.Core.run core (2 + (s.chSize.get c).toNat / 2) s = .next t ∧
      t.cb.get c = vs ∧ (t.cbLen.get c).toNat = vs.length ∧
      (∀ d, d ≠ c → t.cb.get d = s.cb.get d ∧ t.cbLen.get d = s.cbLen.get d ∧ t.cbCap.get d = s.cbCap.get d) ∧
      t.pos = t.endPos ∧ t.endPos.toNat = chanBase s c + (s.chSize.get c).toNat ∧
      t.status.state = .busy ∧ t.seq = afterChan c

/-- 43_rle_decoder.md R182, R187; 60_exceptions.md R253: a channel whose first `n` pairs are legal and fit, and whose next one
is illegal, ends the run in ERROR with the values of those pairs kept and the pair's offset and control byte reported. The
count of `2 + n` steps is the model's: a pair's fetch and appends are merged (log 3). -/
def Obligations.FirstIllegalPairEndsTheRun : Prop :=
  ∀ (s : State) (c : Chan) (n : Nat) (ctrl : Byte) (vs : List Byte), Safety.Inv s → s.status.state = .busy →
    s.seq = .chanStart c → s.host = [] → s.raced = [] → (s.chSize.get c).toNat % 2 = 0 →
    2 * n + 2 ≤ (s.chSize.get c).toNat → expand ((subStream s c).take (2 * n)) = some vs →
    vs.length ≤ s.params.cbLenMax → (subStream s c)[2 * n]? = some ctrl → 1 ≤ ctrl.toNat → ctrl.toNat ≤ 0x80 →
    ∃ t, Host.Core.run core (2 + n) s = .next t ∧ t.status.state = .error ∧
      t.status.err = some .invalidControlByte ∧ t.status.chan = c ∧
      t.errInfo.toNat = 256 * c.toNat + ctrl.toNat ∧ t.errAddr.toNat = chanBase s c + 2 * n ∧
      t.cb.get c = vs ∧ (t.cbLen.get c).toNat = vs.length ∧ t.out = []

/-- 45_raster_interleaver.md R231 to R234; 40_pipeline_control.md R118, R120: a run over a well-formed document ends in DONE
with OUT the interleaved channels, W·H triples, and every result register at its value. -/
def Obligations.WellFormedDocumentIsRendered : Prop :=
  ∀ (s u : State) (w h : Nat) (sz : PerChan Nat) (r g b : List Byte), Safety.Inv s → s.status.state = .idle →
    s.host = [] → exec .start s = .next u → GoodDocument u w h sz r g b →
    ∃ k t, Host.Core.run core k u = .next t ∧ t.status.state = .done ∧ t.status.err = none ∧
      t.status.phase = .asm ∧ t.out = interleave r g b ∧ t.outCount.toNat = w * h ∧
      t.width.toNat = w ∧ t.height.toNat = h ∧
      (∀ c, (t.chSize.get c).toNat = sz.get c) ∧
      t.cb = ⟨r, g, b⟩ ∧ t.inMem = s.inMem

/-- 45_raster_interleaver.md R235: a run that ends in ERROR or FATAL leaves OUT empty. -/
def Obligations.NoPartialOutput : Prop :=
  ∀ s t : State, Safety.Inv s → step s = .next t → t.status.state = .error ∨ t.status.state = .fatal →
    t.out = [] ∧ t.outCount = 0

/-- 20_memory.md R75: an appended triple is never changed, removed or reordered until CLEAR or reset empties OUT. R69 (b), (d):
the host reads the triples in append order, and a read returns the next one there is once the host has read in STATUS that
the run is over; before that it may return none yet (log 23). `seen`, `outRead` and `draw` are the model's own (log 13). -/
def Obligations.OutIsAppendOnlyUntilClearOrReset : Prop :=
  (∀ s t : State, Safety.Inv s → step s = .next t →
    dueMove s ≠ some .reset → dueMove s ≠ some .powerOn →
    (∀ off bytes w, dueMove s = some (.write off bytes w) → decodeCmd w ≠ .clear) →
    ∃ ts, t.out = s.out ++ ts ∧ ts.length ≤ 1) ∧
  ∀ (s : State) (rest : List HostEntry), s.host = { after := 0, move := .readOut } :: rest →
    (∀ p, s.out[s.outRead]? = some p → s.status.state ≠ .busy → s.statusRead = true →
      step s = .next { s with
        host := rest, seen := s.seen ++ [.triple p], outRead := s.outRead + 1, draw := s.draw + 1 }) ∧
    (step s = .next { s with host := rest, seen := s.seen ++ [.noTriple], draw := s.draw + 1 } ∨
      ∃ p, s.out[s.outRead]? = some p ∧ step s = .next { s with
        host := rest, seen := s.seen ++ [.triple p], outRead := s.outRead + 1, draw := s.draw + 1 })

/-- 20_memory.md R63, R72; 70_reset_and_hazards.md R282: only the host's LOAD, and power-on, change IN. -/
def Obligations.OnlyTheHostChangesIn : Prop :=
  ∀ s t : State, step s = .next t → (∀ a data, dueMove s ≠ some (.load a data)) → dueMove s ≠ some .powerOn →
    t.inMem = s.inMem

/-- 40_pipeline_control.md R119: PHASE never decreases within a run. -/
def Obligations.PhaseNeverDecreasesWithinARun : Prop :=
  ∀ s t : State, Safety.Inv s → s.status.state = .busy → step s = .next t →
    dueMove s ≠ some .reset → dueMove s ≠ some .powerOn →
    (phaseCode s.status.phase).toNat ≤ (phaseCode t.status.phase).toNat

/-- 40_pipeline_control.md R121, 60_exceptions.md R256: a run that is in progress is left only by the engine's own end of it
or a reset, and an error record stands until CLEAR or a reset. -/
def Obligations.NoCommandEndsARunOrRewritesAnError : Prop :=
  ∀ (s t : State) (m : HostMove), dueMove s = some m → m ≠ .reset → m ≠ .powerOn → step s = .next t →
    (s.status.state = .busy → t.status.state = .busy ∧ t.seq = s.seq) ∧
    (s.status.state = .error → (∀ off bytes w, m = .write off bytes w → decodeCmd w ≠ .clear) →
      t.status.state = .error ∧ t.status.err = s.status.err ∧ t.errInfo = s.errInfo ∧ t.errAddr = s.errAddr)
end

