-- ==== Sys2Proof/Laws/State.lean ====
section
/-! SUPPORT. One lemma per field per named update of State, true by rfl, so that no later proof unfolds an update; and the
lemmas of PerChan. -/

namespace Sys2Proof.Machine

@[simp] theorem PerChan.get_set_self {α : Type} (p : PerChan α) (c : Chan) (x : α) : (p.set c x).get c = x := by
  cases c <;> rfl

theorem PerChan.get_set_ne {α : Type} (p : PerChan α) (c d : Chan) (x : α) (h : d ≠ c) :
    (p.set c x).get d = p.get d := by
  cases c <;> cases d <;> first | rfl | exact absurd rfl h

@[simp] theorem PerChan.get_mk {α : Type} (x : α) (c : Chan) : PerChan.get ⟨x, x, x⟩ c = x := by cases c <;> rfl

@[simp] theorem PerChan.get_c0 {α : Type} (p : PerChan α) : p.get .c0 = p.c0 := rfl
@[simp] theorem PerChan.get_c1 {α : Type} (p : PerChan α) : p.get .c1 = p.c1 := rfl
@[simp] theorem PerChan.get_c2 {α : Type} (p : PerChan α) : p.get .c2 = p.c2 := rfl

@[simp] theorem PerChan.set_set {α : Type} (p : PerChan α) (c : Chan) (x y : α) : (p.set c x).set c y = p.set c y := by
  cases c <;> rfl

/-! ### enter -/

@[simp] theorem enter_params (s : State) (p : Phase) : (s.enter p).params = s.params := rfl
@[simp] theorem enter_status (s : State) (p : Phase) : (s.enter p).status = { s.status with phase := p } := rfl
@[simp] theorem enter_errInfo (s : State) (p : Phase) : (s.enter p).errInfo = s.errInfo := rfl
@[simp] theorem enter_errAddr (s : State) (p : Phase) : (s.enter p).errAddr = s.errAddr := rfl
@[simp] theorem enter_docLen (s : State) (p : Phase) : (s.enter p).docLen = s.docLen := rfl
@[simp] theorem enter_width (s : State) (p : Phase) : (s.enter p).width = s.width := rfl
@[simp] theorem enter_height (s : State) (p : Phase) : (s.enter p).height = s.height := rfl
@[simp] theorem enter_totalSize (s : State) (p : Phase) : (s.enter p).totalSize = s.totalSize := rfl
@[simp] theorem enter_chSize (s : State) (p : Phase) : (s.enter p).chSize = s.chSize := rfl
@[simp] theorem enter_cbLen (s : State) (p : Phase) : (s.enter p).cbLen = s.cbLen := rfl
@[simp] theorem enter_cbCap (s : State) (p : Phase) : (s.enter p).cbCap = s.cbCap := rfl
@[simp] theorem enter_rdIndex (s : State) (p : Phase) : (s.enter p).rdIndex = s.rdIndex := rfl
@[simp] theorem enter_rdResult (s : State) (p : Phase) : (s.enter p).rdResult = s.rdResult := rfl
@[simp] theorem enter_outCount (s : State) (p : Phase) : (s.enter p).outCount = s.outCount := rfl
@[simp] theorem enter_pos (s : State) (p : Phase) : (s.enter p).pos = s.pos := rfl
@[simp] theorem enter_endPos (s : State) (p : Phase) : (s.enter p).endPos = s.endPos := rfl
@[simp] theorem enter_ctrl (s : State) (p : Phase) : (s.enter p).ctrl = s.ctrl := rfl
@[simp] theorem enter_val (s : State) (p : Phase) : (s.enter p).val = s.val := rfl
@[simp] theorem enter_cnt (s : State) (p : Phase) : (s.enter p).cnt = s.cnt := rfl
@[simp] theorem enter_i (s : State) (p : Phase) : (s.enter p).i = s.i := rfl
@[simp] theorem enter_inMem (s : State) (p : Phase) : (s.enter p).inMem = s.inMem := rfl
@[simp] theorem enter_cb (s : State) (p : Phase) : (s.enter p).cb = s.cb := rfl
@[simp] theorem enter_out (s : State) (p : Phase) : (s.enter p).out = s.out := rfl
@[simp] theorem enter_seq (s : State) (p : Phase) : (s.enter p).seq = s.seq := rfl
@[simp] theorem enter_raced (s : State) (p : Phase) : (s.enter p).raced = s.raced := rfl
@[simp] theorem enter_statusRead (s : State) (p : Phase) : (s.enter p).statusRead = s.statusRead := rfl
@[simp] theorem enter_host (s : State) (p : Phase) : (s.enter p).host = s.host := rfl
@[simp] theorem enter_seen (s : State) (p : Phase) : (s.enter p).seen = s.seen := rfl
@[simp] theorem enter_outRead (s : State) (p : Phase) : (s.enter p).outRead = s.outRead := rfl
@[simp] theorem enter_draw (s : State) (p : Phase) : (s.enter p).draw = s.draw := rfl
@[simp] theorem enter_powerEpoch (s : State) (p : Phase) : (s.enter p).powerEpoch = s.powerEpoch := rfl

/-! ### setChan -/

@[simp] theorem setChan_params (s : State) (c : Chan) : (s.setChan c).params = s.params := rfl
@[simp] theorem setChan_status (s : State) (c : Chan) : (s.setChan c).status = { s.status with chan := c } := rfl
@[simp] theorem setChan_errInfo (s : State) (c : Chan) : (s.setChan c).errInfo = s.errInfo := rfl
@[simp] theorem setChan_errAddr (s : State) (c : Chan) : (s.setChan c).errAddr = s.errAddr := rfl
@[simp] theorem setChan_docLen (s : State) (c : Chan) : (s.setChan c).docLen = s.docLen := rfl
@[simp] theorem setChan_width (s : State) (c : Chan) : (s.setChan c).width = s.width := rfl
@[simp] theorem setChan_height (s : State) (c : Chan) : (s.setChan c).height = s.height := rfl
@[simp] theorem setChan_totalSize (s : State) (c : Chan) : (s.setChan c).totalSize = s.totalSize := rfl
@[simp] theorem setChan_chSize (s : State) (c : Chan) : (s.setChan c).chSize = s.chSize := rfl
@[simp] theorem setChan_cbLen (s : State) (c : Chan) : (s.setChan c).cbLen = s.cbLen := rfl
@[simp] theorem setChan_cbCap (s : State) (c : Chan) : (s.setChan c).cbCap = s.cbCap := rfl
@[simp] theorem setChan_rdIndex (s : State) (c : Chan) : (s.setChan c).rdIndex = s.rdIndex := rfl
@[simp] theorem setChan_rdResult (s : State) (c : Chan) : (s.setChan c).rdResult = s.rdResult := rfl
@[simp] theorem setChan_outCount (s : State) (c : Chan) : (s.setChan c).outCount = s.outCount := rfl
@[simp] theorem setChan_pos (s : State) (c : Chan) : (s.setChan c).pos = s.pos := rfl
@[simp] theorem setChan_endPos (s : State) (c : Chan) : (s.setChan c).endPos = s.endPos := rfl
@[simp] theorem setChan_ctrl (s : State) (c : Chan) : (s.setChan c).ctrl = s.ctrl := rfl
@[simp] theorem setChan_val (s : State) (c : Chan) : (s.setChan c).val = s.val := rfl
@[simp] theorem setChan_cnt (s : State) (c : Chan) : (s.setChan c).cnt = s.cnt := rfl
@[simp] theorem setChan_i (s : State) (c : Chan) : (s.setChan c).i = s.i := rfl
@[simp] theorem setChan_inMem (s : State) (c : Chan) : (s.setChan c).inMem = s.inMem := rfl
@[simp] theorem setChan_cb (s : State) (c : Chan) : (s.setChan c).cb = s.cb := rfl
@[simp] theorem setChan_out (s : State) (c : Chan) : (s.setChan c).out = s.out := rfl
@[simp] theorem setChan_seq (s : State) (c : Chan) : (s.setChan c).seq = s.seq := rfl
@[simp] theorem setChan_raced (s : State) (c : Chan) : (s.setChan c).raced = s.raced := rfl
@[simp] theorem setChan_statusRead (s : State) (c : Chan) : (s.setChan c).statusRead = s.statusRead := rfl
@[simp] theorem setChan_host (s : State) (c : Chan) : (s.setChan c).host = s.host := rfl
@[simp] theorem setChan_seen (s : State) (c : Chan) : (s.setChan c).seen = s.seen := rfl
@[simp] theorem setChan_outRead (s : State) (c : Chan) : (s.setChan c).outRead = s.outRead := rfl
@[simp] theorem setChan_draw (s : State) (c : Chan) : (s.setChan c).draw = s.draw := rfl
@[simp] theorem setChan_powerEpoch (s : State) (c : Chan) : (s.setChan c).powerEpoch = s.powerEpoch := rfl

/-! ### reject -/

@[simp] theorem reject_params (s : State) : (s.reject).params = s.params := rfl
@[simp] theorem reject_status (s : State) : (s.reject).status = { s.status with cmdRej := true } := rfl
@[simp] theorem reject_errInfo (s : State) : (s.reject).errInfo = s.errInfo := rfl
@[simp] theorem reject_errAddr (s : State) : (s.reject).errAddr = s.errAddr := rfl
@[simp] theorem reject_docLen (s : State) : (s.reject).docLen = s.docLen := rfl
@[simp] theorem reject_width (s : State) : (s.reject).width = s.width := rfl
@[simp] theorem reject_height (s : State) : (s.reject).height = s.height := rfl
@[simp] theorem reject_totalSize (s : State) : (s.reject).totalSize = s.totalSize := rfl
@[simp] theorem reject_chSize (s : State) : (s.reject).chSize = s.chSize := rfl
@[simp] theorem reject_cbLen (s : State) : (s.reject).cbLen = s.cbLen := rfl
@[simp] theorem reject_cbCap (s : State) : (s.reject).cbCap = s.cbCap := rfl
@[simp] theorem reject_rdIndex (s : State) : (s.reject).rdIndex = s.rdIndex := rfl
@[simp] theorem reject_rdResult (s : State) : (s.reject).rdResult = s.rdResult := rfl
@[simp] theorem reject_outCount (s : State) : (s.reject).outCount = s.outCount := rfl
@[simp] theorem reject_pos (s : State) : (s.reject).pos = s.pos := rfl
@[simp] theorem reject_endPos (s : State) : (s.reject).endPos = s.endPos := rfl
@[simp] theorem reject_ctrl (s : State) : (s.reject).ctrl = s.ctrl := rfl
@[simp] theorem reject_val (s : State) : (s.reject).val = s.val := rfl
@[simp] theorem reject_cnt (s : State) : (s.reject).cnt = s.cnt := rfl
@[simp] theorem reject_i (s : State) : (s.reject).i = s.i := rfl
@[simp] theorem reject_inMem (s : State) : (s.reject).inMem = s.inMem := rfl
@[simp] theorem reject_cb (s : State) : (s.reject).cb = s.cb := rfl
@[simp] theorem reject_out (s : State) : (s.reject).out = s.out := rfl
@[simp] theorem reject_seq (s : State) : (s.reject).seq = s.seq := rfl
@[simp] theorem reject_raced (s : State) : (s.reject).raced = s.raced := rfl
@[simp] theorem reject_statusRead (s : State) : (s.reject).statusRead = s.statusRead := rfl
@[simp] theorem reject_host (s : State) : (s.reject).host = s.host := rfl
@[simp] theorem reject_seen (s : State) : (s.reject).seen = s.seen := rfl
@[simp] theorem reject_outRead (s : State) : (s.reject).outRead = s.outRead := rfl
@[simp] theorem reject_draw (s : State) : (s.reject).draw = s.draw := rfl
@[simp] theorem reject_powerEpoch (s : State) : (s.reject).powerEpoch = s.powerEpoch := rfl

/-! ### raise -/

@[simp] theorem raise_params (s : State) (e : ErrorName) (info addr : W32) :
    (s.raise e info addr).params = s.params := rfl
@[simp] theorem raise_status (s : State) (e : ErrorName) (info addr : W32) :
    (s.raise e info addr).status = { s.status with err := some e, state := if e = .resourceExhaustion then .fatal else .error } := rfl
@[simp] theorem raise_errInfo (s : State) (e : ErrorName) (info addr : W32) :
    (s.raise e info addr).errInfo = info := rfl
@[simp] theorem raise_errAddr (s : State) (e : ErrorName) (info addr : W32) :
    (s.raise e info addr).errAddr = addr := rfl
@[simp] theorem raise_docLen (s : State) (e : ErrorName) (info addr : W32) :
    (s.raise e info addr).docLen = s.docLen := rfl
@[simp] theorem raise_width (s : State) (e : ErrorName) (info addr : W32) :
    (s.raise e info addr).width = s.width := rfl
@[simp] theorem raise_height (s : State) (e : ErrorName) (info addr : W32) :
    (s.raise e info addr).height = s.height := rfl
@[simp] theorem raise_totalSize (s : State) (e : ErrorName) (info addr : W32) :
    (s.raise e info addr).totalSize = s.totalSize := rfl
@[simp] theorem raise_chSize (s : State) (e : ErrorName) (info addr : W32) :
    (s.raise e info addr).chSize = s.chSize := rfl
@[simp] theorem raise_cbLen (s : State) (e : ErrorName) (info addr : W32) :
    (s.raise e info addr).cbLen = s.cbLen := rfl
@[simp] theorem raise_cbCap (s : State) (e : ErrorName) (info addr : W32) :
    (s.raise e info addr).cbCap = s.cbCap := rfl
@[simp] theorem raise_rdIndex (s : State) (e : ErrorName) (info addr : W32) :
    (s.raise e info addr).rdIndex = s.rdIndex := rfl
@[simp] theorem raise_rdResult (s : State) (e : ErrorName) (info addr : W32) :
    (s.raise e info addr).rdResult = s.rdResult := rfl
@[simp] theorem raise_outCount (s : State) (e : ErrorName) (info addr : W32) :
    (s.raise e info addr).outCount = s.outCount := rfl
@[simp] theorem raise_pos (s : State) (e : ErrorName) (info addr : W32) : (s.raise e info addr).pos = s.pos := rfl
@[simp] theorem raise_endPos (s : State) (e : ErrorName) (info addr : W32) :
    (s.raise e info addr).endPos = s.endPos := rfl
@[simp] theorem raise_ctrl (s : State) (e : ErrorName) (info addr : W32) : (s.raise e info addr).ctrl = s.ctrl := rfl
@[simp] theorem raise_val (s : State) (e : ErrorName) (info addr : W32) : (s.raise e info addr).val = s.val := rfl
@[simp] theorem raise_cnt (s : State) (e : ErrorName) (info addr : W32) : (s.raise e info addr).cnt = s.cnt := rfl
@[simp] theorem raise_i (s : State) (e : ErrorName) (info addr : W32) : (s.raise e info addr).i = s.i := rfl
@[simp] theorem raise_inMem (s : State) (e : ErrorName) (info addr : W32) :
    (s.raise e info addr).inMem = s.inMem := rfl
@[simp] theorem raise_cb (s : State) (e : ErrorName) (info addr : W32) : (s.raise e info addr).cb = s.cb := rfl
@[simp] theorem raise_out (s : State) (e : ErrorName) (info addr : W32) : (s.raise e info addr).out = s.out := rfl
@[simp] theorem raise_seq (s : State) (e : ErrorName) (info addr : W32) : (s.raise e info addr).seq = .idle := rfl
@[simp] theorem raise_raced (s : State) (e : ErrorName) (info addr : W32) :
    (s.raise e info addr).raced = s.raced := rfl
@[simp] theorem raise_statusRead (s : State) (e : ErrorName) (info addr : W32) :
    (s.raise e info addr).statusRead = s.statusRead := rfl
@[simp] theorem raise_host (s : State) (e : ErrorName) (info addr : W32) : (s.raise e info addr).host = s.host := rfl
@[simp] theorem raise_seen (s : State) (e : ErrorName) (info addr : W32) : (s.raise e info addr).seen = s.seen := rfl
@[simp] theorem raise_outRead (s : State) (e : ErrorName) (info addr : W32) :
    (s.raise e info addr).outRead = s.outRead := rfl
@[simp] theorem raise_draw (s : State) (e : ErrorName) (info addr : W32) : (s.raise e info addr).draw = s.draw := rfl
@[simp] theorem raise_powerEpoch (s : State) (e : ErrorName) (info addr : W32) :
    (s.raise e info addr).powerEpoch = s.powerEpoch := rfl

/-! ### drawNext -/

@[simp] theorem drawNext_params (s : State) : (s.drawNext).params = s.params := rfl
@[simp] theorem drawNext_status (s : State) : (s.drawNext).status = s.status := rfl
@[simp] theorem drawNext_errInfo (s : State) : (s.drawNext).errInfo = s.errInfo := rfl
@[simp] theorem drawNext_errAddr (s : State) : (s.drawNext).errAddr = s.errAddr := rfl
@[simp] theorem drawNext_docLen (s : State) : (s.drawNext).docLen = s.docLen := rfl
@[simp] theorem drawNext_width (s : State) : (s.drawNext).width = s.width := rfl
@[simp] theorem drawNext_height (s : State) : (s.drawNext).height = s.height := rfl
@[simp] theorem drawNext_totalSize (s : State) : (s.drawNext).totalSize = s.totalSize := rfl
@[simp] theorem drawNext_chSize (s : State) : (s.drawNext).chSize = s.chSize := rfl
@[simp] theorem drawNext_cbLen (s : State) : (s.drawNext).cbLen = s.cbLen := rfl
@[simp] theorem drawNext_cbCap (s : State) : (s.drawNext).cbCap = s.cbCap := rfl
@[simp] theorem drawNext_rdIndex (s : State) : (s.drawNext).rdIndex = s.rdIndex := rfl
@[simp] theorem drawNext_rdResult (s : State) : (s.drawNext).rdResult = s.rdResult := rfl
@[simp] theorem drawNext_outCount (s : State) : (s.drawNext).outCount = s.outCount := rfl
@[simp] theorem drawNext_pos (s : State) : (s.drawNext).pos = s.pos := rfl
@[simp] theorem drawNext_endPos (s : State) : (s.drawNext).endPos = s.endPos := rfl
@[simp] theorem drawNext_ctrl (s : State) : (s.drawNext).ctrl = s.ctrl := rfl
@[simp] theorem drawNext_val (s : State) : (s.drawNext).val = s.val := rfl
@[simp] theorem drawNext_cnt (s : State) : (s.drawNext).cnt = s.cnt := rfl
@[simp] theorem drawNext_i (s : State) : (s.drawNext).i = s.i := rfl
@[simp] theorem drawNext_inMem (s : State) : (s.drawNext).inMem = s.inMem := rfl
@[simp] theorem drawNext_cb (s : State) : (s.drawNext).cb = s.cb := rfl
@[simp] theorem drawNext_out (s : State) : (s.drawNext).out = s.out := rfl
@[simp] theorem drawNext_seq (s : State) : (s.drawNext).seq = s.seq := rfl
@[simp] theorem drawNext_raced (s : State) : (s.drawNext).raced = s.raced := rfl
@[simp] theorem drawNext_statusRead (s : State) : (s.drawNext).statusRead = s.statusRead := rfl
@[simp] theorem drawNext_host (s : State) : (s.drawNext).host = s.host := rfl
@[simp] theorem drawNext_seen (s : State) : (s.drawNext).seen = s.seen := rfl
@[simp] theorem drawNext_outRead (s : State) : (s.drawNext).outRead = s.outRead := rfl
@[simp] theorem drawNext_draw (s : State) : (s.drawNext).draw = s.draw + 1 := rfl
@[simp] theorem drawNext_powerEpoch (s : State) : (s.drawNext).powerEpoch = s.powerEpoch := rfl

/-! ### cbNew -/

@[simp] theorem cbNew_params (s : State) (c : Chan) : (cbNew c s).params = s.params := rfl
@[simp] theorem cbNew_status (s : State) (c : Chan) : (cbNew c s).status = s.status := rfl
@[simp] theorem cbNew_errInfo (s : State) (c : Chan) : (cbNew c s).errInfo = s.errInfo := rfl
@[simp] theorem cbNew_errAddr (s : State) (c : Chan) : (cbNew c s).errAddr = s.errAddr := rfl
@[simp] theorem cbNew_docLen (s : State) (c : Chan) : (cbNew c s).docLen = s.docLen := rfl
@[simp] theorem cbNew_width (s : State) (c : Chan) : (cbNew c s).width = s.width := rfl
@[simp] theorem cbNew_height (s : State) (c : Chan) : (cbNew c s).height = s.height := rfl
@[simp] theorem cbNew_totalSize (s : State) (c : Chan) : (cbNew c s).totalSize = s.totalSize := rfl
@[simp] theorem cbNew_chSize (s : State) (c : Chan) : (cbNew c s).chSize = s.chSize := rfl
@[simp] theorem cbNew_cbLen (s : State) (c : Chan) : (cbNew c s).cbLen = s.cbLen.set c 0 := rfl
@[simp] theorem cbNew_cbCap (s : State) (c : Chan) : (cbNew c s).cbCap = s.cbCap.set c 256 := rfl
@[simp] theorem cbNew_rdIndex (s : State) (c : Chan) : (cbNew c s).rdIndex = s.rdIndex := rfl
@[simp] theorem cbNew_rdResult (s : State) (c : Chan) : (cbNew c s).rdResult = s.rdResult := rfl
@[simp] theorem cbNew_outCount (s : State) (c : Chan) : (cbNew c s).outCount = s.outCount := rfl
@[simp] theorem cbNew_pos (s : State) (c : Chan) : (cbNew c s).pos = s.pos := rfl
@[simp] theorem cbNew_endPos (s : State) (c : Chan) : (cbNew c s).endPos = s.endPos := rfl
@[simp] theorem cbNew_ctrl (s : State) (c : Chan) : (cbNew c s).ctrl = s.ctrl := rfl
@[simp] theorem cbNew_val (s : State) (c : Chan) : (cbNew c s).val = s.val := rfl
@[simp] theorem cbNew_cnt (s : State) (c : Chan) : (cbNew c s).cnt = s.cnt := rfl
@[simp] theorem cbNew_i (s : State) (c : Chan) : (cbNew c s).i = s.i := rfl
@[simp] theorem cbNew_inMem (s : State) (c : Chan) : (cbNew c s).inMem = s.inMem := rfl
@[simp] theorem cbNew_cb (s : State) (c : Chan) : (cbNew c s).cb = s.cb.set c [] := rfl
@[simp] theorem cbNew_out (s : State) (c : Chan) : (cbNew c s).out = s.out := rfl
@[simp] theorem cbNew_seq (s : State) (c : Chan) : (cbNew c s).seq = s.seq := rfl
@[simp] theorem cbNew_raced (s : State) (c : Chan) : (cbNew c s).raced = s.raced := rfl
@[simp] theorem cbNew_statusRead (s : State) (c : Chan) : (cbNew c s).statusRead = s.statusRead := rfl
@[simp] theorem cbNew_host (s : State) (c : Chan) : (cbNew c s).host = s.host := rfl
@[simp] theorem cbNew_seen (s : State) (c : Chan) : (cbNew c s).seen = s.seen := rfl
@[simp] theorem cbNew_outRead (s : State) (c : Chan) : (cbNew c s).outRead = s.outRead := rfl
@[simp] theorem cbNew_draw (s : State) (c : Chan) : (cbNew c s).draw = s.draw := rfl
@[simp] theorem cbNew_powerEpoch (s : State) (c : Chan) : (cbNew c s).powerEpoch = s.powerEpoch := rfl

/-! ### cbPush -/

@[simp] theorem cbPush_params (s : State) (c : Chan) (v : Byte) : (cbPush c v s).params = s.params := rfl
@[simp] theorem cbPush_status (s : State) (c : Chan) (v : Byte) : (cbPush c v s).status = s.status := rfl
@[simp] theorem cbPush_errInfo (s : State) (c : Chan) (v : Byte) : (cbPush c v s).errInfo = s.errInfo := rfl
@[simp] theorem cbPush_errAddr (s : State) (c : Chan) (v : Byte) : (cbPush c v s).errAddr = s.errAddr := rfl
@[simp] theorem cbPush_docLen (s : State) (c : Chan) (v : Byte) : (cbPush c v s).docLen = s.docLen := rfl
@[simp] theorem cbPush_width (s : State) (c : Chan) (v : Byte) : (cbPush c v s).width = s.width := rfl
@[simp] theorem cbPush_height (s : State) (c : Chan) (v : Byte) : (cbPush c v s).height = s.height := rfl
@[simp] theorem cbPush_totalSize (s : State) (c : Chan) (v : Byte) : (cbPush c v s).totalSize = s.totalSize := rfl
@[simp] theorem cbPush_chSize (s : State) (c : Chan) (v : Byte) : (cbPush c v s).chSize = s.chSize := rfl
@[simp] theorem cbPush_cbLen (s : State) (c : Chan) (v : Byte) :
    (cbPush c v s).cbLen = s.cbLen.set c (s.cbLen.get c + 1) := rfl
@[simp] theorem cbPush_cbCap (s : State) (c : Chan) (v : Byte) :
    (cbPush c v s).cbCap = if s.cbLen.get c = s.cbCap.get c then s.cbCap.set c (2 * s.cbCap.get c) else s.cbCap := rfl
@[simp] theorem cbPush_rdIndex (s : State) (c : Chan) (v : Byte) : (cbPush c v s).rdIndex = s.rdIndex := rfl
@[simp] theorem cbPush_rdResult (s : State) (c : Chan) (v : Byte) : (cbPush c v s).rdResult = s.rdResult := rfl
@[simp] theorem cbPush_outCount (s : State) (c : Chan) (v : Byte) : (cbPush c v s).outCount = s.outCount := rfl
@[simp] theorem cbPush_pos (s : State) (c : Chan) (v : Byte) : (cbPush c v s).pos = s.pos := rfl
@[simp] theorem cbPush_endPos (s : State) (c : Chan) (v : Byte) : (cbPush c v s).endPos = s.endPos := rfl
@[simp] theorem cbPush_ctrl (s : State) (c : Chan) (v : Byte) : (cbPush c v s).ctrl = s.ctrl := rfl
@[simp] theorem cbPush_val (s : State) (c : Chan) (v : Byte) : (cbPush c v s).val = s.val := rfl
@[simp] theorem cbPush_cnt (s : State) (c : Chan) (v : Byte) : (cbPush c v s).cnt = s.cnt := rfl
@[simp] theorem cbPush_i (s : State) (c : Chan) (v : Byte) : (cbPush c v s).i = s.i := rfl
@[simp] theorem cbPush_inMem (s : State) (c : Chan) (v : Byte) : (cbPush c v s).inMem = s.inMem := rfl
@[simp] theorem cbPush_cb (s : State) (c : Chan) (v : Byte) :
    (cbPush c v s).cb = s.cb.set c (s.cb.get c ++ [v]) := rfl
@[simp] theorem cbPush_out (s : State) (c : Chan) (v : Byte) : (cbPush c v s).out = s.out := rfl
@[simp] theorem cbPush_seq (s : State) (c : Chan) (v : Byte) : (cbPush c v s).seq = s.seq := rfl
@[simp] theorem cbPush_raced (s : State) (c : Chan) (v : Byte) : (cbPush c v s).raced = s.raced := rfl
@[simp] theorem cbPush_statusRead (s : State) (c : Chan) (v : Byte) : (cbPush c v s).statusRead = s.statusRead := rfl
@[simp] theorem cbPush_host (s : State) (c : Chan) (v : Byte) : (cbPush c v s).host = s.host := rfl
@[simp] theorem cbPush_seen (s : State) (c : Chan) (v : Byte) : (cbPush c v s).seen = s.seen := rfl
@[simp] theorem cbPush_outRead (s : State) (c : Chan) (v : Byte) : (cbPush c v s).outRead = s.outRead := rfl
@[simp] theorem cbPush_draw (s : State) (c : Chan) (v : Byte) : (cbPush c v s).draw = s.draw := rfl
@[simp] theorem cbPush_powerEpoch (s : State) (c : Chan) (v : Byte) : (cbPush c v s).powerEpoch = s.powerEpoch := rfl

/-! ### latchPair -/

@[simp] theorem latchPair_params (s : State) : (latchPair s).params = s.params := rfl
@[simp] theorem latchPair_status (s : State) : (latchPair s).status = s.status := rfl
@[simp] theorem latchPair_errInfo (s : State) : (latchPair s).errInfo = s.errInfo := rfl
@[simp] theorem latchPair_errAddr (s : State) : (latchPair s).errAddr = s.errAddr := rfl
@[simp] theorem latchPair_docLen (s : State) : (latchPair s).docLen = s.docLen := rfl
@[simp] theorem latchPair_width (s : State) : (latchPair s).width = s.width := rfl
@[simp] theorem latchPair_height (s : State) : (latchPair s).height = s.height := rfl
@[simp] theorem latchPair_totalSize (s : State) : (latchPair s).totalSize = s.totalSize := rfl
@[simp] theorem latchPair_chSize (s : State) : (latchPair s).chSize = s.chSize := rfl
@[simp] theorem latchPair_cbLen (s : State) : (latchPair s).cbLen = s.cbLen := rfl
@[simp] theorem latchPair_cbCap (s : State) : (latchPair s).cbCap = s.cbCap := rfl
@[simp] theorem latchPair_rdIndex (s : State) : (latchPair s).rdIndex = s.rdIndex := rfl
@[simp] theorem latchPair_rdResult (s : State) : (latchPair s).rdResult = s.rdResult := rfl
@[simp] theorem latchPair_outCount (s : State) : (latchPair s).outCount = s.outCount := rfl
@[simp] theorem latchPair_pos (s : State) : (latchPair s).pos = s.pos := rfl
@[simp] theorem latchPair_endPos (s : State) : (latchPair s).endPos = s.endPos := rfl
@[simp] theorem latchPair_ctrl (s : State) : (latchPair s).ctrl = inByte s s.pos.toNat := rfl
@[simp] theorem latchPair_val (s : State) : (latchPair s).val = inByte s (s.pos.toNat + 1) := rfl
@[simp] theorem latchPair_cnt (s : State) : (latchPair s).cnt = s.cnt := rfl
@[simp] theorem latchPair_i (s : State) : (latchPair s).i = s.i := rfl
@[simp] theorem latchPair_inMem (s : State) : (latchPair s).inMem = s.inMem := rfl
@[simp] theorem latchPair_cb (s : State) : (latchPair s).cb = s.cb := rfl
@[simp] theorem latchPair_out (s : State) : (latchPair s).out = s.out := rfl
@[simp] theorem latchPair_seq (s : State) : (latchPair s).seq = s.seq := rfl
@[simp] theorem latchPair_raced (s : State) : (latchPair s).raced = s.raced := rfl
@[simp] theorem latchPair_statusRead (s : State) : (latchPair s).statusRead = s.statusRead := rfl
@[simp] theorem latchPair_host (s : State) : (latchPair s).host = s.host := rfl
@[simp] theorem latchPair_seen (s : State) : (latchPair s).seen = s.seen := rfl
@[simp] theorem latchPair_outRead (s : State) : (latchPair s).outRead = s.outRead := rfl
@[simp] theorem latchPair_draw (s : State) : (latchPair s).draw = s.draw := rfl
@[simp] theorem latchPair_powerEpoch (s : State) : (latchPair s).powerEpoch = s.powerEpoch := rfl

/-! ### latchDimensions -/

@[simp] theorem latchDimensions_params (s : State) : (latchDimensions s).params = s.params := rfl
@[simp] theorem latchDimensions_status (s : State) : (latchDimensions s).status = s.status := rfl
@[simp] theorem latchDimensions_errInfo (s : State) : (latchDimensions s).errInfo = s.errInfo := rfl
@[simp] theorem latchDimensions_errAddr (s : State) : (latchDimensions s).errAddr = s.errAddr := rfl
@[simp] theorem latchDimensions_docLen (s : State) : (latchDimensions s).docLen = s.docLen := rfl
@[simp] theorem latchDimensions_width (s : State) : (latchDimensions s).width = BitVec.ofNat 16 (be16 s wOff) := rfl
@[simp] theorem latchDimensions_height (s : State) : (latchDimensions s).height = BitVec.ofNat 16 (be16 s hOff) := rfl
@[simp] theorem latchDimensions_totalSize (s : State) : (latchDimensions s).totalSize = s.totalSize := rfl
@[simp] theorem latchDimensions_chSize (s : State) : (latchDimensions s).chSize = s.chSize := rfl
@[simp] theorem latchDimensions_cbLen (s : State) : (latchDimensions s).cbLen = s.cbLen := rfl
@[simp] theorem latchDimensions_cbCap (s : State) : (latchDimensions s).cbCap = s.cbCap := rfl
@[simp] theorem latchDimensions_rdIndex (s : State) : (latchDimensions s).rdIndex = s.rdIndex := rfl
@[simp] theorem latchDimensions_rdResult (s : State) : (latchDimensions s).rdResult = s.rdResult := rfl
@[simp] theorem latchDimensions_outCount (s : State) : (latchDimensions s).outCount = s.outCount := rfl
@[simp] theorem latchDimensions_pos (s : State) : (latchDimensions s).pos = s.pos := rfl
@[simp] theorem latchDimensions_endPos (s : State) : (latchDimensions s).endPos = s.endPos := rfl
@[simp] theorem latchDimensions_ctrl (s : State) : (latchDimensions s).ctrl = s.ctrl := rfl
@[simp] theorem latchDimensions_val (s : State) : (latchDimensions s).val = s.val := rfl
@[simp] theorem latchDimensions_cnt (s : State) : (latchDimensions s).cnt = s.cnt := rfl
@[simp] theorem latchDimensions_i (s : State) : (latchDimensions s).i = s.i := rfl
@[simp] theorem latchDimensions_inMem (s : State) : (latchDimensions s).inMem = s.inMem := rfl
@[simp] theorem latchDimensions_cb (s : State) : (latchDimensions s).cb = s.cb := rfl
@[simp] theorem latchDimensions_out (s : State) : (latchDimensions s).out = s.out := rfl
@[simp] theorem latchDimensions_seq (s : State) : (latchDimensions s).seq = s.seq := rfl
@[simp] theorem latchDimensions_raced (s : State) : (latchDimensions s).raced = s.raced := rfl
@[simp] theorem latchDimensions_statusRead (s : State) : (latchDimensions s).statusRead = s.statusRead := rfl
@[simp] theorem latchDimensions_host (s : State) : (latchDimensions s).host = s.host := rfl
@[simp] theorem latchDimensions_seen (s : State) : (latchDimensions s).seen = s.seen := rfl
@[simp] theorem latchDimensions_outRead (s : State) : (latchDimensions s).outRead = s.outRead := rfl
@[simp] theorem latchDimensions_draw (s : State) : (latchDimensions s).draw = s.draw := rfl
@[simp] theorem latchDimensions_powerEpoch (s : State) : (latchDimensions s).powerEpoch = s.powerEpoch := rfl

end Sys2Proof.Machine
end

