-- ==== Sys2Proof/Laws/Buffer.lean ====
section
/-! SUPPORT. The laws of the channel buffer (44_channel_buffer.md): what an append does, and what a run of appends does. -/

namespace Sys2Proof.Machine

@[simp] theorem PerChan.set_get_self {α : Type} (p : PerChan α) (c : Chan) : p.set c (p.get c) = p := by
  cases c <;> rfl

/-- R212: an append is either refused with ResourceExhaustion or pushes the value. -/
theorem cbAppend_cases (c : Chan) (v : Byte) (s : State) :
    ((s.cbLen.get c).toNat = s.params.cbLenMax ∧
      cbAppend c v s = .raised (s.raise .resourceExhaustion (chanInfo c 0) s.pos)) ∨
    ((s.cbLen.get c).toNat ≠ s.params.cbLenMax ∧ cbAppend c v s = .ok (cbPush c v s)) := by
  unfold cbAppend
  split_ifs with h
  · exact .inl ⟨h, rfl⟩
  · exact .inr ⟨h, rfl⟩

/-- R212: the capacity after a push onto a buffer of length `len` and capacity `cap`. -/
def capPush (len cap : W32) : W32 := if len = cap then 2 * cap else cap

/-- The capacity after `n` pushes. -/
def capPushes : Nat → W32 → W32 → W32
  | 0, _, cap => cap
  | n + 1, len, cap => capPushes n (len + 1) (capPush len cap)

/-- A push, as one record update. -/
theorem cbPush_eq (c : Chan) (v : Byte) (s : State) :
    cbPush c v s = { s with
      cbCap := s.cbCap.set c (capPush (s.cbLen.get c) (s.cbCap.get c))
      cb := s.cb.set c (s.cb.get c ++ [v])
      cbLen := s.cbLen.set c (s.cbLen.get c + 1) } := by
  unfold cbPush capPush
  split_ifs <;> simp

/-- The state after `n` pushes of one value, with `cnt` counted down. -/
def pushes (c : Chan) (v : Byte) (n : Nat) (s : State) : State :=
  { s with
    cbCap := s.cbCap.set c (capPushes n (s.cbLen.get c) (s.cbCap.get c))
    cb := s.cb.set c (s.cb.get c ++ List.replicate n v)
    cbLen := s.cbLen.set c (s.cbLen.get c + BitVec.ofNat 32 n)
    cnt := s.cnt - BitVec.ofNat 8 n }

theorem pushes_zero (c : Chan) (v : Byte) (s : State) : pushes c v 0 s = s := by
  simp [pushes, capPushes]

theorem pushes_succ (c : Chan) (v : Byte) (n : Nat) (s : State) :
    pushes c v (n + 1) s = pushes c v n { cbPush c v s with cnt := s.cnt - 1 } := by
  rw [cbPush_eq]
  simp only [pushes, capPushes, PerChan.get_set_self, PerChan.set_set, List.replicate_succ, List.append_assoc,
    List.cons_append, List.nil_append, State.mk.injEq, true_and, and_true]
  refine ⟨?_, ?_⟩
  · congr 1
    apply BitVec.eq_of_toNat_eq
    have h1 : (1 : BitVec 32).toNat = 1 := rfl
    simp only [BitVec.toNat_add, BitVec.toNat_ofNat, h1]
    omega
  · apply BitVec.eq_of_toNat_eq
    have h1 : (1 : BitVec 8).toNat = 1 := rfl
    simp only [BitVec.toNat_sub, BitVec.toNat_ofNat, h1]
    omega

theorem toNat_add_one {x : W32} {m : Nat} (h : x.toNat < m) (hm : m ≤ 2 ^ 31) : (x + 1).toNat = x.toNat + 1 := by
  rw [BitVec.toNat_add]
  simp; omega

/-- R184: a run that fits is `n` pushes. -/
theorem appendRun_ok (c : Chan) (v : Byte) (n : Nat) (s : State) (hmax : s.params.cbLenMax ≤ 2 ^ 31)
    (h : (s.cbLen.get c).toNat + n ≤ s.params.cbLenMax) : appendRun c v n s = .ok (pushes c v n s) := by
  induction n generalizing s with
  | zero => rw [pushes_zero]; rfl
  | succ n ih =>
    have hne : (s.cbLen.get c).toNat ≠ s.params.cbLenMax := by omega
    rw [pushes_succ]
    simp only [appendRun, cbAppend, if_neg hne]
    apply ih
    · exact hmax
    · simp only [cbPush_params, cbPush_cbLen, PerChan.get_set_self]
      rw [toNat_add_one (m := s.params.cbLenMax) (by omega) hmax]
      omega

/-- R184, R212: a run that does not fit pushes what fits and raises. -/
theorem appendRun_raised (c : Chan) (v : Byte) (n : Nat) (s : State) (hmax : s.params.cbLenMax ≤ 2 ^ 31)
    (hlen : (s.cbLen.get c).toNat ≤ s.params.cbLenMax) (h : s.params.cbLenMax < (s.cbLen.get c).toNat + n) :
    appendRun c v n s =
      .raised ((pushes c v (s.params.cbLenMax - (s.cbLen.get c).toNat) s).raise .resourceExhaustion (chanInfo c 0)
        s.pos) := by
  induction n generalizing s with
  | zero => omega
  | succ n ih =>
    rcases cbAppend_cases c v s with ⟨heq, ha⟩ | ⟨hne, ha⟩
    · simp only [appendRun, ha, heq, Nat.sub_self, pushes_zero]
    · have h1 := toNat_add_one (x := s.cbLen.get c) (m := s.params.cbLenMax) (by omega) hmax
      have := ih { cbPush c v s with cnt := s.cnt - 1 } hmax
        (by simp only [cbPush_params, cbPush_cbLen, PerChan.get_set_self, h1]; omega)
        (by simp only [cbPush_params, cbPush_cbLen, PerChan.get_set_self, h1]; omega)
      simp only [appendRun, ha]
      rw [show s.params.cbLenMax - (s.cbLen.get c).toNat
        = (s.params.cbLenMax - ((s.cbLen.get c).toNat + 1)) + 1 by omega, pushes_succ]
      simpa only [cbPush_params, cbPush_cbLen, cbPush_pos, PerChan.get_set_self, h1, cbPush_cnt] using this

/-- 44_channel_buffer.md R213: a push keeps the capacity the least that holds the values. -/
theorem capPush_isCapacity {len cap : W32} (hlen : len.toNat < 2 ^ 31)
    (h : Safety.IsCapacityFor len.toNat cap.toNat) :
    Safety.IsCapacityFor (len.toNat + 1) (capPush len cap).toNat := by
  obtain ⟨⟨k, hk⟩, hle, hmin⟩ := h
  unfold capPush
  split_ifs with heq
  · subst heq
    have h2 : (2 * len).toNat = 2 * len.toNat := by rw [BitVec.toNat_mul]; simp; omega
    rw [h2]
    refine ⟨⟨k + 1, by rw [pow_succ]; omega⟩, ?_, fun j hj => ?_⟩
    · have := Nat.one_le_two_pow (n := k); omega
    · rw [hk] at hj ⊢
      have hlt : 2 ^ k < 2 ^ j := by omega
      have : k < j := (Nat.pow_lt_pow_iff_right (by norm_num)).1 hlt
      have : 2 ^ (k + 1) ≤ 2 ^ j := Nat.pow_le_pow_right (by norm_num) this
      rw [pow_succ] at this; omega
  · have hne : len.toNat ≠ cap.toNat := fun h => heq (BitVec.eq_of_toNat_eq h)
    exact ⟨⟨k, hk⟩, by omega, fun j hj => hmin j (by omega)⟩

theorem capPushes_isCapacity {n : Nat} {len cap : W32} (hlen : len.toNat + n ≤ 2 ^ 31)
    (h : Safety.IsCapacityFor len.toNat cap.toNat) :
    Safety.IsCapacityFor (len.toNat + n) (capPushes n len cap).toNat := by
  induction n generalizing len cap with
  | zero => exact h
  | succ n ih =>
    have h1 : (len + 1).toNat = len.toNat + 1 := toNat_add_one (m := 2 ^ 31) (by omega) (le_refl _)
    have := ih (len := len + 1) (cap := capPush len cap) (by omega) (h1 ▸ capPush_isCapacity (by omega) h)
    rw [h1] at this
    rw [show len.toNat + (n + 1) = len.toNat + 1 + n by omega]
    exact this

/-- R211: a new buffer's capacity is that of an empty one. -/
theorem isCapacity_new : Safety.IsCapacityFor 0 256 :=
  ⟨⟨0, rfl⟩, by norm_num, fun k _ => by have := Nat.one_le_two_pow (n := k); omega⟩

/-- R83: the count is `257 - ctrl` for a repeat pair. -/
theorem repCount_eq (ctrl : Byte) (h : 0x80 ≤ ctrl.toNat) : repCount ctrl = 257 - ctrl.toNat := by
  have := ctrl.isLt
  unfold repCount sext8
  rw [if_neg (by omega)]
  omega

end Sys2Proof.Machine
end

