-- ==== Sys2Proof/Laws/Encoding.lean ====
section
/-! SUPPORT. The fields of encoded words (30_encoding.md R81, R88) and the signed reading of a byte (00_scope.md R7). -/

namespace Sys2Proof

/-- A bit of a pair's 16-bit view. -/
theorem pair_getLsbD (a b : Byte) (i : Nat) :
    BitVec.getLsbD (w := 16) (a ++ b) i = if i < 8 then b.getLsbD i else a.getLsbD (i - 8) := by
  have h := @BitVec.getLsbD_append 8 8 i a b
  refine h.trans ?_
  by_cases hi : i < 8 <;> simp [hi]

@[simp] theorem pairCtrl_append (a b : Byte) : pairCtrl (a ++ b) = a := by
  unfold pairCtrl
  ext i hi
  simp [pair_getLsbD, hi, BitVec.getLsbD_eq_getElem]

@[simp] theorem pairVal_append (a b : Byte) : pairVal (a ++ b) = b := by
  unfold pairVal
  ext i hi
  simp [pair_getLsbD, hi, BitVec.getLsbD_eq_getElem]

/-- R81: a pair's 16-bit view is its two bytes. -/
theorem pairCtrl_append_pairVal (w : BitVec 16) : pairCtrl w ++ pairVal w = w := by
  apply BitVec.eq_of_getLsbD_eq
  intro i hi
  refine (pair_getLsbD _ _ i).trans ?_
  unfold pairCtrl pairVal
  by_cases h : i < 8
  · simp [h]
  · simp [h, show i - 8 < 8 by omega, show 8 + (i - 8) = i by omega]

/-- A bit of a command word. -/
theorem cmd_getLsbD (hi : BitVec 26) (ch : BitVec 2) (op : BitVec 4) (i : Nat) :
    BitVec.getLsbD (w := 32) ((hi ++ ch) ++ op) i =
      if i < 4 then op.getLsbD i else BitVec.getLsbD (hi ++ ch) (i - 4) := by
  have h := @BitVec.getLsbD_append 28 4 i (hi ++ ch) op
  refine h.trans ?_
  by_cases hi : i < 4 <;> simp [hi]

@[simp] theorem cmdOp_fields (hi : BitVec 26) (ch : BitVec 2) (op : BitVec 4) : cmdOp ((hi ++ ch) ++ op) = op := by
  unfold cmdOp
  ext i h
  simp [cmd_getLsbD, h, BitVec.getLsbD_eq_getElem]

@[simp] theorem cmdCh_fields (hi : BitVec 26) (ch : BitVec 2) (op : BitVec 4) : cmdCh ((hi ++ ch) ++ op) = ch := by
  unfold cmdCh
  ext i h
  have h2 : BitVec.getLsbD (w := 28) (hi ++ ch) i = ch[i] := by
    refine (@BitVec.getLsbD_append 26 2 i hi ch).trans ?_
    simp [h]
  simpa [cmd_getLsbD, h] using h2

theorem sext8_of_lt {b : Byte} (h : b.toNat < 128) : sext8 b = b.toNat := if_pos h

theorem sext8_of_ge {b : Byte} (h : 128 ≤ b.toNat) : sext8 b = (b.toNat : Int) - 256 := if_neg (by omega)

end Sys2Proof
end

