-- ==== Sys2Proof/Laws/Memory.lean ====
section
/-! SUPPORT. The laws of IN: the canonical form is kept, a read after a write at the same offset gives the byte written,
and every other offset reads as before. -/

namespace Sys2Proof.Machine

theorem Memory.read_write_self (m : Memory) (a : Nat) (b : Byte) : (m.write a b).read a = some b := by
  induction m with
  | nil => simp [Memory.write, Memory.read]
  | cons kx m ih =>
    obtain ⟨k, x⟩ := kx
    simp only [Memory.write]
    split_ifs with h1 h2
    · simp [Memory.read]
    · simp [Memory.read]
    · simp [Memory.read, ih, Ne.symm h2]

theorem Memory.read_write_ne (m : Memory) (a a' : Nat) (b : Byte) (h : a' ≠ a) :
    (m.write a b).read a' = m.read a' := by
  induction m with
  | nil => simp [Memory.write, Memory.read, h.symm]
  | cons kx m ih =>
    obtain ⟨k, x⟩ := kx
    simp only [Memory.write]
    split_ifs with h1 h2
    · simp [Memory.read, h.symm]
    · subst h2; simp [Memory.read, h.symm]
    · simp [Memory.read, ih]

/-- The offsets listed after a write: the old ones, and the one written. -/
theorem Memory.mem_write {m : Memory} {a : Nat} {b : Byte} {c : Host.Cell} (h : c ∈ m.write a b) :
    c = (a, b) ∨ c ∈ m := by
  induction m with
  | nil => simpa [Memory.write] using h
  | cons kx m ih =>
    obtain ⟨k, x⟩ := kx
    simp only [Memory.write] at h
    split_ifs at h with h1 h2
    · simpa using h
    · rcases List.mem_cons.1 h with h | h
      · exact .inl h
      · exact .inr (List.mem_cons_of_mem _ h)
    · rcases List.mem_cons.1 h with h | h
      · exact .inr (h ▸ List.mem_cons_self)
      · rcases ih h with h | h
        · exact .inl h
        · exact .inr (List.mem_cons_of_mem _ h)

theorem Memory.wf_write {m : Memory} (h : m.wf) (a : Nat) (b : Byte) : (m.write a b).wf := by
  induction m with
  | nil => simp [Memory.write, Memory.wf]
  | cons kx m ih =>
    obtain ⟨k, x⟩ := kx
    have hk := List.pairwise_cons.1 h
    simp only [Memory.write]
    split_ifs with h1 h2
    · refine List.pairwise_cons.2 ⟨fun c hc => ?_, h⟩
      rcases List.mem_cons.1 hc with rfl | hc
      · exact h1
      · exact h1.trans (hk.1 c hc)
    · subst h2; exact List.pairwise_cons.2 ⟨hk.1, hk.2⟩
    · refine List.pairwise_cons.2 ⟨fun c hc => ?_, ih hk.2⟩
      rcases Memory.mem_write hc with rfl | hc
      · show k < a; omega
      · exact hk.1 c hc

theorem Memory.wf_load {m : Memory} (h : m.wf) (a : Nat) (data : List Byte) : (m.load a data).wf := by
  induction data generalizing m a with
  | nil => exact h
  | cons b bs ih => exact ih (Memory.wf_write h a b) (a + 1)

theorem Memory.mem_load {m : Memory} {a : Nat} {data : List Byte} {c : Host.Cell} (h : c ∈ m.load a data) :
    (a ≤ c.1 ∧ c.1 < a + data.length) ∨ c ∈ m := by
  induction data generalizing m a with
  | nil => exact .inr h
  | cons b bs ih =>
    rcases ih h with ⟨h1, h2⟩ | h
    · exact .inl ⟨by omega, by simp only [List.length_cons]; omega⟩
    · rcases Memory.mem_write h with rfl | h
      · exact .inl ⟨le_refl _, by simp⟩
      · exact .inr h

theorem Memory.read_load_outside (m : Memory) (a a' : Nat) (data : List Byte) (h : a' < a ∨ a + data.length ≤ a') :
    (m.load a data).read a' = m.read a' := by
  induction data generalizing m a with
  | nil => rfl
  | cons b bs ih =>
    simp only [List.length_cons] at h
    rw [Memory.load, ih _ _ (by omega), Memory.read_write_ne _ _ _ _ (by omega)]

theorem Memory.read_load_inside (m : Memory) (a k : Nat) (data : List Byte) (h : k < data.length) :
    (m.load a data).read (a + k) = some data[k] := by
  induction data generalizing m a k with
  | nil => simp at h
  | cons b bs ih =>
    rw [Memory.load]
    cases k with
    | zero => rw [Memory.read_load_outside _ _ _ _ (.inl (by omega))]; simp [Memory.read_write_self]
    | succ k =>
      have := ih (m.write a b) (a + 1) k (by simpa using h)
      rw [show a + (k + 1) = a + 1 + k by omega, this]; rfl

theorem mem_insertOffset {l : List Nat} {a x : Nat} : x ∈ insertOffset l a ↔ x = a ∨ x ∈ l := by
  induction l with
  | nil => simp [insertOffset]
  | cons k l ih =>
    simp only [insertOffset]
    split_ifs with h1 h2
    · simp
    · subst h2; simp
    · simp only [List.mem_cons, ih]; tauto

theorem insertOffset_rising {l : List Nat} (h : l.Pairwise (· < ·)) (a : Nat) :
    (insertOffset l a).Pairwise (· < ·) := by
  induction l with
  | nil => simp [insertOffset]
  | cons k l ih =>
    have hk := List.pairwise_cons.1 h
    simp only [insertOffset]
    split_ifs with h1 h2
    · refine List.pairwise_cons.2 ⟨fun x hx => ?_, h⟩
      rcases List.mem_cons.1 hx with rfl | hx
      · exact h1
      · exact h1.trans (hk.1 x hx)
    · exact h
    · refine List.pairwise_cons.2 ⟨fun x hx => ?_, ih hk.2⟩
      rcases mem_insertOffset.1 hx with rfl | hx
      · omega
      · exact hk.1 x hx

theorem insertOffsets_rising {l : List Nat} (h : l.Pairwise (· < ·)) (a n : Nat) :
    (insertOffsets l a n).Pairwise (· < ·) := by
  induction n generalizing l a with
  | zero => exact h
  | succ n ih => exact ih (insertOffset_rising h a) (a + 1)

theorem mem_insertOffsets {l : List Nat} {a n x : Nat} :
    x ∈ insertOffsets l a n ↔ (a ≤ x ∧ x < a + n) ∨ x ∈ l := by
  induction n generalizing l a with
  | zero => simp only [insertOffsets]; constructor
            · exact .inr
            · rintro (⟨h1, h2⟩ | h)
              · omega
              · exact h
  | succ n ih =>
    rw [insertOffsets, ih, mem_insertOffset]
    constructor
    · rintro (⟨h1, h2⟩ | rfl | h)
      · exact .inl ⟨by omega, by omega⟩
      · exact .inl ⟨by omega, by omega⟩
      · exact .inr h
    · rintro (⟨h1, h2⟩ | h)
      · by_cases hx : x = a
        · exact .inr (.inl hx)
        · exact .inl ⟨by omega, by omega⟩
      · exact .inr (.inr h)

/-- `MemRead` returns as many bytes as asked for. -/
@[simp] theorem memRead_length (s : State) (a n : Nat) : (memRead s a n).length = n := by
  induction n generalizing a with
  | zero => rfl
  | succ n ih => simp [memRead, ih]

theorem memRead_getElem (s : State) (a n k : Nat) (h : k < n) :
    (memRead s a n)[k]? = some (inByte s (a + k)) := by
  induction n generalizing a k with
  | zero => omega
  | succ n ih =>
    cases k with
    | zero => simp [memRead]
    | succ k =>
      rw [memRead, List.getElem?_cons_succ, ih (a + 1) k (by omega)]
      congr 2; omega

/-- What the engine reads depends only on the bytes listed, the offsets raced, the draw and the power-on. -/
theorem inByte_congr {s t : State} {a : Nat} (h1 : t.inMem = s.inMem) (h2 : t.raced = s.raced) (h3 : t.draw = s.draw)
    (h4 : t.powerEpoch = s.powerEpoch) : inByte t a = inByte s a := by
  simp [inByte, h1, h2, h3, h4]

/-- With no offset raced, the draw does not matter. -/
theorem inByte_of_no_race {s t : State} {a : Nat} (h1 : t.inMem = s.inMem) (h2 : t.raced = s.raced)
    (h3 : t.powerEpoch = s.powerEpoch) (h4 : s.raced = []) : inByte t a = inByte s a := by
  simp [inByte, h1, h2, h3, h4]

end Sys2Proof.Machine
end

