-- ==== Sys2Proof/Laws/Step.lean ====
section
/-! SUPPORT. What a step can do, said once for each shared operation: if it answers a next state, one of these cases holds.
Invariants follow from these, without unfolding the step again. -/

namespace Sys2Proof.Machine

open Sys2Proof.Safety

/-- Every command word is a command. -/
theorem decodeCmd_isPair (w : W32) : (decodeCmd w).isPair = false := by
  unfold decodeCmd
  split <;> try rfl
  split <;> rfl

/-- Every pair is a pair. -/
theorem decodePair_isPair (ctrl val : Byte) : (decodePair ctrl val).isPair = true := by
  unfold decodePair
  split_ifs <;> rfl

/-- 40_pipeline_control.md R110 to R114: what a command can do. -/
theorem exec_command_cases {i : Instr} {s t : State} (hp : i.isPair = false) (h : exec i s = .next t) :
    (i = .nop ∧ t = s) ∨ (i ≠ .nop ∧ t = s.reject) ∨
    (i = .start ∧ s.status.state = .idle ∧ s.docLen.toNat ≤ s.params.inSizeMax ∧ t = s.beginRun) ∨
    (i = .clear ∧ resultState s.status.state = true ∧ t = s.clearResults) ∨
    (∃ c r, i = .read c ∧ resultState s.status.state = true ∧ (r.oob = true → r.value = 0 ∧ r.done = true) ∧
      t = { s with status := { s.status with cmdRej := false }, rdResult := r }) := by
  cases i with
  | lit _ => simp [Instr.isPair] at hp
  | rep _ _ => simp [Instr.isPair] at hp
  | illegal _ _ => simp [Instr.isPair] at hp
  | illegal80 _ => simp [Instr.isPair] at hp
  | nop => cases h; exact .inl ⟨rfl, rfl⟩
  | start =>
    simp only [exec, execStart, startAccepted, decide_eq_true_eq] at h
    split_ifs at h with ha <;> cases h
    · exact .inr (.inr (.inl ⟨rfl, ha.1, ha.2, rfl⟩))
    · exact .inr (.inl ⟨nofun, rfl⟩)
  | clear =>
    simp only [exec, execClear] at h
    split_ifs at h with ha <;> cases h
    · exact .inr (.inr (.inr (.inl ⟨rfl, ha, rfl⟩)))
    · exact .inr (.inl ⟨nofun, rfl⟩)
  | read c =>
    simp only [exec, execRead] at h
    split_ifs at h with ha <;> cases h
    · refine .inr (.inr (.inr (.inr ⟨c, _, rfl, ha, ?_, rfl⟩)))
      split <;> simp
    · exact .inr (.inl ⟨nofun, rfl⟩)
  | readReserved => cases h; exact .inr (.inl ⟨nofun, rfl⟩)
  | cmdReserved _ => cases h; exact .inr (.inl ⟨nofun, rfl⟩)

/-! ### Pairs -/

/-- `u` is `s` with values appended to buffer `c`, and `cnt` perhaps changed; a buffer that was in order still is. -/
structure Grown (c : Chan) (s u : State) : Prop where
  shape : ∃ vs cap k, u = { s with
    cb := s.cb.set c (s.cb.get c ++ vs)
    cbLen := s.cbLen.set c (s.cbLen.get c + BitVec.ofNat 32 vs.length)
    cbCap := s.cbCap.set c cap
    cnt := k }
  keeps : s.params.Legal → BufferOk s c → s.cbCap.get c ≠ 0 → BufferOk u c ∧ u.cbCap.get c ≠ 0

theorem Grown.refl (c : Chan) (s : State) (k : Byte) : Grown c s { s with cnt := k } where
  shape := ⟨[], s.cbCap.get c, k, by simp⟩
  keeps _ h hc := ⟨⟨h.contents, h.bound, h.absent, h.capacity⟩, hc⟩

theorem Grown.trans {c : Chan} {s u w : State} (h1 : Grown c s u) (h2 : Grown c u w) : Grown c s w where
  shape := by
    obtain ⟨vs, cap, k, rfl⟩ := h1.shape
    obtain ⟨ws, cap', k', rfl⟩ := h2.shape
    refine ⟨vs ++ ws, cap', k', ?_⟩
    simp [BitVec.ofNat_add, BitVec.add_assoc]
  keeps hp hb hc := by
    have hpar : u.params = s.params := by obtain ⟨vs, cap, k, rfl⟩ := h1.shape; rfl
    have := h1.keeps hp hb hc
    exact h2.keeps (hpar ▸ hp) this.1 this.2

/-- 44_channel_buffer.md R210, R212: a push onto a buffer in order that is not at its limit keeps it in order. -/
theorem bufferOk_push {c : Chan} {v : Byte} {s : State} (hp : s.params.Legal) (h : BufferOk s c)
    (hc : s.cbCap.get c ≠ 0) (hne : (s.cbLen.get c).toNat ≠ s.params.cbLenMax) :
    BufferOk (cbPush c v s) c ∧ (cbPush c v s).cbCap.get c ≠ 0 := by
  have hlt : (s.cbLen.get c).toNat < s.params.cbLenMax := lt_of_le_of_ne h.bound hne
  have hmax : s.params.cbLenMax ≤ 2 ^ 31 := hp.2.2.2
  have h1 := toNat_add_one hlt hmax
  have hcap := capPush_isCapacity (by omega) (h.capacity hc)
  have hne0 : capPush (s.cbLen.get c) (s.cbCap.get c) ≠ 0 := by
    intro h0
    rw [h0] at hcap
    obtain ⟨_, hle, _⟩ := hcap
    simp at hle
  rw [cbPush_eq]
  refine ⟨⟨?_, ?_, ?_, ?_⟩, ?_⟩
  · simp only [PerChan.get_set_self, List.length_append, List.length_cons, List.length_nil, h1, h.contents]
  · simp only [PerChan.get_set_self, h1]; omega
  · simp only [PerChan.get_set_self]; exact fun h0 => absurd h0 hne0
  · simp only [PerChan.get_set_self, h1]; exact fun _ => hcap
  · simpa only [PerChan.get_set_self] using hne0

theorem grown_push (c : Chan) (v : Byte) (s : State) (hne : (s.cbLen.get c).toNat ≠ s.params.cbLenMax) :
    Grown c s (cbPush c v s) where
  shape := ⟨[v], _, s.cnt, by rw [cbPush_eq]; rfl⟩
  keeps hp hb hc := bufferOk_push hp hb hc hne

/-- R184: what a run of appends can do. -/
theorem appendRun_cases (c : Chan) (v : Byte) (n : Nat) (s : State) :
    (∃ u, Grown c s u ∧ appendRun c v n s = .ok u) ∨
    (∃ u, Grown c s u ∧ appendRun c v n s = .raised (u.raise .resourceExhaustion (chanInfo c 0) s.pos)) := by
  induction n generalizing s with
  | zero => exact .inl ⟨s, Grown.refl c s s.cnt, rfl⟩
  | succ n ih =>
    rcases cbAppend_cases c v s with ⟨-, ha⟩ | ⟨hne, ha⟩
    · exact .inr ⟨s, Grown.refl c s s.cnt, by simp only [appendRun, ha]⟩
    · have hg : Grown c s { cbPush c v s with cnt := s.cnt - 1 } :=
        (grown_push c v s hne).trans (Grown.refl c _ _)
      simp only [appendRun, ha]
      rcases ih { cbPush c v s with cnt := s.cnt - 1 } with ⟨u, hu, he⟩ | ⟨u, hu, he⟩
      · exact .inl ⟨u, hg.trans hu, he⟩
      · exact .inr ⟨u, hg.trans hu, he⟩

/-- 43_rle_decoder.md R183 to R186: what a pair can do: append to its channel's buffer and advance, append what fits and
raise ResourceExhaustion, or raise InvalidControlByte. -/
theorem exec_pair_cases {i : Instr} {s t : State} (hp : i.isPair = true) (h : exec i s = .next t) :
    (∃ u, Grown s.status.chan s u ∧ t = { u with pos := s.pos + 2 }) ∨
    (∃ u, Grown s.status.chan s u ∧ t = u.raise .resourceExhaustion (chanInfo s.status.chan 0) s.pos) ∨
    (∃ ctrl, t = s.raise .invalidControlByte (chanInfo s.status.chan ctrl) s.pos) := by
  have hpos : ∀ {c : Chan} {u : State}, Grown c s u → u.pos = s.pos := by
    rintro c u ⟨⟨vs, cap, k, rfl⟩, -⟩; rfl
  cases i with
  | lit v =>
    simp only [exec, execLit] at h
    rcases cbAppend_cases s.status.chan v s with ⟨-, ha⟩ | ⟨hne, ha⟩ <;> rw [ha] at h <;> cases h
    · exact .inr (.inl ⟨s, Grown.refl _ s s.cnt, rfl⟩)
    · exact .inl ⟨_, grown_push _ v s hne, rfl⟩
  | rep ctrl v =>
    simp only [exec, execRep] at h
    have hg := Grown.refl s.status.chan s (BitVec.ofNat 8 (repCount ctrl))
    rcases appendRun_cases s.status.chan v (repCount ctrl) { s with cnt := BitVec.ofNat 8 (repCount ctrl) } with
      ⟨u, hu, he⟩ | ⟨u, hu, he⟩ <;> rw [he] at h <;> cases h
    · exact .inl ⟨u, hg.trans hu, by simp [hpos (hg.trans hu)]⟩
    · exact .inr (.inl ⟨u, hg.trans hu, rfl⟩)
  | illegal ctrl v => cases h; exact .inr (.inr ⟨ctrl, rfl⟩)
  | illegal80 v => cases h; exact .inr (.inr ⟨0x80, rfl⟩)
  | nop => simp [Instr.isPair] at hp
  | start => simp [Instr.isPair] at hp
  | clear => simp [Instr.isPair] at hp
  | read _ => simp [Instr.isPair] at hp
  | readReserved => simp [Instr.isPair] at hp
  | cmdReserved _ => simp [Instr.isPair] at hp

/-! ### The host's moves and the step -/

/-- 20_memory.md R69 (b): when the results are visible, a host read returns what the register holds. -/
theorem hostReadValue_visible {s : State} (off : Nat) (hb : s.status.state ≠ .busy) (hr : s.statusRead = true) :
    hostReadValue s off = regValue s (regAt off) := by
  simp [hostReadValue, resultsVisible, hb, hr]

/-- A register the engine does not write reads exactly in every state (10_state.md R45). -/
theorem hostReadValue_exact {s : State} {off : Nat} (h : engineWritten (regAt off) = false) :
    hostReadValue s off = regValue s (regAt off) := by
  simp [hostReadValue, h]

/-- 70_reset_and_hazards.md R284: until then, a register the engine writes reads as a free value. -/
theorem hostReadValue_early {s : State} {off : Nat} (h : engineWritten (regAt off) = true)
    (hv : s.status.state = .busy ∨ s.statusRead = false) : hostReadValue s off = Config.earlyRead s.draw off := by
  rcases hv with hv | hv <;> simp [hostReadValue, resultsVisible, h, hv]

/-- 20_memory.md R69 (b), (d): what a host read of OUT can do: return the next triple, or none, and none only if every
triple has been read or the results are not yet visible. -/
theorem readOut_cases (s : State) :
    (∃ p, s.out[s.outRead]? = some p ∧
      readOut s = { s with seen := s.seen ++ [.triple p], outRead := s.outRead + 1, draw := s.draw + 1 }) ∨
    ((s.out.length ≤ s.outRead ∨ s.status.state = .busy ∨ s.statusRead = false) ∧
      readOut s = { s with seen := s.seen ++ [.noTriple], draw := s.draw + 1 }) := by
  unfold readOut nextTriple
  split_ifs with hv
  · cases ho : s.out[s.outRead]? with
    | some p => exact .inl ⟨p, rfl, rfl⟩
    | none => exact .inr ⟨.inl (List.getElem?_eq_none_iff.mp ho), rfl⟩
  · refine .inr ⟨.inr ?_, rfl⟩
    by_contra hn
    push Not at hn
    exact hv (by simp [resultsVisible, hn.1, hn.2])

/-- What a host move can do when it answers a next state. -/
theorem hostAct_cases {m : HostMove} {s t : State} (h : hostAct m s = .next t) :
    (∃ off bytes v, m = .write off bytes v ∧
      ((regAt off = .cmd ∧ exec (decodeCmd v) s = .next t) ∨
        (s.status.state ≠ .busy ∧ t = { s with docLen := v }) ∨ t = { s with rdIndex := v } ∨ t = s)) ∨
    (∃ off, t = regRead off s) ∨
    (∃ a data, m = .load a data ∧ a + data.length ≤ s.params.inSizeMax ∧ t = loadIn a data s) ∨
    (m = .readOut ∧ t = readOut s) ∨ (m = .reset ∧ t = s.resetBlock) ∨ (m = .powerOn ∧ t = s.powerOn) := by
  cases m with
  | write off bytes v =>
    refine .inl ⟨off, bytes, v, rfl, ?_⟩
    simp only [hostAct] at h
    split_ifs at h
    cases hr : regAt off <;> simp only [hr, regWrite] at h
    case cmd => exact .inl ⟨rfl, h⟩
    case docLen =>
      split_ifs at h with hb <;> cases h
      · exact .inr (.inr (.inr rfl))
      · exact .inr (.inl ⟨hb, rfl⟩)
    case rdIndex => cases h; exact .inr (.inr (.inl rfl))
    all_goals cases h; exact .inr (.inr (.inr rfl))
  | read off bytes =>
    simp only [hostAct] at h
    split_ifs at h; cases h; exact .inr (.inl ⟨_, rfl⟩)
  | poll => cases h; exact .inr (.inl ⟨_, rfl⟩)
  | load a data =>
    simp only [hostAct] at h
    split_ifs at h with hl; cases h; exact .inr (.inr (.inl ⟨a, data, rfl, hl, rfl⟩))
  | readOut => cases h; exact .inr (.inr (.inr (.inl ⟨rfl, rfl⟩)))
  | reset => cases h; exact .inr (.inr (.inr (.inr (.inl ⟨rfl, rfl⟩))))
  | powerOn => cases h; exact .inr (.inr (.inr (.inr (.inr ⟨rfl, rfl⟩))))

/-- 40_pipeline_control.md R122: a step that answers a next state is an engine step, or the host move that is due. -/
theorem step_next_cases {s t : State} (h : step s = .next t) :
    (dueMove s = none ∧ engineStep (engineTurn s) = .next t) ∨
    (∃ m, dueMove s = some m ∧ hostAct m { s with host := s.host.tail } = .next t) := by
  simp only [step, hostOrEngineStep] at h
  simp only [dueMove, engineTurn]
  cases hh : s.host with
  | nil => simp only [hh] at h; exact .inl ⟨rfl, h⟩
  | cons e rest =>
    simp only [hh] at h
    split_ifs at h with hz hp
    · exact .inl ⟨by simp [hz, hp], by simpa [hz] using h⟩
    · exact .inr ⟨e.move, by simp [hz, hp], by simpa using h⟩
    · exact .inl ⟨by simp [hz], by simpa [hz] using h⟩

/-- Handing the turn to the engine changes nothing but the pending moves. -/
theorem engineTurn_eq (s : State) : ∃ hs, engineTurn s = { s with host := hs } := by
  unfold engineTurn
  split
  · exact ⟨s.host, rfl⟩
  · split_ifs
    · exact ⟨s.host, rfl⟩
    · exact ⟨_, rfl⟩

/-! ### The engine's step -/

/-- What an engine step can do when it answers a next state. -/
theorem engineStep_cases {s t : State} (h : engineStep s = .next t) :
    (s.status.state ≠ .busy ∧ t = s) ∨
    (s.status.state = .busy ∧ s.docLen.toNat ≤ s.params.inSizeMax ∧
      ((s.seq = .idle ∧ t = s.drawNext) ∨
        (s.seq = .hdr ∧ t = headerStep s.drawNext) ∨
        (s.seq = .lt ∧ t = ltStep s.drawNext) ∨
        (s.seq = .payload ∧ t = payloadStep s.drawNext) ∨
        (∃ c, s.seq = .chanStart c ∧ t = chanStartStep c s.drawNext) ∨
        (s.seq = .pairs ∧ s.endPos ≤ s.pos ∧ t = chanEndStep s.drawNext) ∨
        (s.seq = .pairs ∧ s.pos < s.endPos ∧ s.pos.toNat + 2 ≤ s.docLen.toNat ∧
          exec (fetchPair s.drawNext) (latchPair s.drawNext) = .next t) ∨
        (s.seq = .chk ∧ t = chkStep s.drawNext) ∨
        (s.seq = .asmCheck ∧ t = asmCheckStep s.drawNext) ∨
        (s.seq = .emit ∧ t = emitStep s.drawNext))) := by
  simp only [engineStep] at h
  split_ifs at h with hb hd
  · cases h; exact .inl ⟨hb, rfl⟩
  · refine .inr ⟨by simpa using hb, by omega, ?_⟩
    cases hs : s.seq <;> simp only [runSeq, drawNext_seq, hs] at h
    case pairs =>
      unfold pairStep at h
      split_ifs at h with h1 h2
      · cases h; simp [show s.endPos ≤ s.pos from h1]
      · have h1' : s.pos < s.endPos := by simpa [BitVec.lt_def, BitVec.le_def] using h1
        simp only [drawNext_docLen, drawNext_pos] at h2
        exact .inr (.inr (.inr (.inr (.inr (.inr (.inl ⟨rfl, h1', by omega, h⟩))))))
    all_goals cases h; simp

end Sys2Proof.Machine
end

