-- ==== Sys2Proof/Laws/Words.lean ====
section
/-! SUPPORT. The numbers that packed words stand for (10_state.md R32, 45_raster_interleaver.md R232), the size of a document
field, and the sums of the length table (42_length_table.md R162, R163, R165). -/

namespace Sys2Proof.Machine

theorem chanInfo_toNat (c : Chan) (b : Byte) : (chanInfo c b).toNat = 256 * c.toNat + b.toNat := by
  revert b; cases c <;> decide

theorem dimInfo_toNat (b : BitVec 1) (v : Half) : (dimInfo b v).toNat = 65536 * b.toNat + v.toNat := by
  have hv := v.isLt
  unfold dimInfo
  rw [BitVec.toNat_append, BitVec.toNat_append, Nat.shiftLeft_eq, ← Nat.mul_comm]
  simp
  rw [← Nat.two_pow_add_eq_or_of_lt hv]

theorem pixel_toNat (r g b : Byte) :
    BitVec.toNat (w := 24) (r ++ g ++ b) = r.toNat * 65536 + g.toNat * 256 + b.toNat := by
  have h1 := g.isLt
  have h2 := b.isLt
  have e1 : BitVec.toNat (w := 24) (r ++ g ++ b) = (BitVec.toNat (w := 16) (r ++ g)) <<< 8 ||| b.toNat :=
    @BitVec.toNat_append 16 8 (r ++ g) b
  have e2 : BitVec.toNat (w := 16) (r ++ g) = r.toNat <<< 8 ||| g.toNat := @BitVec.toNat_append 8 8 r g
  rw [e1, e2, Nat.shiftLeft_eq, Nat.shiftLeft_eq, ← Nat.mul_comm (2 ^ 8), ← Nat.mul_comm (2 ^ 8),
    ← Nat.two_pow_add_eq_or_of_lt h1, ← Nat.two_pow_add_eq_or_of_lt h2]
  omega

/-- R232: a triple's components are where the rule puts them. -/
theorem pixel_fields (r g b : Byte) :
    BitVec.extractLsb' (n := 24) 16 8 (r ++ g ++ b) = r ∧ BitVec.extractLsb' (n := 24) 8 8 (r ++ g ++ b) = g ∧
    BitVec.extractLsb' (n := 24) 0 8 (r ++ g ++ b) = b := by
  have h0 := r.isLt
  have h1 := g.isLt
  have h2 := b.isLt
  refine ⟨?_, ?_, ?_⟩ <;> apply BitVec.eq_of_toNat_eq <;>
    rw [BitVec.extractLsb'_toNat, pixel_toNat, Nat.shiftRight_eq_div_pow] <;> omega

theorem be16_lt (s : State) (a : Nat) : be16 s a < 65536 := by
  have h1 := (inByte s a).isLt
  have h2 := (inByte s (a + 1)).isLt
  unfold be16; omega

/-- R165: a sum of `n` entries is at most `65535 · n`. -/
theorem sumEntries_le (s : State) (c : Chan) (n : Nat) : sumEntries s c n ≤ 65535 * n := by
  induction n with
  | zero => simp [sumEntries]
  | succ n ih => have := be16_lt s (lteOffset s.height.toNat c n); simp only [sumEntries]; omega

/-- R163: the recursion is the sum over the rows. -/
theorem sumEntries_eq_sum (s : State) (c : Chan) (n : Nat) :
    sumEntries s c n = ((List.range n).map fun r => be16 s (lteOffset s.height.toNat c r)).sum := by
  induction n with
  | zero => rfl
  | succ n ih => simp [sumEntries, List.range_succ, ih]

/-- R165: below the height bound a channel's sum does not overflow its register. -/
theorem channelSum_toNat (s : State) (c : Chan) (h : s.height.toNat ≤ 10000) :
    (channelSum s c).toNat = sumEntries s c s.height.toNat := by
  have := sumEntries_le s c s.height.toNat
  unfold channelSum; simp; omega

theorem payloadStart_eq (s : State) : payloadStart s = 40 + 6 * s.height.toNat := by
  simp only [payloadStart, hdrLen, nchan, entryBytes]; omega

end Sys2Proof.Machine
end

