-- ==== Sys2Proof/Laws/Invariant.lean ====
section
/-! SUPPORT. When the parts of the invariant carry over from one state to another, what it says of a run, and how the runs of
`Host.Core.run` compose. -/

namespace Sys2Proof.Safety

open Sys2Proof.Machine

theorem chanBase_congr {s t : State} (c : Chan) (h1 : t.chSize = s.chSize) (h2 : t.height = s.height) :
    chanBase t c = chanBase s c := by
  cases c <;> simp [chanBase, payloadStart, h1, h2]

theorem BufferOk.congr {s t : State} {c : Chan} (h : BufferOk s c) (h1 : t.params = s.params)
    (h2 : t.cb.get c = s.cb.get c) (h3 : t.cbLen.get c = s.cbLen.get c) (h4 : t.cbCap.get c = s.cbCap.get c) :
    BufferOk t c :=
  ⟨by rw [h2, h3]; exact h.1, by rw [h3, h1]; exact h.2, by rw [h3, h4]; exact h.3, by rw [h3, h4]; exact h.4⟩

theorem bufferOk_released {t : State} (h1 : t.cb = ⟨[], [], []⟩) (h2 : t.cbLen = ⟨0, 0, 0⟩) (h3 : t.cbCap = ⟨0, 0, 0⟩)
    (c : Chan) : BufferOk t c :=
  ⟨by rw [h1, h2]; simp, by rw [h2]; simp, by rw [h2]; simp, by rw [h3]; simp⟩

theorem ResultsZero.congr {s t : State} (h : ResultsZero s) (h1 : t.width = s.width) (h2 : t.height = s.height)
    (h3 : t.chSize = s.chSize) (h4 : t.totalSize = s.totalSize) (h5 : t.cbLen = s.cbLen) (h6 : t.cbCap = s.cbCap) :
    ResultsZero t :=
  ⟨h1 ▸ h.1, h2 ▸ h.2, h4 ▸ h.3, h3 ▸ h.4, h5 ▸ h.5, h6 ▸ h.6⟩

theorem HeaderOk.congr {s t : State} (h : HeaderOk s) (h1 : t.width = s.width) (h2 : t.height = s.height)
    (h3 : t.docLen = s.docLen) : HeaderOk t :=
  ⟨h1 ▸ h.1, h2 ▸ h.2, h3 ▸ h.3⟩

theorem TableOk.congr {s t : State} (h : TableOk s) (h1 : t.width = s.width) (h2 : t.height = s.height)
    (h3 : t.docLen = s.docLen) (h4 : t.chSize = s.chSize) (h5 : t.totalSize = s.totalSize) : TableOk t :=
  ⟨h.1.congr h1 h2 h3, by rw [h4, h2]; exact h.sizes, by rw [h4, h5]; exact h.total,
    by rw [show payloadStart t = payloadStart s by simp [payloadStart, h2], h3]; exact h.table⟩

theorem PayloadOk.congr {s t : State} (h : PayloadOk s) (h1 : t.width = s.width) (h2 : t.height = s.height)
    (h3 : t.docLen = s.docLen) (h4 : t.chSize = s.chSize) (h5 : t.totalSize = s.totalSize) : PayloadOk t :=
  ⟨h.1.congr h1 h2 h3 h4 h5,
    by rw [show payloadStart t = payloadStart s by simp [payloadStart, h2], h3, h5]; exact h.payload⟩

/-- 43_rle_decoder.md R182: a channel's sub-stream lies below DOC_LEN. -/
theorem PayloadOk.subStream_le {s : State} (h : PayloadOk s) (c : Chan) :
    chanBase s c + (s.chSize.get c).toNat ≤ s.docLen.toNat := by
  have := h.payload
  have := h.total
  cases c <;> simp [chanBase] <;> omega

theorem cursorOk_intro {t : State} (base size : Nat) (hb : chanBase t t.status.chan = base)
    (hs : (t.chSize.get t.status.chan).toNat = size) (h1 : size % 2 = 0) (h2 : t.endPos.toNat = base + size)
    (h3 : base ≤ t.pos.toNat) (h4 : t.pos.toNat ≤ base + size) (h5 : (t.pos.toNat - base) % 2 = 0) : CursorOk t := by
  subst hb hs
  exact ⟨h1, h2, h3, h2 ▸ h4, h5⟩

/-- `StateOk` looks at these fields only, and at DOC_LEN only while BUSY. -/
theorem StateOk.congr {s t : State} (h : StateOk s) (a1 : t.status.state = s.status.state)
    (a2 : t.status.phase = s.status.phase) (a3 : t.status.chan = s.status.chan) (a4 : t.status.err = s.status.err)
    (h1 : t.width = s.width) (h2 : t.height = s.height) (h4 : t.chSize = s.chSize) (h5 : t.totalSize = s.totalSize)
    (h6 : t.cbLen = s.cbLen) (h7 : t.cbCap = s.cbCap) (h8 : t.out = s.out) (h9 : t.seq = s.seq) (h10 : t.pos = s.pos)
    (h11 : t.endPos = s.endPos) (h12 : t.i = s.i) (h13 : t.params = s.params)
    (h14 : s.status.state = .busy → t.docLen = s.docLen) : StateOk t := by
  have hc : ∀ c, chanBase t c = chanBase s c := fun c => chanBase_congr c h4 h2
  have hpx : pixelCount t = pixelCount s := by simp [pixelCount, h1, h2]
  have hcnt : CountsOk s → CountsOk t := by intro h c; rw [h6, hpx]; exact h c
  unfold StateOk at *
  rw [a1]
  cases hst : s.status.state <;> simp only [hst] at h ⊢
  · rw [a2, a4, h8, h9]; exact ⟨h.1, h.2.1, h.2.2.1.congr h1 h2 h4 h5 h6 h7, h.2.2.2⟩
  · have hd := h14 hst
    have hpl : PayloadOk s → PayloadOk t := fun h => h.congr h1 h2 hd h4 h5
    have hcu : CursorOk s → CursorOk t := fun h =>
      cursorOk_intro (chanBase s s.status.chan) (s.chSize.get s.status.chan).toNat (by rw [a3, hc]) (by rw [h4, a3]) h.1
        (by rw [h11]; exact h.2) (by rw [h10]; exact h.3) (by rw [h10]; exact h.2 ▸ h.4) (by rw [h10]; exact h.5)
    refine ⟨a4 ▸ h.1, by rw [hd, h13]; exact h.2.1, ?_⟩
    have hr := h.2.2
    unfold RunOk at *
    rw [h9]
    cases hsq : s.seq <;> simp only [hsq, a2, a3, h4, h5, h6, h7, h8, h12, hpx] at hr ⊢
    case hdr => exact ⟨hr.1, hr.2.1.congr h1 h2 h4 h5 h6 h7, hr.2.2⟩
    case lt => exact ⟨hr.1, hr.2.1.congr h1 h2 hd, hr.2.2⟩
    case payload => exact ⟨hr.1, hr.2.1.congr h1 h2 hd h4 h5, hr.2.2⟩
    case chanStart c =>
      cases c <;> simp only at hr ⊢
      · exact ⟨hr.1, hpl hr.2.1, hr.2.2⟩
      · exact ⟨hr.1, hr.2.1, hpl hr.2.2.1, hr.2.2.2⟩
      · exact ⟨hr.1, hr.2.1, hpl hr.2.2.1, hr.2.2.2⟩
    case pairs => exact ⟨hr.1, hpl hr.2.1, hcu hr.2.2.1, hr.2.2.2⟩
    case chk => exact ⟨hr.1, hr.2.1, hpl hr.2.2.1, hr.2.2.2⟩
    case asmCheck => exact ⟨hr.1, hpl hr.2.1, hr.2.2⟩
    case emit => exact ⟨hr.1, hpl hr.2.1, hcnt hr.2.2.1, hr.2.2.2⟩
  · rw [a2, a4, h8, h9, h1, h2, hpx]; exact ⟨h.1, h.2.1, hcnt h.2.2.1, h.2.2.2⟩
  · rw [a4, h8, h9]; exact h
  · rw [a2, a4, h8, h9]; exact h

/-- The invariant does not look at the pending moves. -/
theorem Inv.with_host {s : State} (h : Inv s) (hs : List HostEntry) : Inv { s with host := hs } where
  params := h.params
  memory := h.memory
  inBound := h.inBound
  raced := h.raced
  buffers c := (h.buffers c).congr rfl rfl rfl rfl
  outCount := h.outCount
  outRead := h.outRead
  rdResult := h.rdResult
  noError := h.noError
  chanPhase := h.chanPhase
  state := h.state.congr rfl rfl rfl rfl rfl rfl rfl rfl rfl rfl rfl rfl rfl rfl rfl rfl (fun _ => rfl)
  unseen := h.unseen
  settled := h.settled

/-- What the invariant says of a run in progress. -/
theorem Inv.busy {s : State} (h : Inv s) (hb : s.status.state = .busy) :
    s.status.err = none ∧ s.docLen.toNat ≤ s.params.inSizeMax ∧ RunOk s := by
  have := h.state
  simpa only [StateOk, hb] using this

/-- What the invariant says at the start of channel `c`: the payload is present, and just the earlier channels have
buffers. -/
theorem RunOk.at_chanStart {s : State} {c : Chan} (hr : RunOk s) (hs : s.seq = .chanStart c) :
    PayloadOk s ∧ s.out = [] ∧ (∀ d, s.cbCap.get d ≠ 0 ↔ d.toNat < c.toNat) := by
  simp only [RunOk, hs] at hr
  cases c
  · obtain ⟨-, h2, h3, h4⟩ := hr
    exact ⟨h2, h4, fun d => by rw [h3]; cases d <;> simp [Chan.toNat]⟩
  · obtain ⟨-, -, h3, h4, h5, h6, h7⟩ := hr
    exact ⟨h3, h7, fun d => by (cases d <;> simp [Chan.toNat, h5, h6]); exact h4⟩
  · obtain ⟨-, -, h3, h4, h5, h6, h7⟩ := hr
    exact ⟨h3, h7, fun d => by cases d <;> simp [Chan.toNat, h6] <;> first | exact h4 | exact h5⟩

theorem memRead_congr {s t : State} (h : ∀ a, inByte t a = inByte s a) (a n : Nat) : memRead t a n = memRead s a n := by
  induction n generalizing a with
  | zero => rfl
  | succ n ih => simp [memRead, h, ih]

/-- With no move pending, the step is the engine's. -/
theorem step_of_no_host {s : State} (h : s.host = []) : step s = engineStep s := by
  simp [step, hostOrEngineStep, h]

/-- An engine step of a run is the one `seq` names. -/
theorem engineStep_of_busy {s : State} (hb : s.status.state = .busy) (hd : s.docLen.toNat ≤ s.params.inSizeMax) :
    engineStep s = runSeq s.drawNext := by
  simp [engineStep, hb]; omega

theorem run_succ {s u : State} (n : Nat) (h : step s = .next u) :
    Host.Core.run core (n + 1) s = Host.Core.run core n u := by
  have e : core.step s = .next u := h
  simp only [Host.Core.run]; rw [e]

theorem run_add (n m : Nat) {s u : State} (h : Host.Core.run core n s = .next u) :
    Host.Core.run core (n + m) s = Host.Core.run core m u := by
  induction n generalizing s with
  | zero => cases h; simp
  | succ n ih =>
    rw [show n + 1 + m = (n + m) + 1 by omega]
    simp only [Host.Core.run] at h ⊢
    split at h
    · exact ih h
    · cases h
    · cases h

end Sys2Proof.Safety
end

