-- ==== Sys2Proof/Laws/PerInstr.lean ====
section
/-! SUPPORT. Statements made of every instruction, one lemma per constructor. Family TableRow: the word of a well-formed
instruction carries the fixed fields and the operands of its row of the opcode table (30_encoding.md R82, R88, R89). -/

namespace Sys2Proof.Laws.TableRow

/-- A pair word with control byte `ctrl` and value byte `val`. -/
def pairIs (e : EncWord) (ctrl : Byte → Prop) (val : Byte) : Prop :=
  ∃ w, e = .pair w ∧ ctrl (pairCtrl w) ∧ pairVal w = val

/-- A command word with opcode `op` and channel field `ch`. -/
def cmdIs (e : EncWord) (op : BitVec 4) (ch : BitVec 2) : Prop := ∃ w, e = .cmd w ∧ cmdOp w = op ∧ cmdCh w = ch

/-- What the row of an instruction fixes, of its word. -/
def Row : Instr → EncWord → Prop
  | .lit val, e => pairIs e (fun c => c = 0x00) val
  | .rep ctrl val, e => pairIs e (fun c => c = ctrl ∧ 0x81 ≤ c.toNat) val
  | .illegal ctrl val, e => pairIs e (fun c => c = ctrl ∧ 1 ≤ c.toNat ∧ c.toNat ≤ 0x7F) val
  | .illegal80 val, e => pairIs e (fun c => c = 0x80) val
  | .nop, e => cmdIs e 0 0
  | .start, e => cmdIs e 1 0
  | .clear, e => cmdIs e 2 0
  | .read c, e => cmdIs e 3 c.bits
  | .readReserved, e => cmdIs e 3 3
  | .cmdReserved op, e => 4 ≤ op.toNat ∧ cmdIs e op 0

def Statement (i : Instr) : Prop := i.wf = true → Row i (encode i)

theorem pairIs_encode {ctrl val : Byte} {p : Byte → Prop} (h : p ctrl) : pairIs (encodePair ctrl val) p val :=
  ⟨_, rfl, by rwa [pairCtrl_append], pairVal_append _ _⟩

theorem cmdIs_encode (ch : BitVec 2) (op : BitVec 4) : cmdIs (encodeCmd ch op) op ch :=
  ⟨_, rfl, cmdOp_fields _ _ _, cmdCh_fields _ _ _⟩

theorem lit (val : Byte) : Statement (.lit val) := fun _ =>
  pairIs_encode (p := fun c => c = 0x00) rfl

theorem rep (ctrl val : Byte) : Statement (.rep ctrl val) := fun h =>
  pairIs_encode (p := fun c => c = ctrl ∧ 0x81 ≤ c.toNat) ⟨rfl, by simpa [Instr.wf, wfRepCtrl] using h⟩

theorem illegal (ctrl val : Byte) : Statement (.illegal ctrl val) := fun h =>
  pairIs_encode (p := fun c => c = ctrl ∧ 1 ≤ c.toNat ∧ c.toNat ≤ 0x7F)
    ⟨rfl, by simpa [Instr.wf, wfIllegalCtrl] using h⟩

theorem illegal80 (val : Byte) : Statement (.illegal80 val) := fun _ =>
  pairIs_encode (p := fun c => c = 0x80) rfl

theorem nop : Statement .nop := fun _ => cmdIs_encode _ _

theorem start : Statement .start := fun _ => cmdIs_encode _ _

theorem clear : Statement .clear := fun _ => cmdIs_encode _ _

theorem read (c : Chan) : Statement (.read c) := fun _ => cmdIs_encode _ _

theorem readReserved : Statement .readReserved := fun _ => cmdIs_encode _ _

theorem cmdReserved (op : BitVec 4) : Statement (.cmdReserved op) := fun h =>
  ⟨by simpa [Instr.wf, wfReservedOp] using h, cmdIs_encode _ _⟩

end Sys2Proof.Laws.TableRow
end

