-- ==== Sys2Proof/Machine/HostText.lean ====
section
/-! DEFINITION. The host's reference formatting (45_raster_interleaver.md R236), which is not block behaviour: a function
of a DONE state. TEXT_TAG and TEXT_EOL are OPEN (00_scope.md R5) and are arguments. -/

namespace Sys2Proof.Machine

/-- The decimal digits of `n` before `acc`, with at most `fuel` of them. -/
def decDigits : Nat → Nat → List Byte → List Byte
  | 0, _, acc => acc
  | fuel + 1, n, acc =>
    let acc' := BitVec.ofNat 8 (0x30 + n % 10) :: acc
    if n < 10 then acc' else decDigits fuel (n / 10) acc'

/-- `dec(n)`: ASCII decimal, no sign, no leading zeros (R236). -/
def dec (n : Nat) : List Byte := decDigits (n + 1) n []

/-- One line of R236: a triple's three components. -/
def tripleLine (eol : List Byte) (t : Pixel) : List Byte :=
  dec (t.extractLsb' 16 8).toNat ++ [0x20] ++ dec (t.extractLsb' 8 8).toNat ++ [0x20]
    ++ dec (t.extractLsb' 0 8).toNat ++ eol

/-- The text pixel-map of R236. -/
def hostText (tag eol : List Byte) (s : State) : List Byte :=
  tag ++ eol ++ dec s.width.toNat ++ [0x20] ++ dec s.height.toNat ++ eol ++ dec maxVal ++ eol
    ++ s.out.flatMap (tripleLine eol)

end Sys2Proof.Machine
end

