-- ==== Sys2Proof/Tests/Slice0.lean ====
section
/-! SUPPORT. Tests. Expected results are written out from the spec, by the rule or vector each comment names. The witness
theorems show, for each obligation that has hypotheses, concrete states that meet them, clause by clause. -/

namespace Sys2Proof.Tests

open Sys2Proof.Machine Sys2Proof.Safety

/-! ### Helpers -/

def nextOf : Host.Outcome State Fault Refusal → Option State
  | .next s => some s
  | .fault _ => none
  | .refused _ => none

/-- 30_encoding.md R97: a document of one pixel, 1 by 1, whose channels are `LIT 16`, `LIT 32`, `LIT 48`: 52 bytes. -/
def docBytes : List Byte :=
  headerBytes 1 1 ++ tableBytes [2, 2, 2] ++ pairsBytes [.lit 16, .lit 32, .lit 48]

def docMem : Memory := Memory.load [] 0 docBytes

/-- IDLE, with that document loaded. -/
def idleDoc : State := { State.reset with inMem := docMem, docLen := 52 }

/-- BUSY over that document, with engine step `q` next. -/
def running (q : Seq) (p : Phase) : State :=
  { idleDoc with
    status := { state := .busy, phase := p, chan := .c0, err := none, cmdRej := false }, seq := q, statusRead := false }

/-- About to run the HDR phase. -/
def atHeader : State := running .hdr .none

/-- Past PAYLOAD, about to start channel 0. -/
def atChannel : State :=
  { running (.chanStart .c0) .payload with width := 1, height := 1, totalSize := 6, chSize := ⟨2, 2, 2⟩ }

/-- In channel 0's pair loop, about to fetch at 46. -/
def atPair : State :=
  { running .pairs .dec with
    width := 1, height := 1, totalSize := 6, chSize := ⟨2, 2, 2⟩, pos := 46, endPos := 48, cbCap := ⟨256, 0, 0⟩ }

/-- In some state, with a host move due. -/
def withMove (st : RunState) (m : HostMove) : State :=
  { State.reset with status := { Status.zero with state := st }, host := [{ after := 0, move := m }] }

/-- Stopped in a state, no move pending. -/
def inState (st : RunState) : State := { State.reset with status := { Status.zero with state := st } }

/-- Buffers of one value each, in a state. -/
def withBuffers (st : RunState) : State :=
  { inState st with cb := ⟨[16], [32], [48]⟩, cbLen := ⟨1, 1, 1⟩, cbCap := ⟨256, 256, 256⟩ }

/-! ### WellFormed refuses ill-formed terms (30_encoding.md R82, R89) -/

theorem test_wf_rep_80 : (Instr.rep 0x80 1).wf = false := by decide
theorem test_wf_rep_00 : (Instr.rep 0x00 1).wf = false := by decide
theorem test_wf_illegal_00 : (Instr.illegal 0x00 1).wf = false := by decide
theorem test_wf_illegal_80 : (Instr.illegal 0x80 1).wf = false := by decide
theorem test_wf_reserved_3 : (Instr.cmdReserved 3).wf = false := by decide
theorem test_wf_bounds : (Instr.rep 0x81 0).wf = true ∧ (Instr.illegal 0x01 0).wf = true ∧
    (Instr.illegal 0x7F 0).wf = true ∧ (Instr.cmdReserved 4).wf = true := by decide

/-! ### Words written out from 30_encoding.md R81, R82, R88, R89 -/

theorem test_decode_lit : decodeTableWord 16 0b0000000000010000 = some (.lit 16) := by decide
theorem test_decode_rep : decodeTableWord 16 0b1111110100000111 = some (.rep 0xFD 7) := by decide
theorem test_decode_rep_low : decodeTableWord 16 0b1000000111111111 = some (.rep 0x81 0xFF) := by decide
theorem test_decode_illegal : decodeTableWord 16 0b0000010100000110 = some (.illegal 0x05 0x06) := by decide
theorem test_decode_illegal80 : decodeTableWord 16 0b1000000000001001 = some (.illegal80 0x09) := by decide
theorem test_decode_nop : decodeTableWord 8 0b000000 = some .nop := by decide
theorem test_decode_start : decodeTableWord 8 0b110001 = some .start := by decide
theorem test_decode_clear : decodeTableWord 32 0b010 = some .clear := by decide
theorem test_decode_read : decodeTableWord 32 0b10_0011 = some (.read .c2) := by decide
theorem test_decode_read_reserved : decodeTableWord 32 0b11_0011 = some .readReserved := by decide
theorem test_decode_cmd_reserved : decodeTableWord 32 0b1111 = some (.cmdReserved 0xF) := by decide
theorem test_decode_width : decodeTableWord 0 0 = none ∧ decodeTableWord 64 0 = none := by decide
theorem test_decode_bytes : decodeBytes [0xFD, 0x07, 0x00] = .ok (.rep 0xFD 0x07, [0x00]) := by rfl
theorem test_decode_truncated : decodeBytes [0xFD] = .error .pairTruncated := by rfl

/-! ### One step of each instruction, from the rules' own examples -/

/-- R183: `00 10` appends one value 16. -/
theorem test_lit : (nextOf (exec (.lit 0x10) atPair)).map (fun t => (t.cb.c0, t.cbLen.c0, t.pos)) =
    some ([16], 1, 48) := by decide

/-- R184: `FD 07` appends 7, 7, 7, 7. -/
theorem test_rep : (nextOf (exec (.rep 0xFD 0x07) atPair)).map (fun t => (t.cb.c0, t.cbLen.c0, t.cnt, t.pos)) =
    some ([7, 7, 7, 7], 4, 0, 48) := by decide

/-- R184, R212: the appends before the exhausted one stay. -/
theorem test_rep_exhausted :
    (nextOf (exec (.rep 0xFD 0x07) { atPair with params := { inSizeMax := 52, cbLenMax := 3 } })).map
      (fun t => (t.cb.c0, statusWord t.status, t.errInfo, t.errAddr, t.pos)) =
    some ([7, 7, 7], 0x00500044, 0, 46, 46) := by decide

/-- R185: `05 06` at offset 48 in channel 1 gives 0x30, 0x105, 48. -/
theorem test_illegal :
    (nextOf (exec (.illegal 0x05 0x06)
      { atPair with status := { atPair.status with chan := .c1 }, pos := 48, endPos := 50 })).map
      (fun t => (statusWord t.status, t.errInfo, t.errAddr, t.pos)) =
    some (0x00300143, 0x105, 48, 48) := by decide

/-- R186: `80 00` at offset 46 in channel 0 gives 0x080, 46. -/
theorem test_illegal80 : (nextOf (exec (.illegal80 0x00) atPair)).map (fun t => (t.errInfo, t.errAddr)) =
    some (0x080, 46) := by decide

/-- R110: STATUS 0x01000062 stays. -/
theorem test_nop :
    (nextOf (exec (decodeCmd 0x00000000)
      { State.reset with status := { state := .done, phase := .asm, chan := .c0, err := none, cmdRej := true } })).map
      (fun t => statusWord t.status) = some 0x01000062 := by decide

/-- R111: in IDLE, `0x00000001` gives BUSY. -/
theorem test_start : (nextOf (exec (decodeCmd 0x00000001) idleDoc)).map (fun t => t.status.state) = some .busy := by decide

/-- R111, D4: a document longer than IN is rejected. -/
theorem test_start_too_long :
    (nextOf (exec .start { idleDoc with params := { inSizeMax := 51, cbLenMax := 1 } })).map
      (fun t => statusWord t.status) = some 0x01000000 := by decide

/-- R112: in ERROR with ERR_CODE 0x30, `0x00000002` gives STATUS 0. -/
theorem test_clear :
    (nextOf (exec (decodeCmd 0x00000002) { withBuffers .error with
      status := { state := .error, phase := .dec, chan := .c1, err := some .invalidControlByte, cmdRej := true } })).map
      (fun t => (statusWord t.status, t.cbLen, t.cbCap)) = some (0, ⟨0, 0, 0⟩, ⟨0, 0, 0⟩) := by decide

/-- R113: RD_INDEX 1 and CMD 0x00000023 give RD_RESULT 0x00010020. -/
theorem test_read :
    (nextOf (exec (decodeCmd 0x00000023) { withBuffers .done with
      cb := ⟨[16, 32], [16, 32], [16, 32]⟩, cbLen := ⟨2, 2, 2⟩, rdIndex := 1 })).map
      (fun t => rdResultWord t.rdResult) = some 0x00010020 := by decide

/-- V-SRC-9: an index at the length gives 0x00030000. -/
theorem test_read_oob :
    (nextOf (exec (.read .c0) { withBuffers .done with rdIndex := 1 })).map (fun t => rdResultWord t.rdResult) =
      some 0x00030000 := by decide

/-- R114: READ with CH 3 sets STATUS to 0x01000000 in IDLE. -/
theorem test_read_reserved :
    (nextOf (exec (decodeCmd 0x00000033) State.reset)).map (fun t => statusWord t.status) = some 0x01000000 := by decide

/-- R114: `0x0000000F` sets STATUS to 0x01000000 in IDLE. -/
theorem test_cmd_reserved :
    (nextOf (exec (decodeCmd 0x0000000F) State.reset)).map (fun t => statusWord t.status) = some 0x01000000 := by decide

/-! ### One engine step of each phase -/

/-- R140: DOC_LEN 10 gives STATUS 0x00100013, ERR_INFO 40. -/
theorem test_header_short :
    (nextOf (engineStep { atHeader with docLen := 10 })).map (fun t => (statusWord t.status, t.errInfo, t.errAddr)) =
      some (0x00100013, 40, 0) := by decide

/-- V-SRC-6: byte 3 `00` to `FF`. -/
theorem test_signature :
    (nextOf (engineStep { atHeader with inMem := docMem.write 3 0xFF })).map
      (fun t => (statusWord t.status, t.errInfo, t.errAddr)) = some (0x00200013, 0x6A8701FF, 3) := by decide

/-- V-SRC-7: width bytes `27 11`. -/
theorem test_width_bound :
    (nextOf (engineStep { atHeader with inMem := (docMem.write 8 0x27).write 9 0x11 })).map
      (fun t => (statusWord t.status, t.errInfo, t.errAddr, t.width)) = some (0x00210013, 0x2711, 8, 10001) := by decide

/-- R161: H = 3 and DOC_LEN = 57 give 58 and 40. -/
theorem test_table_short :
    (nextOf (engineStep { running .lt .hdr with height := 3, docLen := 57 })).map
      (fun t => (statusWord t.status, t.errInfo, t.errAddr)) = some (0x00100023, 58, 40) := by decide

/-- L-2: entry bytes `01 02` are 258. -/
theorem test_table_entry :
    (nextOf (engineStep { running .lt .hdr with
      height := 1, inMem := Memory.load docMem 40 [0x01, 0x02, 0, 0, 0, 0] })).map
      (fun t => (t.chSize.c0, t.totalSize, t.status.phase)) = some (258, 258, .lt) := by decide

/-- R181: CH_SIZE0 = 3 with P0 = 46 gives 0x32 and 48. -/
theorem test_odd_size :
    (nextOf (engineStep { atChannel with chSize := ⟨3, 2, 1⟩ })).map
      (fun t => (statusWord t.status, t.errInfo, t.errAddr, t.cbCap.c0)) = some (0x00320043, 0, 48, 0) := by decide

/-- R190: lengths 2, 2, 1 give 0x31 and PHASE CHK. -/
theorem test_chk :
    (nextOf (engineStep { running .chk .dec with cbLen := ⟨2, 2, 1⟩ })).map (fun t => statusWord t.status) =
      some 0x00310053 := by decide

/-- V-SRC-5: lengths 1 and W·H = 2 give 0x33 and PHASE ASM. -/
theorem test_raster_size :
    (nextOf (engineStep { running .asmCheck .chk with width := 2, height := 1, cbLen := ⟨1, 1, 1⟩ })).map
      (fun t => statusWord t.status) = some 0x00330063 := by decide

/-- R232: channel 0 is in the top byte of a triple. -/
theorem test_emit :
    (nextOf (engineStep { withBuffers .busy with seq := .emit, width := 1, height := 1 })).map
      (fun t => (t.out, t.outCount)) = some ([0x102030], 1) := by decide

/-- R212: with CB_LEN0 = CB_CAP0 = 256, an append gives 257 and 512. -/
theorem test_growth :
    let t := cbPush .c0 9 { State.reset with cbLen := ⟨256, 0, 0⟩, cbCap := ⟨256, 0, 0⟩ }
    (t.cbLen.c0, t.cbCap.c0) = (257, 512) := by decide

/-- 10_state.md R24, R44: the window's offsets. -/
theorem test_window : regAt 0x28 = .chSize .c2 ∧ regAt 0x34 = .cbLen .c1 ∧ regAt 0x40 = .cbCap .c0 ∧
    regAt 0x54 = .rdResult ∧ regAt 0x2C = .reserved ∧ regAt 0x60 = .reserved := by decide

/-- R236: numbers in decimal, no leading zeros: 0, 32 and 255. -/
theorem test_text : tripleLine [0x0A] 0x0020FF = [0x30, 0x20, 0x33, 0x32, 0x20, 0x32, 0x35, 0x35, 0x0A] := by decide

/-- R95: `RUN 300, v` is `REP 128, v; REP 128, v; REP 44, v`, and `RUN 129, v` ends in a LIT. -/
theorem test_run : asmRun 300 7 = [.rep 0x81 7, .rep 0x81 7, .rep 0xD5 7] ∧ asmRun 129 7 = [.rep 0x81 7, .lit 7] := by
  decide

/-! ### Placing an instruction where step fetches it -/

theorem test_place_pair :
    (nextOf (step (State.reset.withFetchWord 16 0xFD07))).map (fun t => (t.cb.c0, t.pos)) =
      some ([7, 7, 7, 7], 48) := by decide

theorem test_place_command :
    (nextOf (step (State.reset.withFetchWord 8 0b110001))).map (fun t => t.status.state) = some .busy := by decide

/-! ### Witnesses of the command statements -/

theorem wit_NopChangesNothing : (cmdOp 0xFFFFFFF0).toNat = 0 ∧ (cmdOp 0x00000000).toNat = 0 := by decide

/-- The words the command statements' encoding clauses are about, at the ends of their ranges. -/
theorem wit_command_words : (cmdOp 0xFFFFFFF0).toNat = 0 ∧ (cmdOp 0x31).toNat = 1 ∧ (cmdOp 0x12).toNat = 2 ∧
    ((cmdOp 0x03).toNat = 3 ∧ (cmdCh 0x03).toNat = Chan.c0.toNat) ∧
    ((cmdOp 0x23).toNat = 3 ∧ (cmdCh 0x23).toNat = Chan.c2.toNat) ∧
    ((cmdOp 0x33).toNat = 3 ∧ (cmdCh 0x33).toNat = 3) ∧ 4 ≤ (cmdOp 0x34).toNat ∧ 4 ≤ (cmdOp 0x0F).toNat := by decide

theorem wit_StartZeroesResultsOrIsRejected :
    (idleDoc.status.state = .idle ∧ idleDoc.docLen.toNat ≤ idleDoc.params.inSizeMax) ∧
    (let s := { idleDoc with params := { inSizeMax := 52, cbLenMax := 1 } };
      s.status.state = .idle ∧ s.docLen.toNat ≤ s.params.inSizeMax) ∧
    (let s := { idleDoc with params := { inSizeMax := 51, cbLenMax := 1 } };
      ¬ (s.status.state = .idle ∧ s.docLen.toNat ≤ s.params.inSizeMax)) ∧
    ¬ (atHeader.status.state = .idle ∧ atHeader.docLen.toNat ≤ atHeader.params.inSizeMax) := by decide

theorem wit_ClearReleasesAndZeroesOrIsRejected :
    (inState .idle).status.state = .idle ∧ (inState .done).status.state = .done ∧
    (inState .error).status.state = .error ∧ (inState .busy).status.state = .busy ∧
    (inState .fatal).status.state = .fatal := by decide

theorem wit_ReadIsBoundsCheckedOrIsRejected :
    ((cmdOp 0x33).toNat = 3 ∧ (cmdCh 0x33).toNat = 3) ∧
    (let s := withBuffers .error;
      s.status.state = .error ∧ s.rdIndex.toNat < (s.cbLen.get .c2).toNat ∧ (s.cb.get .c2)[s.rdIndex.toNat]? = some 48) ∧
    (let s := { withBuffers .done with rdIndex := 1 };
      s.status.state = .done ∧ (s.cbLen.get .c2).toNat ≤ s.rdIndex.toNat) ∧
    (let s := { withBuffers .idle with rdIndex := 0xFFFFFFFF };
      s.status.state = .idle ∧ (s.cbLen.get .c2).toNat ≤ s.rdIndex.toNat) ∧
    (withBuffers .fatal).status.state = .fatal := by decide

theorem wit_ReservedCommandsOnlySetCmdRej : (Instr.cmdReserved 4).wf = true ∧ (Instr.cmdReserved 15).wf = true := by decide

theorem wit_BusyRejectsEveryCommandButNop :
    (inState .busy).status.state = .busy ∧ Instr.nop.isPair = false ∧ Instr.nop.wf = true ∧
    Instr.start.isPair = false ∧ Instr.start.wf = true ∧ Instr.start ≠ .nop := by decide

theorem wit_CmdRejTellsARejectedCommand :
    (∃ t, exec .nop State.reset = .next t) ∧ (∃ t, exec .start State.reset = .next t) ∧
    (∃ t, exec .start (inState .fatal) = .next t) ∧ Instr.start.isPair = false := ⟨⟨_, rfl⟩, ⟨_, rfl⟩, ⟨_, rfl⟩, rfl⟩

theorem wit_CommandsKeepTheirFrame :
    (∃ t, exec (.read .c0) (withBuffers .done) = .next t) ∧ (∃ t, exec .start State.reset = .next t) ∧
    (∃ t, exec .clear (withBuffers .done) = .next t) ∧ (Instr.read .c0).isPair = false ∧
    Instr.read .c0 ≠ .start ∧ Instr.read .c0 ≠ .clear ∧ (∀ c, Instr.start ≠ .read c) :=
  ⟨⟨_, rfl⟩, ⟨_, rfl⟩, ⟨_, rfl⟩, rfl, nofun, nofun, nofun⟩

theorem wit_FatalIsLeftOnlyByReset :
    let s := withMove .fatal (.write 0x00 4 2)
    s.status.state = .fatal ∧ (∃ t, step s = .next t) ∧ dueMove s ≠ some .reset ∧ dueMove s ≠ some .powerOn :=
  ⟨rfl, ⟨_, rfl⟩, by decide, by decide⟩

theorem wit_FatalHidesBufferContents :
    (∃ t, step (withMove .fatal (.write 0x00 4 3)) = .next t) ∧
    step (withMove .fatal (.load 0xFFFFFFFF [0])) = .fault .inOffsetAbsent ∧
    step (withMove .fatal (.read 0x00 1)) = .refused .hostAccessNotWord ∧
    (inState .fatal).status.state = .fatal := ⟨⟨_, rfl⟩, rfl, rfl, rfl⟩

/-! ### Witnesses of the host's statements -/

theorem wit_RegisterWritesFollowTheirRules :
    (withMove .idle (.write 0x10 4 9)).host = { after := 0, move := .write 0x10 4 9 } :: [] ∧
    (withMove .idle (.write 0x10 4 9)).status.state ≠ .busy ∧ (withMove .busy (.write 0x10 4 9)).status.state = .busy ∧
    (0x10 % 4 = 0 ∧ 0x50 % 4 = 0 ∧ 0x04 % 4 = 0 ∧ 0x60 % 4 = 0) := by decide

/-- Both sides of the host's read of STATUS: results visible in DONE after it, not in DONE before it, not while BUSY. -/
theorem wit_RegisterReadsReturnTheMap :
    (withMove .done (.read 0x28 4)).host = { after := 0, move := .read 0x28 4 } :: [] ∧ 0x28 % 4 = 0 ∧
    0x28 = 0x20 + 4 * Chan.c2.toNat ∧ 0x30 = 0x30 + 4 * Chan.c0.toNat ∧ 0x48 = 0x40 + 4 * Chan.c2.toNat ∧
    (0x60 ≤ 0x60 ∧ 0x60 % 4 = 0) ∧
    ((withMove .done (.read 0x28 4)).status.state ≠ .busy ∧ (withMove .done (.read 0x28 4)).statusRead = true) ∧
    (let s := { withMove .done (.read 0x28 4) with statusRead := false }; s.statusRead = false ∧ s.status.state ≠ .busy) ∧
    (withMove .busy (.read 0x04 4)).status.state = .busy ∧ 0x58 ∈ [0x08, 0x0C, 0x14, 0x18, 0x1C, 0x58] := by decide

/-- R284, 70_reset_and_hazards.md: a run ends; WIDTH reads as a free value, until STATUS has been read, and then exactly. -/
theorem test_read_before_status :
    (nextOf (hostAct (.read 0x14 4) { inState .done with statusRead := false, width := 2 })).map (fun t => t.seen) =
      some [.word 0x14 (Config.earlyRead 0 0x14)] := rfl

theorem test_read_after_status :
    (((nextOf (hostAct (.read 0x04 4) { inState .done with statusRead := false, width := 2 })).bind
      fun t => nextOf (hostAct (.read 0x14 4) t)).map fun t => t.seen) = some [.word 0x04 2, .word 0x14 2] := by decide

theorem wit_NonWordAccessIsRefused : ¬ (2 = 4 ∧ 0x04 % 4 = 0) ∧ ¬ (4 = 4 ∧ 0x06 % 4 = 0) ∧ ¬ (8 = 4 ∧ 0x08 % 4 = 0) ∧
    (withMove .idle (.write 0x06 4 0)).host = { after := 0, move := .write 0x06 4 0 } :: [] ∧
    (withMove .idle (.read 0x04 2)).host = { after := 0, move := .read 0x04 2 } :: [] := by decide

theorem wit_LoadBeforeStartIsSeenByTheRun :
    let s := withMove .idle (.load 0xFFFFFFFE [1])
    s.host = { after := 0, move := .load 0xFFFFFFFE [1] } :: [] ∧ 0xFFFFFFFE + [(1 : Byte)].length ≤ s.params.inSizeMax ∧
    s.status.state = .idle ∧ s.docLen.toNat ≤ s.params.inSizeMax ∧ [(1 : Byte)][0]? = some 1 := by decide

theorem wit_BytesLoadedWhileBusyReadFreely :
    let s := withMove .busy (.load 46 [1, 2])
    s.host = { after := 0, move := .load 46 [1, 2] } :: [] ∧ 46 + [(1 : Byte), 2].length ≤ s.params.inSizeMax ∧
    s.status.state = .busy := by decide

theorem wit_HostMovesFallBetweenEngineSteps :
    dueMove State.reset = none ∧ dueMove { State.reset with host := [{ after := 1, move := .reset }] } = none ∧
    dueMove (withMove .idle .reset) = some .reset ∧ dueMove (withMove .busy .poll) = none ∧
    dueMove (withMove .done .poll) = some .poll := by decide

theorem wit_ResetMoveRestoresAllButIn :
    (withMove .busy .reset).host = { after := 0, move := .reset } :: [] ∧
    (withMove .fatal .reset).host = { after := 0, move := .reset } :: [] := by decide

/-! ### Witnesses of the encoding statements -/

theorem wit_DecodeOfEncodeIsTheInstruction : (Instr.rep 0x81 0xFF).wf = true ∧ (Instr.illegal 0x7F 0).wf = true ∧
    (Instr.cmdReserved 15).wf = true ∧ (Instr.read .c2).wf = true := by decide

theorem wit_CommandWordReservedBitsAreIgnored : (0#4).toNat = 0 ∧ (1#4).toNat = 1 ∧ (2#4).toNat = 2 ∧ (3#4).toNat = 3 ∧
    (0#2).toNat = Chan.c0.toNat ∧ (2#2).toNat = Chan.c2.toNat ∧ (3#2).toNat = 3 ∧ 4 ≤ (4#4).toNat ∧
    4 ≤ (15#4).toNat := by decide

theorem wit_ControlByteSelectsTheKind : (0x00#8).toNat = 0 ∧ (1 ≤ (0x01#8).toNat ∧ (0x01#8).toNat ≤ 0x7F) ∧
    (1 ≤ (0x7F#8).toNat ∧ (0x7F#8).toNat ≤ 0x7F) ∧ (0x80#8).toNat = 0x80 ∧ 0x81 ≤ (0x81#8).toNat ∧
    0x81 ≤ (0xFF#8).toNat := by decide

theorem wit_RepeatCountIs257MinusCtrl : 0x81 ≤ (0x81#8).toNat ∧ 0x81 ≤ (0xFF#8).toNat := by decide

/-! ### Witnesses of the pair and buffer statements -/

/-- `atPair` with room for `n` values in a buffer. -/
def withRoom (n : Nat) : State := { atPair with params := { inSizeMax := 52, cbLenMax := n } }

theorem wit_LitAppendsItsValueOnce :
    ((withRoom 1).cbLen.get .c0).toNat ≠ (withRoom 1).params.cbLenMax ∧ (withRoom 1).status.chan = .c0 ∧
    (let s := { withRoom 1 with cb := ⟨[9], [], []⟩, cbLen := ⟨1, 0, 0⟩ };
      (s.cbLen.get .c0).toNat = s.params.cbLenMax) := by decide

theorem wit_RepAppendsItsRun : (Instr.rep 0x81 5).wf = true ∧ 128 = 257 - (0x81#8).toNat ∧
    (withRoom 128).params.Legal ∧ ((withRoom 128).cbLen.get .c0).toNat + 128 ≤ (withRoom 128).params.cbLenMax ∧
    IsCapacityFor ((withRoom 128).cbLen.get .c0).toNat ((withRoom 128).cbCap.get .c0).toNat :=
  ⟨by decide, by decide, by decide, by decide, isCapacity_new⟩

theorem wit_RepThatDoesNotFitIsExhausted : (Instr.rep 0x81 5).wf = true ∧ (withRoom 127).params.Legal ∧
    ((withRoom 127).cbLen.get .c0).toNat ≤ (withRoom 127).params.cbLenMax ∧
    (withRoom 127).params.cbLenMax < ((withRoom 127).cbLen.get .c0).toNat + (257 - (0x81#8).toNat) := by decide

theorem wit_IllegalPairsRaiseInvalidControlByte : (Instr.illegal 0x01 0).wf = true ∧ (Instr.illegal 0x7F 0).wf = true ∧
    (Instr.illegal80 0).wf = true := by decide

theorem wit_PairsKeepTheirFrame :
    let s := { withRoom 2 with cb := ⟨[9], [], []⟩, cbLen := ⟨1, 0, 0⟩ }
    (∃ t, exec (.lit 5) s = .next t) ∧ (Instr.lit 5).isPair = true ∧
    (s.cb.get .c0).length = (s.cbLen.get .c0).toNat ∧ (s.cbLen.get .c0).toNat ≤ s.params.cbLenMax ∧ s.params.Legal ∧
    (0 : W32).toNat < (s.cbLen.get .c0).toNat := ⟨⟨_, rfl⟩, by decide⟩

theorem wit_RunExpansionAppendsNCopies : 1 ≤ 1 ∧ (withRoom 129).status.state = .busy ∧ (withRoom 129).params.Legal ∧
    ((withRoom 129).cbLen.get .c0).toNat + 129 ≤ (withRoom 129).params.cbLenMax := by decide

theorem wit_AppendedValuesAreReadBack : (withRoom 2).params.Legal ∧ [(16 : Byte), 32].length ≤ (withRoom 2).params.cbLenMax ∧
    [(16 : Byte), 32][(1 : W32).toNat]? = some 32 ∧ [(16 : Byte), 32].length ≤ (2 : W32).toNat := by decide

/-! ### Witnesses of the engine's statements -/

theorem wit_StepRunsThePairAtPos : dueMove atPair = none ∧ atPair.status.state = .busy ∧ atPair.seq = .pairs ∧
    atPair.pos.toNat < atPair.endPos.toNat ∧ atPair.pos.toNat + 2 ≤ atPair.docLen.toNat ∧
    atPair.docLen.toNat ≤ atPair.params.inSizeMax := by decide

theorem wit_StepRunsTheCommandWritten :
    (withMove .idle (.write 0x00 4 1)).host = { after := 0, move := .write 0x00 4 1 } :: [] := by decide

theorem wit_EngineIsIdleUnlessBusy : State.reset.status.state ≠ .busy := by decide

/-- The premises, and each clause: a short document, a mismatch at each end of the signature, and dimensions at and above
the bound. -/
theorem wit_HeaderPhaseChecksInOrder :
    (atHeader.status.state = .busy ∧ atHeader.seq = .hdr ∧ atHeader.docLen.toNat ≤ atHeader.params.inSizeMax) ∧
    (39#32).toNat < 40 ∧ 40 ≤ (40#32).toNat ∧
    (let s := { atHeader with inMem := docMem.write 0 0x6B };
      some (inByte s.drawNext 0) ≠ [0x6A#8, 0x87, 0x01, 0x00][0]?) ∧
    (let s := { atHeader with inMem := docMem.write 3 0x01 };
      (∀ j < 3, some (inByte s.drawNext j) = [0x6A#8, 0x87, 0x01, 0x00][j]?) ∧
      some (inByte s.drawNext 3) ≠ [0x6A#8, 0x87, 0x01, 0x00][3]?) ∧
    (inByte atHeader.drawNext 0 = 0x6A ∧ inByte atHeader.drawNext 1 = 0x87 ∧ inByte atHeader.drawNext 2 = 0x01 ∧
      inByte atHeader.drawNext 3 = 0x00) ∧
    (nextOf (engineStep { atHeader with inMem := Memory.load docMem 8 [0x27, 0x11] })).map (fun t => t.width.toNat) =
      some 10001 ∧
    (nextOf (engineStep { atHeader with inMem := Memory.load docMem 8 [0x27, 0x10, 0, 0, 0x27, 0x11] })).map
      (fun t => (t.width.toNat, t.height.toNat)) = some (10000, 10001) ∧
    (nextOf (engineStep { atHeader with inMem := Memory.load docMem 8 [0x27, 0x10, 0, 0, 0x27, 0x10] })).map
      (fun t => (t.width.toNat, t.height.toNat)) = some (10000, 10000) := by decide

theorem wit_HeaderPhaseCreatesNoBuffer : atHeader.status.state = .busy ∧ atHeader.seq = .hdr ∧
    (∃ t, engineStep atHeader = .next t) ∧ (∀ c, atHeader.cbCap.get c = 0) :=
  ⟨rfl, rfl, ⟨_, rfl⟩, fun c => by cases c <;> rfl⟩

theorem wit_HeaderGapBytesAffectNothing :
    (∀ a ∈ [0, 1, 2, 3, 8, 9, 12, 13],
      inByte { atHeader.drawNext with inMem := Memory.load docMem 4 [0xFF, 0x12, 0xAB, 0xCD] } a =
        inByte atHeader.drawNext a) ∧
    Memory.load docMem 4 [0xFF, 0x12, 0xAB, 0xCD] ≠ docMem ∧ atHeader.status.state = .busy ∧ atHeader.seq = .hdr := by
  decide

theorem wit_LengthTablePhaseSumsEntries :
    let s := { running .lt .hdr with width := 1, height := 3 }
    s.status.state = .busy ∧ s.seq = .lt ∧ s.docLen.toNat ≤ s.params.inSizeMax ∧ s.height.toNat ≤ 10000 ∧
    (57#32).toNat < 40 + 6 * s.height.toNat ∧ 40 + 6 * s.height.toNat ≤ (58#32).toNat := by decide

theorem tableOk_atPayload (n : W32) (h : 46 ≤ n.toNat) :
    TableOk { atChannel with seq := .payload, docLen := n } where
  width := (by decide : (1#16).toNat ≤ dimMax)
  height := (by decide : (1#16).toNat ≤ dimMax)
  docLen := le_trans (by decide) h
  sizes c := show ((⟨2, 2, 2⟩ : PerChan W32).get c).toNat ≤ 65535 * (1#16).toNat by cases c <;> decide
  total := by rfl
  table := h

theorem wit_PayloadPhaseChecksPresence :
    TableOk { atChannel with seq := .payload, docLen := 51 } ∧ TableOk { atChannel with seq := .payload, docLen := 52 } ∧
    atChannel.status.state = .busy ∧ (52#32).toNat ≤ atChannel.params.inSizeMax ∧
    (51#32).toNat < 40 + 6 * atChannel.height.toNat + atChannel.totalSize.toNat ∧
    40 + 6 * atChannel.height.toNat + atChannel.totalSize.toNat ≤ (52#32).toNat :=
  ⟨tableOk_atPayload _ (by decide), tableOk_atPayload _ (by decide), by decide⟩

theorem payloadOk_atChannel : PayloadOk atChannel where
  width := by decide
  height := by decide
  docLen := by decide
  sizes c := by cases c <;> decide
  total := by decide
  table := by decide
  payload := by decide

theorem payloadOk_odd : PayloadOk { atChannel with chSize := ⟨2, 2, 1⟩, totalSize := 5 } where
  width := by decide
  height := by decide
  docLen := by decide
  sizes c := by cases c <;> decide
  total := by decide
  table := by decide
  payload := by decide

theorem wit_ChannelStartChecksSizeAndCreatesBuffer :
    (PayloadOk atChannel ∧ atChannel.status.state = .busy ∧ atChannel.seq = .chanStart .c0 ∧
      atChannel.docLen.toNat ≤ atChannel.params.inSizeMax ∧ atChannel.params.Legal ∧
      (atChannel.chSize.get .c0).toNat % 2 = 0) ∧
    (PayloadOk { atChannel with chSize := ⟨2, 2, 1⟩, totalSize := 5 } ∧
      ((⟨2, 2, 1⟩ : PerChan W32).get .c2).toNat % 2 = 1) :=
  ⟨⟨payloadOk_atChannel, by decide⟩, payloadOk_odd, by decide⟩

theorem wit_ChannelsFollowOneAnother :
    let s := { atPair with pos := 48 }
    s.status.state = .busy ∧ s.seq = .pairs ∧ s.docLen.toNat ≤ s.params.inSizeMax ∧ s.pos = s.endPos ∧
    s.status.chan = .c0 := by decide

theorem wit_CrossChannelCheckComparesLengths :
    let s := running .chk .dec
    s.status.state = .busy ∧ s.seq = .chk ∧ s.docLen.toNat ≤ s.params.inSizeMax ∧
    (∀ c d, s.cbLen.get c = s.cbLen.get d) ∧
    ¬ (∀ c d, (⟨2, 2, 1⟩ : PerChan W32).get c = (⟨2, 2, 1⟩ : PerChan W32).get d) :=
  ⟨by decide, by decide, by decide, fun c d => by cases c <;> cases d <;> rfl, fun h => absurd (h .c0 .c2) (by decide)⟩

theorem wit_RasterSizeCheckComparesArea :
    let s := { running .asmCheck .chk with width := 1, height := 1, cbLen := ⟨1, 1, 1⟩ }
    s.status.state = .busy ∧ s.seq = .asmCheck ∧ s.docLen.toNat ≤ s.params.inSizeMax ∧
    s.cbLen.c0.toNat = s.width.toNat * s.height.toNat ∧ (2#32).toNat ≠ s.width.toNat * s.height.toNat := by decide

theorem wit_EmissionAppendsTriplesThenCompletes :
    let s := { withBuffers .busy with seq := .emit, width := 1, height := 1 }
    s.status.state = .busy ∧ s.seq = .emit ∧ s.docLen.toNat ≤ s.params.inSizeMax ∧
    s.i.toNat < s.width.toNat * s.height.toNat ∧ cbRead s .c0 s.i = (true, 16) ∧ cbRead s .c1 s.i = (true, 32) ∧
    cbRead s .c2 s.i = (true, 48) ∧ s.width.toNat * s.height.toNat ≤ (1#32).toNat := by decide

/-! ### Witnesses of the whole-machine statements -/

theorem docMem_wf : docMem.wf := Memory.wf_load List.Pairwise.nil 0 docBytes

theorem docMem_bound : ∀ x ∈ docMem, x.1 < Config.defaultParams.inSizeMax := fun x hx => by
  rcases Memory.mem_load hx with h | h
  · exact lt_trans (lt_of_lt_of_eq h.2 (by decide : 0 + docBytes.length = 52)) (by decide)
  · exact absurd h (List.not_mem_nil)

/-- A state over `docMem`, with nothing released or appended, meets the invariant if its STATUS does. -/
theorem inv_over_doc {s : State} (h1 : s.params = Config.defaultParams) (h2 : s.inMem = docMem) (h3 : s.raced = [])
    (h4 : s.cb = ⟨[], [], []⟩ ∧ s.cbLen = ⟨0, 0, 0⟩ ∧ s.cbCap = ⟨0, 0, 0⟩)
    (h5 : s.out = [] ∧ s.outCount = 0 ∧ s.outRead = 0) (h6 : s.rdResult = RdResult.zero)
    (h7 : s.errInfo = 0 ∧ s.errAddr = 0 ∧ s.status.chan = .c0) (h8 : StateOk s)
    (h9 : (s.status.state = .busy → s.statusRead = false) ∧ (s.status.state = .idle → s.statusRead = true)) :
    Safety.Inv s where
  params := by rw [h1]; decide
  memory := by rw [h2]; exact docMem_wf
  inBound := by rw [h1, h2]; exact docMem_bound
  raced := by rw [h3]; exact List.Pairwise.nil
  buffers c := bufferOk_released h4.1 h4.2.1 h4.2.2 c
  outCount := by rw [h5.1, h5.2.1]; rfl
  outRead := by rw [h5.2.2]; exact Nat.zero_le _
  rdResult := by rw [h6]; nofun
  noError _ := ⟨h7.1, h7.2.1⟩
  chanPhase _ := h7.2.2
  state := h8
  unseen := h9.1
  settled := h9.2

theorem inv_idleDoc : Safety.Inv idleDoc :=
  inv_over_doc rfl rfl rfl ⟨rfl, rfl, rfl⟩ ⟨rfl, rfl, rfl⟩ rfl ⟨rfl, rfl, rfl⟩
    ⟨rfl, rfl, ⟨rfl, rfl, rfl, rfl, rfl, rfl⟩, rfl, rfl⟩ ⟨nofun, fun _ => rfl⟩

/-- The clause of ReadIsBoundsCheckedOrIsRejected that rests on the invariant: in IDLE, and at the last index. -/
theorem wit_ReadIsBoundsCheckedOrIsRejected_inv : (Safety.Inv idleDoc ∧ idleDoc.status.state = .idle) ∧
    Safety.Inv { idleDoc with rdIndex := 0xFFFFFFFF } :=
  ⟨⟨inv_idleDoc, rfl⟩, inv_over_doc rfl rfl rfl ⟨rfl, rfl, rfl⟩ ⟨rfl, rfl, rfl⟩ rfl ⟨rfl, rfl, rfl⟩
    ⟨rfl, rfl, ⟨rfl, rfl, rfl, rfl, rfl, rfl⟩, rfl, rfl⟩ ⟨nofun, fun _ => rfl⟩⟩

theorem inv_atHeader : Safety.Inv atHeader :=
  inv_over_doc rfl rfl rfl ⟨rfl, rfl, rfl⟩ ⟨rfl, rfl, rfl⟩ rfl ⟨rfl, rfl, rfl⟩
    ⟨rfl, by decide, rfl, ⟨rfl, rfl, rfl, rfl, rfl, rfl⟩, rfl⟩ ⟨fun _ => rfl, nofun⟩

theorem inv_atChannel : Safety.Inv atChannel :=
  inv_over_doc rfl rfl rfl ⟨rfl, rfl, rfl⟩ ⟨rfl, rfl, rfl⟩ rfl ⟨rfl, rfl, rfl⟩
    ⟨rfl, by decide, rfl, payloadOk_atChannel, rfl, rfl⟩ ⟨fun _ => rfl, nofun⟩

theorem wit_EveryStepKeepsTheInvariant : Safety.Inv atHeader ∧ ∃ t, step atHeader = .next t := ⟨inv_atHeader, _, rfl⟩

theorem wit_EngineStepsNeverStop : Safety.Inv atHeader ∧ Safety.Inv atChannel := ⟨inv_atHeader, inv_atChannel⟩

theorem wit_EveryEngineStepComesNearerTheEnd : Safety.Inv atHeader ∧ atHeader.status.state = .busy ∧
    ∃ t, engineStep atHeader = .next t := ⟨inv_atHeader, rfl, _, rfl⟩

theorem wit_EveryRunEndsWithinTheBound : Safety.Inv atHeader ∧ atHeader.status.state = .busy ∧ atHeader.host = [] :=
  ⟨inv_atHeader, rfl, rfl⟩

theorem wit_PhaseNeverDecreasesWithinARun : Safety.Inv atHeader ∧ atHeader.status.state = .busy ∧
    (∃ t, step atHeader = .next t) ∧ dueMove atHeader ≠ some .reset ∧ dueMove atHeader ≠ some .powerOn :=
  ⟨inv_atHeader, rfl, ⟨_, rfl⟩, by decide, by decide⟩

theorem wit_ChannelDecodeIsExpansion : Safety.Inv atChannel ∧ atChannel.status.state = .busy ∧
    atChannel.seq = .chanStart .c0 ∧ atChannel.host = [] ∧ atChannel.raced = [] ∧
    expand (subStream atChannel .c0) = some [16] ∧ [(16 : Byte)].length ≤ atChannel.params.cbLenMax :=
  ⟨inv_atChannel, rfl, rfl, rfl, rfl, by decide, by decide⟩

/-- The document with channel 0's pair made illegal: byte 46 is `b`. -/
def illegalAt (b : Byte) : State := { atChannel with inMem := docMem.write 46 b }

theorem inBound_illegalAt (b : Byte) : ∀ x ∈ docMem.write 46 b, x.1 < Config.defaultParams.inSizeMax := fun x hx => by
  rcases Memory.mem_write hx with rfl | h
  · exact (by decide : 46 < Config.defaultParams.inSizeMax)
  · exact docMem_bound x h

theorem inv_atChannel_over {m : Memory} (hw : m.wf) (hb : ∀ x ∈ m, x.1 < Config.defaultParams.inSizeMax) :
    Safety.Inv { atChannel with inMem := m } where
  params := inv_atChannel.params
  memory := hw
  inBound := hb
  raced := inv_atChannel.raced
  buffers c := (inv_atChannel.buffers c).congr rfl rfl rfl rfl
  outCount := inv_atChannel.outCount
  outRead := inv_atChannel.outRead
  rdResult := inv_atChannel.rdResult
  noError := inv_atChannel.noError
  chanPhase := inv_atChannel.chanPhase
  state := inv_atChannel.state.congr rfl rfl rfl rfl rfl rfl rfl rfl rfl rfl rfl rfl rfl rfl rfl rfl (fun _ => rfl)
  unseen := inv_atChannel.unseen
  settled := inv_atChannel.settled

theorem inv_illegalAt (b : Byte) : Safety.Inv (illegalAt b) :=
  inv_atChannel_over (Memory.wf_write docMem_wf 46 b) (inBound_illegalAt b)

theorem illegalAt_premises (b : Byte) : Safety.Inv (illegalAt b) ∧ (illegalAt b).status.state = .busy ∧
    (illegalAt b).seq = .chanStart .c0 ∧ (illegalAt b).host = [] ∧ (illegalAt b).raced = [] ∧
    ((illegalAt b).chSize.get .c0).toNat % 2 = 0 ∧ 2 * 0 + 2 ≤ ((illegalAt b).chSize.get .c0).toNat ∧
    ([] : List Byte).length ≤ (illegalAt b).params.cbLenMax :=
  ⟨inv_illegalAt b, rfl, rfl, rfl, rfl, (by decide : (2#32).toNat % 2 = 0), (by decide : 2 * 0 + 2 ≤ (2#32).toNat),
    Nat.zero_le _⟩

/-- All premises together are `illegalAt_premises` at the same byte and the rest here, at both ends of the range. -/
theorem wit_FirstIllegalPairEndsTheRun : Safety.Inv (illegalAt 0x01) ∧ Safety.Inv (illegalAt 0x80) ∧
    (expand ((subStream (illegalAt 0x01) .c0).take (2 * 0)) = some [] ∧
      (subStream (illegalAt 0x01) .c0)[2 * 0]? = some 0x01 ∧ 1 ≤ (0x01 : Byte).toNat ∧ (0x01 : Byte).toNat ≤ 0x80) ∧
    (expand ((subStream (illegalAt 0x80) .c0).take (2 * 0)) = some [] ∧
      (subStream (illegalAt 0x80) .c0)[2 * 0]? = some 0x80 ∧ 1 ≤ (0x80 : Byte).toNat ∧ (0x80 : Byte).toNat ≤ 0x80) :=
  ⟨inv_illegalAt _, inv_illegalAt _, by decide, by decide⟩

theorem wit_WellFormedDocumentIsRendered : Safety.Inv idleDoc ∧ idleDoc.status.state = .idle ∧ idleDoc.host = [] ∧
    ∃ u, exec .start idleDoc = .next u ∧ GoodDocument u 1 1 ⟨2, 2, 2⟩ [16] [32] [48] := by
  refine ⟨inv_idleDoc, rfl, rfl, idleDoc.beginRun, rfl, ?_⟩
  constructor <;> decide

theorem wit_NoPartialOutput : Safety.Inv { atHeader with docLen := 39 } ∧
    (∃ t, step { atHeader with docLen := 39 } = .next t ∧ t.status.state = .error) :=
  ⟨inv_over_doc rfl rfl rfl ⟨rfl, rfl, rfl⟩ ⟨rfl, rfl, rfl⟩ rfl ⟨rfl, rfl, rfl⟩
    ⟨rfl, by decide, rfl, ⟨rfl, rfl, rfl, rfl, rfl, rfl⟩, rfl⟩ ⟨fun _ => rfl, nofun⟩, _, rfl, rfl⟩

/-- The clause of OutIsAppendOnlyUntilClearOrReset about a read of OUT: a triple there, and none left. -/
theorem wit_OutIsAppendOnlyUntilClearOrReset_read :
    let s := { withMove .done .readOut with out := [0x102030] }
    s.host = { after := 0, move := .readOut } :: [] ∧ s.out[s.outRead]? = some 0x102030 ∧ s.status.state ≠ .busy ∧
    s.statusRead = true ∧ { s with outRead := 1 }.out[1]? = none := by decide

theorem wit_OutIsAppendOnlyUntilClearOrReset :
    let s := { idleDoc with host := [{ after := 0, move := .write 0x00 4 1 }] }
    Safety.Inv s ∧ (∃ t, step s = .next t) ∧ dueMove s ≠ some .reset ∧ dueMove s ≠ some .powerOn ∧
    (∀ off bytes w, dueMove s = some (.write off bytes w) → decodeCmd w ≠ .clear) :=
  ⟨inv_idleDoc.with_host _, ⟨_, rfl⟩, by decide, by decide, fun _ _ w h => by
    have : w = 1 := by
      have h' : some (HostMove.write 0x00 4 1) = some (HostMove.write _ _ w) := h
      injection h' with h'; injection h' with _ _ h'; exact h'.symm
    rw [this]; decide⟩

theorem wit_OnlyTheHostChangesIn : (∃ t, step atHeader = .next t) ∧ (∀ a data, dueMove atHeader ≠ some (.load a data)) ∧
    dueMove atHeader ≠ some .powerOn := ⟨⟨_, rfl⟩, nofun, by decide⟩

theorem wit_NoCommandEndsARunOrRewritesAnError :
    (let s := withMove .busy (.write 0x00 4 2);
      dueMove s = some (.write 0x00 4 2) ∧ s.status.state = .busy ∧ ∃ t, step s = .next t) ∧
    (let s := withMove .error (.write 0x00 4 1);
      dueMove s = some (.write 0x00 4 1) ∧ s.status.state = .error ∧ decodeCmd 1 ≠ .clear ∧ ∃ t, step s = .next t) :=
  ⟨⟨by decide, rfl, _, rfl⟩, by decide, rfl, by decide, _, rfl⟩

end Sys2Proof.Tests
end

section
/-! SUPPORT. Proofs of the statements about the state (10_state.md): the packed words STATUS and RD_RESULT, reset, the register
window as the host reads and writes it, and the frames of the commands and of the pairs. -/

namespace Sys2Proof.Machine

open Sys2Proof.Safety

/-! ### Packed words as numbers (10_state.md R26 to R31, R42) -/

theorem toNat_append_eq {n m : Nat} (x : BitVec n) (y : BitVec m) : (x ++ y).toNat = 2 ^ m * x.toNat + y.toNat := by
  rw [BitVec.toNat_append, ← Nat.shiftLeft_add_eq_or_of_lt y.isLt, Nat.shiftLeft_eq, Nat.mul_comm]

theorem extractLsb'_eq_of_toNat {w i n : Nat} {x : BitVec w} {y : BitVec n} (h : x.toNat / 2 ^ i % 2 ^ n = y.toNat) :
    x.extractLsb' i n = y := by
  apply BitVec.eq_of_toNat_eq
  rw [BitVec.extractLsb'_toNat, Nat.shiftRight_eq_div_pow, h]

theorem getLsbD_eq_of_toNat {w i : Nat} {x : BitVec w} {b : Bool} (h : x.toNat / 2 ^ i % 2 = b.toNat) :
    x.getLsbD i = b := by
  rw [← BitVec.testBit_toNat, Nat.testBit_eq_decide_div_mod_eq, h]
  cases b <;> rfl

/-- 10_state.md R26 to R30: the weights of the fields of STATUS. -/
theorem statusWord_toNat (st : Status) : (statusWord st).toNat =
    2 ^ 24 * st.cmdRej.toNat + 2 ^ 16 * (errCodeField st.err).toNat + 2 ^ 8 * st.chan.bits.toNat +
      2 ^ 4 * (phaseCode st.phase).toNat + (runStateCode st.state).toNat := by
  unfold statusWord
  simp only [toNat_append_eq, BitVec.toNat_ofBool, BitVec.toNat_ofNat]
  omega

/-- 10_state.md R26 to R31: STATUS holds its fields side by side, and 0 between them. -/
theorem statusWord_layout (st : Status) :
    (statusWord st).extractLsb' 0 3 = runStateCode st.state ∧ (statusWord st).extractLsb' 4 3 = phaseCode st.phase ∧
    (statusWord st).extractLsb' 8 2 = st.chan.bits ∧ (statusWord st).extractLsb' 16 8 = errCodeField st.err ∧
    (statusWord st).getLsbD 24 = st.cmdRej ∧
    (statusWord st).getLsbD 3 = false ∧ (statusWord st).getLsbD 7 = false ∧
    (statusWord st).extractLsb' 10 6 = 0#6 ∧ (statusWord st).extractLsb' 25 7 = 0#7 := by
  have hstate := (runStateCode st.state).isLt
  have hphase := (phaseCode st.phase).isLt
  have hchan := st.chan.bits.isLt
  have herr := (errCodeField st.err).isLt
  have hrej := st.cmdRej.toNat_le
  refine ⟨extractLsb'_eq_of_toNat ?_, extractLsb'_eq_of_toNat ?_, extractLsb'_eq_of_toNat ?_, extractLsb'_eq_of_toNat ?_,
    getLsbD_eq_of_toNat ?_, getLsbD_eq_of_toNat ?_, getLsbD_eq_of_toNat ?_,
    extractLsb'_eq_of_toNat ?_, extractLsb'_eq_of_toNat ?_⟩ <;>
  · simp only [statusWord_toNat, BitVec.toNat_ofNat, Bool.toNat_false]
    omega

/-- Settles O13: the word has the layout, and each field's code is the number the rules give. -/
theorem statusWordIsLaidOutAsGiven : Obligations.StatusWordIsLaidOutAsGiven := by
  intro st
  obtain ⟨hstate, hphase, hchan, herr, hrest⟩ := statusWord_layout st
  rw [hstate, hphase, hchan, herr]
  refine ⟨?_, ?_, ?_, ?_, hrest⟩
  · cases st.state <;> rfl
  · cases st.phase <;> rfl
  · cases st.chan <;> rfl
  · rcases st.err with _ | e
    · rfl
    · cases e <;> rfl

/-- 10_state.md R42: the weights of the fields of RD_RESULT. -/
theorem rdResultWord_toNat (r : RdResult) :
    (rdResultWord r).toNat = 2 ^ 17 * r.oob.toNat + 2 ^ 16 * r.done.toNat + r.value.toNat := by
  unfold rdResultWord
  simp only [toNat_append_eq, BitVec.toNat_ofBool, BitVec.toNat_ofNat]
  omega

/-- Settles O14, from the weights of the fields. -/
theorem rdResultIsLaidOutAsGiven : Obligations.RdResultIsLaidOutAsGiven := by
  intro r
  have hvalue := r.value.isLt
  have hdone := r.done.toNat_le
  have hoob := r.oob.toNat_le
  refine ⟨extractLsb'_eq_of_toNat ?_, getLsbD_eq_of_toNat ?_, getLsbD_eq_of_toNat ?_,
    extractLsb'_eq_of_toNat (y := 0#8) ?_, extractLsb'_eq_of_toNat (y := 0#14) ?_⟩ <;>
  · simp only [rdResultWord_toNat, BitVec.toNat_ofNat]
    omega

/-! ### Reset (10_state.md R50) -/

/-- Settles O19: each field of `State.reset` is the literal R50 gives, and the two packed words of zero fields are 0. -/
theorem resetLeavesTheGivenValues : Obligations.ResetLeavesTheGivenValues := by
  have hperChan (c : Chan) :
      State.reset.chSize.get c = 0 ∧ State.reset.cbLen.get c = 0 ∧ State.reset.cbCap.get c = 0 :=
    ⟨PerChan.get_mk 0 c, PerChan.get_mk 0 c, PerChan.get_mk 0 c⟩
  exact ⟨rfl, rfl, rfl, rfl, rfl, rfl, rfl, hperChan, rfl, rfl, rfl, rfl, rfl, rfl, rfl, rfl, rfl, rfl⟩

/-- At reset STATE is IDLE and every result is 0. -/
theorem stateOk_reset : StateOk State.reset := ⟨rfl, rfl, ⟨rfl, rfl, rfl, rfl, rfl, rfl⟩, rfl, rfl⟩

/-- Settles O48, clause by clause of the invariant; the released buffers by `bufferOk_released`. -/
theorem resetMeetsTheInvariant : Obligations.ResetMeetsTheInvariant where
  params := by decide
  memory := List.Pairwise.nil
  inBound := nofun
  raced := List.Pairwise.nil
  buffers := bufferOk_released rfl rfl rfl
  outCount := rfl
  outRead := Nat.le_refl _
  rdResult := nofun
  noError _ := ⟨rfl, rfl⟩
  chanPhase _ := rfl
  state := stateOk_reset
  unseen := nofun
  settled _ := rfl

/-! ### The host's word accesses (10_state.md R24, R25, R44, R45; 20_memory.md R66) -/

/-- 40_pipeline_control.md R122: a step with a due move that does not wait is that move. -/
theorem step_of_due {s : State} {m : HostMove} {rest : List HostEntry} (h : s.host = { after := 0, move := m } :: rest)
    (hw : pollWaits m s = false) : step s = hostAct m { s with host := rest } := by
  simp [step, hostOrEngineStep, h, hw]

theorem hostAct_write_cmd (w : W32) (s : State) : hostAct (.write 0x00 4 w) s = exec (decodeCmd w) s := rfl

/-- Settles O36: the due move is the write, which never waits. -/
theorem stepRunsTheCommandWritten : Obligations.StepRunsTheCommandWritten := by
  intro s rest w h
  rw [step_of_due h rfl, hostAct_write_cmd]

theorem hostAct_read_word {off : Nat} (ha : off % 4 = 0) (s : State) :
    hostAct (.read off 4) s = .next (regRead off s) := by
  simp [hostAct, wordAccess, ha]

/-- What a read returns and leaves does not depend on the pending moves. -/
theorem regRead_with_host (off : Nat) (s : State) (rest : List HostEntry) :
    regRead off { s with host := rest } = { s with
      host := rest, seen := s.seen ++ [.word off (hostReadValue s off)], statusRead := statusReadAfter off s,
      draw := s.draw + 1 } := rfl

theorem step_of_due_read {s : State} {rest : List HostEntry} {off : Nat}
    (h : s.host = { after := 0, move := .read off 4 } :: rest) (ha : off % 4 = 0) :
    step s = .next { s with
      host := rest, seen := s.seen ++ [.word off (hostReadValue s off)], statusRead := statusReadAfter off s,
      draw := s.draw + 1 } := by
  rw [step_of_due h rfl, hostAct_read_word ha, regRead_with_host]

/-- 10_state.md R24: STATUS stands at offset 0x04 only. -/
theorem regAt_eq_status_iff {off : Nat} : regAt off = .status ↔ off = 0x04 := by
  refine ⟨fun h => ?_, fun h => h ▸ rfl⟩
  unfold regAt at h
  split at h <;> cases h
  rfl

@[simp] theorem regAt_chSize (c : Chan) : regAt (0x20 + 4 * c.toNat) = .chSize c := by cases c <;> rfl
@[simp] theorem regAt_cbLen (c : Chan) : regAt (0x30 + 4 * c.toNat) = .cbLen c := by cases c <;> rfl
@[simp] theorem regAt_cbCap (c : Chan) : regAt (0x40 + 4 * c.toNat) = .cbCap c := by cases c <;> rfl

/-- 10_state.md R44: every offset from 0x60 on is reserved. -/
theorem regAt_of_ge {off : Nat} (h : 0x60 ≤ off) : regAt off = .reserved := by
  unfold regAt
  split
  case h_21 => rfl
  all_goals omega

/-- 10_state.md R44: the reserved offsets. -/
theorem regAt_eq_reserved {off : Nat} (h : off = 0x2C ∨ off = 0x3C ∨ off = 0x4C ∨ off = 0x5C ∨ 0x60 ≤ off) :
    regAt off = .reserved := by
  rcases h with rfl | rfl | rfl | rfl | h
  iterate 4 rfl
  exact regAt_of_ge h

/-- 10_state.md R45: the offsets of the registers the engine writes. -/
theorem engineWritten_regAt {off : Nat} (h : off ∈ [0x08, 0x0C, 0x14, 0x18, 0x1C, 0x58] ∨
    ∃ c : Chan, off = 0x20 + 4 * c.toNat ∨ off = 0x30 + 4 * c.toNat ∨ off = 0x40 + 4 * c.toNat) :
    engineWritten (regAt off) = true := by
  rcases h with h | ⟨c, rfl | rfl | rfl⟩
  · revert off; decide
  · rw [regAt_chSize]; rfl
  · rw [regAt_cbLen]; rfl
  · rw [regAt_cbCap]; rfl

/-- 20_memory.md R69: only a read of STATUS tells the host that the run is over. -/
theorem statusReadAfter_iff (off : Nat) (s : State) :
    statusReadAfter off s = true ↔ s.statusRead = true ∨ (off = 0x04 ∧ s.status.state ≠ .busy) := by
  simp [statusReadAfter, regAt_eq_status_iff]

/-- 10_state.md R44: a reserved offset reads 0. -/
theorem hostReadValue_reserved {s : State} {off : Nat} (h : regAt off = .reserved) : hostReadValue s off = 0 := by
  rw [hostReadValue_exact (by rw [h]; rfl), h]; rfl

/-- 10_state.md R24, 20_memory.md R69 (b): once the results are visible, an engine-written register reads exactly. -/
theorem hostReadValue_results {s : State} (hb : s.status.state ≠ .busy) (hr : s.statusRead = true) (off : Nat) :
    (off = 0x08 → hostReadValue s off = s.errInfo) ∧ (off = 0x0C → hostReadValue s off = s.errAddr) ∧
    (off = 0x14 → (hostReadValue s off).toNat = s.width.toNat) ∧
    (off = 0x18 → (hostReadValue s off).toNat = s.height.toNat) ∧
    (off = 0x1C → hostReadValue s off = s.totalSize) ∧
    (∀ c : Chan, (off = 0x20 + 4 * c.toNat → hostReadValue s off = s.chSize.get c) ∧
      (off = 0x30 + 4 * c.toNat → hostReadValue s off = s.cbLen.get c) ∧
      (off = 0x40 + 4 * c.toNat → hostReadValue s off = s.cbCap.get c)) ∧
    (off = 0x58 → hostReadValue s off = s.outCount) := by
  have hzext (v : Half) : (v.zeroExtend 32).toNat = v.toNat := BitVec.toNat_setWidth_of_le (by decide)
  rw [hostReadValue_visible off hb hr]
  refine ⟨?_, ?_, ?_, ?_, ?_, fun c => ⟨?_, ?_, ?_⟩, ?_⟩ <;> rintro rfl
  case refine_3 => exact hzext s.width
  case refine_4 => exact hzext s.height
  case refine_6 => rw [regAt_chSize]; rfl
  case refine_7 => rw [regAt_cbLen]; rfl
  case refine_8 => rw [regAt_cbCap]; rfl
  all_goals rfl

/-- Settles O12: the step is the read of the word, which returns `hostReadValue`. -/
theorem registerReadsReturnTheMap : Obligations.RegisterReadsReturnTheMap := by
  intro s rest off hhost ha
  refine ⟨hostReadValue s off, statusReadAfter off s, step_of_due_read hhost ha, statusReadAfter_iff off s,
    ?_, ?_, ?_, ?_, ?_, fun hres => hostReadValue_reserved (regAt_eq_reserved hres),
    fun hb hr => hostReadValue_results hb hr off, fun hv hoff => hostReadValue_early (engineWritten_regAt hoff) hv⟩ <;>
  · rintro rfl
    exact hostReadValue_exact rfl

/-! ### CMD_REJ (10_state.md R30) -/

/-- 40_pipeline_control.md R112, R113: CLEAR and READ are accepted in neither BUSY nor FATAL. -/
theorem resultState_iff {st : RunState} : resultState st = true ↔ st ≠ .busy ∧ st ≠ .fatal := by
  cases st <;> decide

/-- Settles O7, from what a command can do. -/
theorem cmdRejTellsARejectedCommand : Obligations.CmdRejTellsARejectedCommand := by
  intro i s t hcmd h
  rcases exec_command_cases hcmd h with
    ⟨rfl, rfl⟩ | ⟨hi, rfl⟩ | ⟨rfl, hidle, hfits, rfl⟩ | ⟨rfl, hstate, rfl⟩ | ⟨c, r, rfl, hstate, -, rfl⟩
  · exact ⟨fun _ => rfl, fun hne => absurd rfl hne⟩
  · exact ⟨fun he => absurd he hi, fun _ => .inr rfl⟩
  · exact ⟨nofun, fun _ => .inl ⟨rfl, .inl ⟨rfl, hidle, hfits⟩⟩⟩
  · exact ⟨nofun, fun _ => .inl ⟨rfl, .inr ⟨.inl rfl, resultState_iff.mp hstate⟩⟩⟩
  · exact ⟨nofun, fun _ => .inl ⟨rfl, .inr ⟨.inr ⟨c, rfl⟩, resultState_iff.mp hstate⟩⟩⟩

/-! ### What appends leave unchanged (44_channel_buffer.md R212, R215) -/

/-- `t`'s buffer `c` is `s`'s with values appended, as many as CB_LEN_MAX has room for. -/
def AppendsThatFit (c : Chan) (s t : State) : Prop :=
  ∃ vs : List Byte, t.cb.get c = s.cb.get c ++ vs ∧ t.cbLen.get c = s.cbLen.get c + BitVec.ofNat 32 vs.length ∧
    (s.cbLen.get c).toNat + vs.length ≤ s.params.cbLenMax

theorem appendsThatFit_of_unchanged {c : Chan} {s t : State} (hlen : (s.cbLen.get c).toNat ≤ s.params.cbLenMax)
    (h1 : t.cb = s.cb) (h2 : t.cbLen = s.cbLen) : AppendsThatFit c s t :=
  ⟨[], by simp [h1], by simp [h2], hlen⟩

theorem appendsThatFit_push {c : Chan} (v : Byte) {s : State} (hlen : (s.cbLen.get c).toNat < s.params.cbLenMax) :
    AppendsThatFit c s (cbPush c v s) :=
  ⟨[v], by simp, by simp, hlen⟩

theorem appendsThatFit_pushes {c : Chan} (v : Byte) {n : Nat} {s : State}
    (hlen : (s.cbLen.get c).toNat + n ≤ s.params.cbLenMax) : AppendsThatFit c s (pushes c v n s) :=
  ⟨List.replicate n v, by simp [pushes], by simp [pushes], by simpa using hlen⟩

/-- R184: a run appends what fits, whether it ends or raises. -/
theorem appendRun_appendsThatFit {c : Chan} {v : Byte} {n : Nat} {s u : State} (hmax : s.params.cbLenMax ≤ 2 ^ 31)
    (hlen : (s.cbLen.get c).toNat ≤ s.params.cbLenMax)
    (h : appendRun c v n s = .ok u ∨ appendRun c v n s = .raised u) : AppendsThatFit c s u := by
  rcases Nat.lt_or_ge s.params.cbLenMax ((s.cbLen.get c).toNat + n) with hover | hfits
  · rw [appendRun_raised c v n s hmax hlen hover] at h
    rcases h with h | h <;> cases h
    exact appendsThatFit_pushes v (by omega)
  · rw [appendRun_ok c v n s hmax hfits] at h
    rcases h with h | h <;> cases h
    exact appendsThatFit_pushes v hfits

/-- R215: values appended within CB_LEN_MAX leave every index already written as it was. -/
theorem AppendsThatFit.cbRead_eq {c : Chan} {s t : State} {k : W32} (h : AppendsThatFit c s t)
    (hmax : s.params.cbLenMax ≤ 2 ^ 31) (hcb : (s.cb.get c).length = (s.cbLen.get c).toNat)
    (hk : k.toNat < (s.cbLen.get c).toNat) : cbRead t c k = cbRead s c k := by
  obtain ⟨vs, hbuf, hcount, hfit⟩ := h
  have hlen : (t.cbLen.get c).toNat = (s.cbLen.get c).toNat + vs.length := by
    rw [hcount, BitVec.toNat_add, BitVec.toNat_ofNat]; omega
  have hks : k < s.cbLen.get c := hk
  have hkt : k < t.cbLen.get c := by rw [BitVec.lt_def]; omega
  rw [cbRead, cbRead, if_pos hks, if_pos hkt, hbuf, List.getElem?_append_left (by omega)]

theorem cbRead_congr {s t : State} {c : Chan} (h1 : t.cb.get c = s.cb.get c) (h2 : t.cbLen.get c = s.cbLen.get c)
    (k : W32) : cbRead t c k = cbRead s c k := by
  simp only [cbRead, h1, h2]

/-- R212: appending to one buffer leaves the others. -/
theorem Grown.other_channels {c d : Chan} {s u : State} (h : Grown c s u) (hd : d ≠ c) :
    u.cb.get d = s.cb.get d ∧ u.cbLen.get d = s.cbLen.get d ∧ u.cbCap.get d = s.cbCap.get d := by
  obtain ⟨vs, cap, k, rfl⟩ := h.shape
  exact ⟨PerChan.get_set_ne _ _ _ _ hd, PerChan.get_set_ne _ _ _ _ hd, PerChan.get_set_ne _ _ _ _ hd⟩

/-! ### The frame of the pairs (43_rle_decoder.md R183 to R186) -/

/-- `exec_pair_cases` in one form: a pair appends to its channel's buffer, perhaps nothing, and then advances or raises. -/
theorem exec_pair_grown {i : Instr} {s t : State} (hp : i.isPair = true) (h : exec i s = .next t) :
    ∃ u, Grown s.status.chan s u ∧ (t = { u with pos := s.pos + 2 } ∨
      (∃ info, t = u.raise .invalidControlByte info s.pos) ∨ ∃ info, t = u.raise .resourceExhaustion info s.pos) := by
  rcases exec_pair_cases hp h with ⟨u, hu, rfl⟩ | ⟨u, hu, rfl⟩ | ⟨ctrl, rfl⟩
  · exact ⟨u, hu, .inl rfl⟩
  · exact ⟨u, hu, .inr (.inr ⟨_, rfl⟩)⟩
  · exact ⟨s, Grown.refl _ s s.cnt, .inr (.inl ⟨_, rfl⟩)⟩

/-- Only REP writes `cnt`. -/
theorem exec_pair_keeps_cnt {i : Instr} {s t : State} (hp : i.isPair = true) (h : exec i s = .next t)
    (hr : ∀ x y, i ≠ .rep x y) : t.cnt = s.cnt := by
  cases i with
  | lit v =>
    simp only [exec, execLit] at h
    rcases cbAppend_cases s.status.chan v s with ⟨-, ha⟩ | ⟨-, ha⟩ <;> rw [ha] at h <;> cases h <;> rfl
  | rep x y => exact absurd rfl (hr x y)
  | illegal _ _ => cases h; rfl
  | illegal80 _ => cases h; rfl
  | _ => cases hp

theorem exec_pair_appendsThatFit {i : Instr} {s t : State} (hp : i.isPair = true) (h : exec i s = .next t)
    (hmax : s.params.cbLenMax ≤ 2 ^ 31) (hlen : (s.cbLen.get s.status.chan).toNat ≤ s.params.cbLenMax) :
    AppendsThatFit s.status.chan s t := by
  cases i with
  | lit v =>
    simp only [exec, execLit] at h
    rcases cbAppend_cases s.status.chan v s with ⟨-, ha⟩ | ⟨hne, ha⟩ <;> rw [ha] at h <;> cases h
    · exact appendsThatFit_of_unchanged hlen rfl rfl
    · exact appendsThatFit_push v (lt_of_le_of_ne hlen hne)
  | rep ctrl v =>
    simp only [exec, execRep] at h
    have hfit (u : State) := appendRun_appendsThatFit (v := v) (n := repCount ctrl) (u := u)
      (s := { s with cnt := BitVec.ofNat 8 (repCount ctrl) }) hmax hlen
    cases hrun : appendRun s.status.chan v (repCount ctrl) { s with cnt := BitVec.ofNat 8 (repCount ctrl) } with
    | ok u => rw [hrun] at h; cases h; exact hfit u (.inl hrun)
    | raised u => rw [hrun] at h; cases h; exact hfit _ (.inr hrun)
  | illegal _ _ => cases h; exact appendsThatFit_of_unchanged hlen rfl rfl
  | illegal80 _ => cases h; exact appendsThatFit_of_unchanged hlen rfl rfl
  | _ => cases hp

theorem exec_pair_other_channels {i : Instr} {s t : State} (hp : i.isPair = true) (h : exec i s = .next t) {c : Chan}
    (hc : c ≠ s.status.chan) :
    t.cb.get c = s.cb.get c ∧ t.cbLen.get c = s.cbLen.get c ∧ t.cbCap.get c = s.cbCap.get c := by
  obtain ⟨u, hu, rfl | ⟨info, rfl⟩ | ⟨info, rfl⟩⟩ := exec_pair_grown hp h <;> exact hu.other_channels hc

/-- 44_channel_buffer.md R215: a pair leaves every index already written as it was, in every buffer. -/
theorem exec_pair_cbRead_eq {i : Instr} {s t : State} (hp : i.isPair = true) (h : exec i s = .next t) {c : Chan}
    (hcb : (s.cb.get c).length = (s.cbLen.get c).toNat) (hlen : (s.cbLen.get c).toNat ≤ s.params.cbLenMax)
    (hmax : s.params.cbLenMax ≤ 2 ^ 31) {k : W32} (hk : k.toNat < (s.cbLen.get c).toNat) :
    cbRead t c k = cbRead s c k := by
  by_cases hc : c = s.status.chan
  · subst hc
    exact (exec_pair_appendsThatFit hp h hmax hlen).cbRead_eq hmax hcb hk
  · obtain ⟨hbuf, hcount, -⟩ := exec_pair_other_channels hp h hc
    exact cbRead_congr hbuf hcount k

/-- Settles O31: the buffers by what appends keep, every other field by the one form a pair's result has. -/
theorem pairsKeepTheirFrame : Obligations.PairsKeepTheirFrame := by
  intro i s t hp h
  refine ⟨fun c hcb hlen ⟨_, _, _, hmax⟩ k hk => exec_pair_cbRead_eq hp h hcb hlen hmax hk,
    fun c hc => exec_pair_other_channels hp h hc, ?_⟩
  have hcnt := exec_pair_keeps_cnt hp h
  obtain ⟨u, hu, ht⟩ := exec_pair_grown hp h
  obtain ⟨vs, cap, k, rfl⟩ := hu.shape
  obtain rfl | ⟨info, rfl⟩ | ⟨info, rfl⟩ := ht <;>
    refine ⟨fun _ => inByte_congr rfl rfl rfl rfl, rfl, rfl, rfl, rfl, rfl, rfl, rfl, rfl, rfl, rfl, rfl, rfl, rfl, rfl,
      rfl, rfl, hcnt, rfl, rfl, rfl, ?_⟩
  · exact .inl ⟨rfl, rfl, rfl, rfl⟩
  · exact .inr (.inl ⟨rfl, rfl, rfl⟩)
  · exact .inr (.inr ⟨rfl, rfl, rfl⟩)

end Sys2Proof.Machine
end

section
/-! SUPPORT. Proofs of the statements about memory (20_memory.md): accesses that are no word, LOAD before and during a run,
and what every step leaves of IN and OUT. -/

namespace Sys2Proof.Machine

open Sys2Proof.Safety

/-! ### Refused accesses (20_memory.md R64) -/

theorem wordAccess_eq_false {off bytes : Nat} (h : ¬ (bytes = 4 ∧ off % 4 = 0)) : wordAccess off bytes = false :=
  decide_eq_false h

theorem hostAct_write_refused {off bytes : Nat} (h : wordAccess off bytes = false) (v : W32) (s : State) :
    hostAct (.write off bytes v) s = .refused .hostAccessNotWord := by
  simp [hostAct, h]

theorem hostAct_read_refused {off bytes : Nat} (h : wordAccess off bytes = false) (s : State) :
    hostAct (.read off bytes) s = .refused .hostAccessNotWord := by
  simp [hostAct, h]

/-- Settles O15: neither access waits, and the move refuses it. -/
theorem nonWordAccessIsRefused : Obligations.NonWordAccessIsRefused := by
  intro s rest off bytes v hword
  have hacc := wordAccess_eq_false hword
  refine ⟨fun hhost => ?_, fun hhost => ?_⟩
  · rw [step_of_due hhost rfl, hostAct_write_refused hacc]
  · rw [step_of_due hhost rfl, hostAct_read_refused hacc]

/-! ### LOAD (20_memory.md R69, R71) -/

theorem hostAct_load {a : Nat} {data : List Byte} {s : State} (h : a + data.length ≤ s.params.inSizeMax) :
    hostAct (.load a data) s = .next (loadIn a data s) :=
  if_pos h

theorem step_of_due_load {s : State} {rest : List HostEntry} {a : Nat} {data : List Byte}
    (h : s.host = { after := 0, move := .load a data } :: rest) (hroom : a + data.length ≤ s.params.inSizeMax) :
    step s = .next (loadIn a data { s with host := rest }) :=
  (step_of_due h rfl).trans (hostAct_load hroom)

theorem exec_start_accepted {s : State} (hidle : s.status.state = .idle) (hfits : s.docLen.toNat ≤ s.params.inSizeMax) :
    exec .start s = .next s.beginRun := by
  simp [exec, execStart, startAccepted, hidle, hfits]

/-- R69 (c): a run starts with no offset raced, so its engine reads the bytes listed. -/
theorem inByte_beginRun (s : State) (x : Nat) :
    inByte s.beginRun x = (s.inMem.read x).getD (Config.powerOnByte s.powerEpoch x) :=
  if_neg List.not_mem_nil

/-- Settles O16: the load and START answer next, and the run reads the loaded list of bytes. -/
theorem loadBeforeStartIsSeenByTheRun : Obligations.LoadBeforeStartIsSeenByTheRun := by
  intro s rest a data hhost hroom hidle hfits
  refine ⟨_, _, _, step_of_due_load hhost hroom, exec_start_accepted hidle hfits, exec_start_accepted hidle hfits,
    fun k b hb => ?_, fun x hx => ?_⟩
  · obtain ⟨hk, rfl⟩ := List.getElem?_eq_some_iff.mp hb
    have hread := Memory.read_load_inside s.inMem a k data hk
    simp [inByte_beginRun, loadIn, hread]
  · have hread := Memory.read_load_outside s.inMem a x data hx
    simp [inByte_beginRun, loadIn, hread]

theorem inByte_of_raced {s : State} {x : Nat} (h : x ∈ s.raced) : inByte s x = Config.racedByte s.draw x :=
  if_pos h

/-- R71: while BUSY a load notes just the offsets it writes. -/
theorem mem_raced_loadIn {a x : Nat} {data : List Byte} {s : State} (hb : s.status.state = .busy) :
    x ∈ (loadIn a data s).raced ↔ (a ≤ x ∧ x < a + data.length) ∨ x ∈ s.raced := by
  rw [← mem_insertOffsets, loadIn, if_pos hb]

/-- Settles O17: the offsets written are raced, and at the others neither the bytes listed nor the offsets raced change. -/
theorem bytesLoadedWhileBusyReadFreely : Obligations.BytesLoadedWhileBusyReadFreely := by
  intro s rest a data hhost hroom hbusy
  have hraced (x : Nat) := mem_raced_loadIn (a := a) (x := x) (data := data) (s := { s with host := rest }) hbusy
  refine ⟨_, step_of_due_load hhost hroom, fun n x hlow hhigh => ?_, fun n x hx => ?_⟩
  · exact inByte_of_raced ((hraced x).mpr (.inl ⟨hlow, hhigh⟩))
  · have hread := Memory.read_load_outside s.inMem a x data hx
    have hsame := (hraced x).trans (or_iff_right (by omega))
    simp only [inByte, hsame]
    simp only [loadIn, hread]

/-! ### What a step leaves of IN and OUT (20_memory.md R63, R75) -/

/-- OUT of `t` is that of `s` with at most one triple appended. -/
def OutGrows (s t : State) : Prop := ∃ ts, t.out = s.out ++ ts ∧ ts.length ≤ 1

theorem OutGrows.of_eq {s t : State} (h : t.out = s.out) : OutGrows s t := ⟨[], by simp [h], Nat.zero_le _⟩

theorem headerStep_inMem_out (s : State) : (headerStep s).inMem = s.inMem ∧ (headerStep s).out = s.out := by
  simp only [headerStep, checkDimensions]
  split_ifs <;> exact ⟨rfl, rfl⟩

theorem ltStep_inMem_out (s : State) : (ltStep s).inMem = s.inMem ∧ (ltStep s).out = s.out := by
  simp only [ltStep]
  split_ifs <;> exact ⟨rfl, rfl⟩

theorem payloadStep_inMem_out (s : State) : (payloadStep s).inMem = s.inMem ∧ (payloadStep s).out = s.out := by
  simp only [payloadStep]
  split_ifs <;> exact ⟨rfl, rfl⟩

theorem chanStartStep_inMem_out (c : Chan) (s : State) :
    (chanStartStep c s).inMem = s.inMem ∧ (chanStartStep c s).out = s.out := by
  simp only [chanStartStep]
  split_ifs <;> exact ⟨rfl, rfl⟩

theorem exec_pair_inMem_out {i : Instr} {s t : State} (hp : i.isPair = true) (h : exec i s = .next t) :
    t.inMem = s.inMem ∧ t.out = s.out := by
  obtain ⟨u, hu, ht⟩ := exec_pair_grown hp h
  obtain ⟨vs, cap, k, rfl⟩ := hu.shape
  obtain rfl | ⟨info, rfl⟩ | ⟨info, rfl⟩ := ht <;> exact ⟨rfl, rfl⟩

theorem chkStep_inMem_out (s : State) : (chkStep s).inMem = s.inMem ∧ (chkStep s).out = s.out := by
  simp only [chkStep]
  split_ifs <;> exact ⟨rfl, rfl⟩

theorem asmCheckStep_inMem_out (s : State) : (asmCheckStep s).inMem = s.inMem ∧ (asmCheckStep s).out = s.out := by
  simp only [asmCheckStep]
  split_ifs <;> exact ⟨rfl, rfl⟩

/-- 45_raster_interleaver.md R231: the emission loop appends one triple, or none when it completes. -/
theorem emitStep_inMem_out (s : State) : (emitStep s).inMem = s.inMem ∧ OutGrows s (emitStep s) := by
  simp only [emitStep]
  split_ifs
  · exact ⟨rfl, [tripleAt s s.i], rfl, Nat.le_refl _⟩
  · exact ⟨rfl, .of_eq rfl⟩

/-- R63, R75: the engine never writes IN, and only appends to OUT. -/
theorem engineStep_inMem_out {s t : State} (h : engineStep s = .next t) : t.inMem = s.inMem ∧ OutGrows s t := by
  have same {u : State} (hu : u.inMem = s.inMem ∧ u.out = s.out) : u.inMem = s.inMem ∧ OutGrows s u :=
    ⟨hu.1, .of_eq hu.2⟩
  rcases engineStep_cases h with ⟨-, rfl⟩ | ⟨-, -, ⟨-, rfl⟩ | ⟨-, rfl⟩ | ⟨-, rfl⟩ | ⟨-, rfl⟩ | ⟨c, -, rfl⟩ |
    ⟨-, -, rfl⟩ | ⟨-, -, -, hpair⟩ | ⟨-, rfl⟩ | ⟨-, rfl⟩ | ⟨-, rfl⟩⟩
  · exact same ⟨rfl, rfl⟩
  · exact same ⟨rfl, rfl⟩
  · exact same (headerStep_inMem_out s.drawNext)
  · exact same (ltStep_inMem_out s.drawNext)
  · exact same (payloadStep_inMem_out s.drawNext)
  · exact same (chanStartStep_inMem_out c s.drawNext)
  · exact same ⟨rfl, rfl⟩
  · exact same (exec_pair_inMem_out (s := latchPair s.drawNext) (decodePair_isPair _ _) hpair)
  · exact same (chkStep_inMem_out s.drawNext)
  · exact same (asmCheckStep_inMem_out s.drawNext)
  · exact emitStep_inMem_out s.drawNext

/-- No command writes IN. -/
theorem exec_command_inMem {i : Instr} {s t : State} (hp : i.isPair = false) (h : exec i s = .next t) :
    t.inMem = s.inMem := by
  rcases exec_command_cases hp h with
    ⟨-, rfl⟩ | ⟨-, rfl⟩ | ⟨-, -, -, rfl⟩ | ⟨-, -, rfl⟩ | ⟨c, r, -, -, -, rfl⟩ <;> rfl

/-- Every command but CLEAR keeps OUT: START is accepted in IDLE only, where OUT is empty. -/
theorem exec_command_out {i : Instr} {s t : State} (hp : i.isPair = false) (h : exec i s = .next t) (hc : i ≠ .clear)
    (hs : s.status.state = .idle → s.out = []) : t.out = s.out := by
  rcases exec_command_cases hp h with
    ⟨-, rfl⟩ | ⟨-, rfl⟩ | ⟨-, hidle, -, rfl⟩ | ⟨hi, -, -⟩ | ⟨c, r, -, -, -, rfl⟩
  · rfl
  · rfl
  · exact (hs hidle).symm
  · exact absurd hi hc
  · rfl

theorem readOut_inMem_out (s : State) : (readOut s).inMem = s.inMem ∧ (readOut s).out = s.out := by
  rcases readOut_cases s with ⟨p, -, h⟩ | ⟨-, h⟩ <;> rw [h] <;> exact ⟨rfl, rfl⟩

/-- R63: of the host's moves only a LOAD and power-on change IN. -/
theorem hostAct_inMem {m : HostMove} {s t : State} (h : hostAct m s = .next t) (hl : ∀ a data, m ≠ .load a data)
    (hp : m ≠ .powerOn) : t.inMem = s.inMem := by
  rcases hostAct_cases h with ⟨off, bytes, v, -, ⟨-, hcmd⟩ | ⟨-, rfl⟩ | rfl | rfl⟩ | ⟨off, rfl⟩ |
    ⟨a, data, rfl, -, -⟩ | ⟨-, rfl⟩ | ⟨-, rfl⟩ | ⟨rfl, -⟩
  · exact exec_command_inMem (decodeCmd_isPair v) hcmd
  · rfl
  · rfl
  · rfl
  · rfl
  · exact absurd rfl (hl a data)
  · exact (readOut_inMem_out s).1
  · rfl
  · exact absurd rfl hp

/-- R75: of the host's moves only a reset, power-on and CLEAR change OUT. -/
theorem hostAct_out {m : HostMove} {s t : State} (h : hostAct m s = .next t) (hr : m ≠ .reset) (hp : m ≠ .powerOn)
    (hc : ∀ off bytes w, m = .write off bytes w → decodeCmd w ≠ .clear) (hs : s.status.state = .idle → s.out = []) :
    t.out = s.out := by
  rcases hostAct_cases h with ⟨off, bytes, v, hm, ⟨-, hcmd⟩ | ⟨-, rfl⟩ | rfl | rfl⟩ | ⟨off, rfl⟩ |
    ⟨a, data, -, -, rfl⟩ | ⟨-, rfl⟩ | ⟨rfl, -⟩ | ⟨rfl, -⟩
  · exact exec_command_out (decodeCmd_isPair v) hcmd (hc off bytes v hm) hs
  · rfl
  · rfl
  · rfl
  · rfl
  · rfl
  · exact (readOut_inMem_out s).2
  · exact absurd rfl hr
  · exact absurd rfl hp

/-- Settles O58: the step is the engine's or the due move's, by `engineStep_inMem_out` and `hostAct_inMem`. -/
theorem onlyTheHostChangesIn : Obligations.OnlyTheHostChangesIn := by
  intro s t h hload hpower
  rcases step_next_cases h with ⟨-, hengine⟩ | ⟨m, hm, hact⟩
  · obtain ⟨hs, hturn⟩ := engineTurn_eq s
    rw [hturn] at hengine
    exact (engineStep_inMem_out hengine).1
  · rw [hm] at hload hpower
    exact hostAct_inMem (s := { s with host := s.host.tail }) hact (fun a data he => hload a data (he ▸ rfl))
      (fun he => hpower (he ▸ rfl))

/-- 10_state.md R50, 40_pipeline_control.md R112: in IDLE OUT is empty. -/
theorem out_eq_nil_of_idle {s : State} (hinv : Inv s) (hidle : s.status.state = .idle) : s.out = [] := by
  have hstate := hinv.state
  simp only [StateOk, hidle] at hstate
  obtain ⟨-, -, -, hout, -⟩ := hstate
  exact hout

/-- R75: every step but a reset, a power-on or a CLEAR appends to OUT at most one triple. -/
theorem step_outGrows {s t : State} (hinv : Inv s) (h : step s = .next t) (hreset : dueMove s ≠ some .reset)
    (hpower : dueMove s ≠ some .powerOn)
    (hclear : ∀ off bytes w, dueMove s = some (.write off bytes w) → decodeCmd w ≠ .clear) : OutGrows s t := by
  rcases step_next_cases h with ⟨-, hengine⟩ | ⟨m, hm, hact⟩
  · obtain ⟨hs, hturn⟩ := engineTurn_eq s
    rw [hturn] at hengine
    exact (engineStep_inMem_out hengine).2
  · rw [hm] at hreset hpower hclear
    exact .of_eq (hostAct_out (s := { s with host := s.host.tail }) hact (fun he => hreset (he ▸ rfl))
      (fun he => hpower (he ▸ rfl)) (fun off bytes w he => hclear off bytes w (he ▸ rfl))
      (out_eq_nil_of_idle (hinv.with_host s.host.tail)))

/-- Settles O57: the growth of OUT from `step_outGrows`, the host's read from `readOut_cases`. -/
theorem outIsAppendOnlyUntilClearOrReset : Obligations.OutIsAppendOnlyUntilClearOrReset := by
  refine ⟨fun s t hinv h hreset hpower hclear => step_outGrows hinv h hreset hpower hclear, fun s rest hhost => ?_⟩
  have hstep : step s = .next (readOut { s with host := rest }) := step_of_due hhost rfl
  rw [hstep]
  rcases readOut_cases { s with host := rest } with ⟨p, hp, hread⟩ | ⟨hnone, hread⟩ <;> rw [hread]
  · refine ⟨fun q hq _ _ => ?_, .inr ⟨p, hp, rfl⟩⟩
    obtain rfl : p = q := Option.some.inj (hp.symm.trans hq)
    rfl
  · refine ⟨fun q hq hbusy hseen => ?_, .inl rfl⟩
    obtain ⟨hlt, -⟩ := List.getElem?_eq_some_iff.mp hq
    rcases hnone with hle | hb | hu
    · exact absurd hlt (Nat.not_lt.mpr hle)
    · exact absurd hb hbusy
    · exact absurd (hseen.symm.trans hu) nofun

end Sys2Proof.Machine
end

section
/-! SUPPORT. Proofs of the statements about encodings (30_encoding.md): what a command word and a pair's control byte
select, the repeat count, and the expansion of the assembler's RUN. -/

namespace Sys2Proof

/-! ### Command words (30_encoding.md R88, R89, R91) -/

/-- R88: a command word counts by OP and CH alone. -/
theorem decodeCmd_congr {w w' : W32} (hop : cmdOp w = cmdOp w') (hch : cmdCh w = cmdCh w') :
    decodeCmd w = decodeCmd w' := by
  simp only [decodeCmd, hop, hch]

theorem decodeCmd_eq_nop {w : W32} (h : (cmdOp w).toNat = 0) : decodeCmd w = .nop := by
  simp only [decodeCmd, h]

theorem decodeCmd_eq_start {w : W32} (h : (cmdOp w).toNat = 1) : decodeCmd w = .start := by
  simp only [decodeCmd, h]

theorem decodeCmd_eq_clear {w : W32} (h : (cmdOp w).toNat = 2) : decodeCmd w = .clear := by
  simp only [decodeCmd, h]

theorem decodeCmd_eq_read {w : W32} {c : Chan} (hop : (cmdOp w).toNat = 3) (hch : (cmdCh w).toNat = c.toNat) :
    decodeCmd w = .read c := by
  simp only [decodeCmd, hop, hch]
  cases c <;> rfl

theorem decodeCmd_eq_readReserved {w : W32} (hop : (cmdOp w).toNat = 3) (hch : (cmdCh w).toNat = 3) :
    decodeCmd w = .readReserved := by
  simp only [decodeCmd, hop, hch]

theorem decodeCmd_eq_cmdReserved {w : W32} (h : 4 ≤ (cmdOp w).toNat) : decodeCmd w = .cmdReserved (cmdOp w) := by
  unfold decodeCmd
  split
  case h_5 => rfl
  all_goals omega

/-- Settles O23: the fields of the word are `hi`, `ch` and `op`, and the decoder reads the last two. -/
theorem commandWordReservedBitsAreIgnored : Obligations.CommandWordReservedBitsAreIgnored := by
  intro hi ch op
  have hop : cmdOp ((hi ++ ch) ++ op) = op := cmdOp_fields hi ch op
  have hch : cmdCh ((hi ++ ch) ++ op) = ch := cmdCh_fields hi ch op
  refine ⟨decodeCmd_congr (by rw [hop, cmdOp_fields]) (by rw [hch, cmdCh_fields]),
    fun h => decodeCmd_eq_nop (by rwa [hop]), fun h => decodeCmd_eq_start (by rwa [hop]),
    fun h => decodeCmd_eq_clear (by rwa [hop]), fun h c hc => decodeCmd_eq_read (by rwa [hop]) (by rwa [hch]),
    fun h hc => decodeCmd_eq_readReserved (by rwa [hop]) (by rwa [hch]), fun h => ?_⟩
  rw [decodeCmd_eq_cmdReserved (by rwa [hop]), hop]

/-! ### Pairs (30_encoding.md R82, R83) -/

theorem decodePair_eq_lit {ctrl : Byte} (h : ctrl.toNat = 0) (val : Byte) : decodePair ctrl val = .lit val := by
  rw [decodePair, sext8_of_lt (by omega), if_pos (by omega)]

theorem decodePair_eq_illegal {ctrl : Byte} (h1 : 1 ≤ ctrl.toNat) (h2 : ctrl.toNat ≤ 0x7F) (val : Byte) :
    decodePair ctrl val = .illegal ctrl val := by
  rw [decodePair, sext8_of_lt (by omega), if_neg (by omega), if_pos (by omega)]

theorem decodePair_eq_illegal80 {ctrl : Byte} (h : ctrl.toNat = 0x80) (val : Byte) :
    decodePair ctrl val = .illegal80 val := by
  rw [decodePair, sext8_of_ge (by omega), if_neg (by omega), if_neg (by omega), if_pos (by omega)]

theorem decodePair_eq_rep {ctrl : Byte} (h : 0x81 ≤ ctrl.toNat) (val : Byte) :
    decodePair ctrl val = .rep ctrl val := by
  have hlt := ctrl.isLt
  rw [decodePair, sext8_of_ge (by omega), if_neg (by omega), if_neg (by omega), if_neg (by omega)]

/-- Settles O24, range by range of the control byte. -/
theorem controlByteSelectsTheKind : Obligations.ControlByteSelectsTheKind := fun _ val =>
  ⟨fun h => decodePair_eq_lit h val, fun h1 h2 => decodePair_eq_illegal h1 h2 val,
    fun h => decodePair_eq_illegal80 h val, fun h => decodePair_eq_rep h val⟩

end Sys2Proof

namespace Sys2Proof.Machine

open Sys2Proof.Safety

/-- Settles O25: a control byte from 0x81 on reads as `ctrl - 256`. -/
theorem repeatCountIs257MinusCtrl : Obligations.RepeatCountIs257MinusCtrl := by
  intro ctrl h
  have hlt := ctrl.isLt
  have hcount : repCount ctrl = 257 - ctrl.toNat := repCount_eq ctrl (by omega)
  have hsext : sext8 ctrl = (ctrl.toNat : Int) - 256 := sext8_of_ge (by omega)
  exact ⟨hcount, by omega, by omega, by omega, rfl, rfl, rfl⟩

/-! ### Pairs whose values fit (43_rle_decoder.md R183, R184) -/

theorem exec_lit_of_not_full {v : Byte} {s : State} (h : (s.cbLen.get s.status.chan).toNat ≠ s.params.cbLenMax) :
    exec (.lit v) s = .next { cbPush s.status.chan v s with pos := s.pos + 2 } := by
  simp only [exec, execLit, cbAppend, if_neg h, finishPair, cbPush_pos]

theorem exec_rep_of_fits {ctrl v : Byte} {s : State} (hmax : s.params.cbLenMax ≤ 2 ^ 31)
    (h : (s.cbLen.get s.status.chan).toNat + repCount ctrl ≤ s.params.cbLenMax) :
    exec (.rep ctrl v) s = .next
      { pushes s.status.chan v (repCount ctrl) { s with cnt := BitVec.ofNat 8 (repCount ctrl) } with
        pos := s.pos + 2 } :=
  congrArg finishPair (appendRun_ok s.status.chan v (repCount ctrl) { s with cnt := BitVec.ofNat 8 (repCount ctrl) }
    hmax h)

/-! ### The assembler's REP and RUN (30_encoding.md R94, R95) -/

/-- R94: for a count REP can hold, the control byte is `257 - n`. -/
theorem asmRep_ctrl_toNat {n : Nat} (h1 : 2 ≤ n) (h2 : n ≤ 128) : (BitVec.ofNat 8 (257 - n)).toNat = 257 - n := by
  rw [BitVec.toNat_ofNat]; omega

theorem asmRep_wf {n : Nat} (h1 : 2 ≤ n) (h2 : n ≤ 128) (v : Byte) : (asmRep n v).wf = true := by
  simp only [asmRep, Instr.wf, wfRepCtrl, asmRep_ctrl_toNat h1 h2, decide_eq_true_eq]
  omega

theorem repCount_asmRep {n : Nat} (h1 : 2 ≤ n) (h2 : n ≤ 128) : repCount (BitVec.ofNat 8 (257 - n)) = n := by
  have hctrl := asmRep_ctrl_toNat h1 h2
  rw [repCount_eq _ (by omega)]
  omega

/-- R95: a property of a LIT alone and of a REP alone that survives putting `REP 128` in front holds of every run. -/
theorem asmRunLoop_induction {v : Byte} {P : Nat → List Instr → Prop} (lit : P 1 [.lit v])
    (rep : ∀ n, 2 ≤ n → n ≤ 128 → P n [asmRep n v])
    (cons : ∀ n is, 1 ≤ n → P n is → P (128 + n) (asmRep 128 v :: is)) {fuel n : Nat}
    (hn : 1 ≤ n) (hfuel : n ≤ fuel) : P n (asmRunLoop fuel n v) := by
  induction fuel generalizing n with
  | zero => omega
  | succ fuel ih =>
    unfold asmRunLoop
    split_ifs with hlong hone
    · have hrest := cons (n - 128) _ (by omega) (ih (by omega) (by omega))
      rwa [Nat.add_sub_cancel' (by omega)] at hrest
    · exact hone ▸ lit
    · exact rep n (by omega) (by omega)

theorem asmRun_length {n : Nat} (hn : 1 ≤ n) (v : Byte) : (asmRun n v).length = (n + 127) / 128 := by
  refine asmRunLoop_induction (P := fun n is => is.length = (n + 127) / 128) rfl (fun n h1 h2 => ?_)
    (fun n is h ih => ?_) hn le_rfl
  · rw [List.length_singleton]; omega
  · rw [List.length_cons, ih]; omega

theorem asmRun_wf {n : Nat} (hn : 1 ≤ n) (v : Byte) : ∀ i ∈ asmRun n v, i.wf = true :=
  asmRunLoop_induction (P := fun _ is => ∀ i ∈ is, i.wf = true) (List.forall_mem_singleton.mpr rfl)
    (fun _ h1 h2 => List.forall_mem_singleton.mpr (asmRep_wf h1 h2 v))
    (fun _ _ _ ih => List.forall_mem_cons.mpr ⟨asmRep_wf (by omega) le_rfl v, ih⟩) hn le_rfl

/-- `t` is `s` after `p` pairs that appended `n` copies of `v` to buffer `c` and raised nothing. -/
structure AppendedCopies (c : Chan) (v : Byte) (n p : Nat) (s t : State) : Prop where
  params : t.params = s.params
  status : t.status = s.status
  cb : t.cb = s.cb.set c (s.cb.get c ++ List.replicate n v)
  cbLen : t.cbLen = s.cbLen.set c (s.cbLen.get c + BitVec.ofNat 32 n)
  pos : t.pos = s.pos + BitVec.ofNat 32 (2 * p)

theorem AppendedCopies.trans {c : Chan} {v : Byte} {n m p q : Nat} {s t u : State} (h1 : AppendedCopies c v n p s t)
    (h2 : AppendedCopies c v m q t u) : AppendedCopies c v (n + m) (p + q) s u where
  params := h2.params.trans h1.params
  status := h2.status.trans h1.status
  cb := by
    rw [h2.cb, h1.cb, PerChan.get_set_self, PerChan.set_set, List.append_assoc, List.replicate_append_replicate]
  cbLen := by
    rw [h2.cbLen, h1.cbLen, PerChan.get_set_self, PerChan.set_set, BitVec.add_assoc, ← BitVec.ofNat_add]
  pos := by rw [h2.pos, h1.pos, BitVec.add_assoc, ← BitVec.ofNat_add, Nat.mul_add]

/-- Appended copies that fit are counted without wrapping. -/
theorem AppendedCopies.cbLen_toNat {c : Chan} {v : Byte} {n p : Nat} {s t : State} (h : AppendedCopies c v n p s t)
    (hmax : s.params.cbLenMax ≤ 2 ^ 31) (hfits : (s.cbLen.get c).toNat + n ≤ s.params.cbLenMax) :
    (t.cbLen.get c).toNat = (s.cbLen.get c).toNat + n := by
  rw [h.cbLen, PerChan.get_set_self, BitVec.toNat_add, BitVec.toNat_ofNat]
  omega

theorem exec_lit_appendedCopies (v : Byte) {s : State}
    (hfits : (s.cbLen.get s.status.chan).toNat + 1 ≤ s.params.cbLenMax) :
    ∃ t, exec (.lit v) s = .next t ∧ AppendedCopies s.status.chan v 1 1 s t :=
  ⟨_, exec_lit_of_not_full (by omega), rfl, rfl, rfl, rfl, rfl⟩

theorem exec_asmRep_appendedCopies {n : Nat} (v : Byte) {s : State} (h1 : 2 ≤ n) (h2 : n ≤ 128)
    (hmax : s.params.cbLenMax ≤ 2 ^ 31) (hfits : (s.cbLen.get s.status.chan).toNat + n ≤ s.params.cbLenMax) :
    ∃ t, exec (asmRep n v) s = .next t ∧ AppendedCopies s.status.chan v n 1 s t := by
  have hcount := repCount_asmRep h1 h2
  refine ⟨_, exec_rep_of_fits hmax (by rwa [hcount]), ?_⟩
  rw [hcount]
  exact ⟨rfl, rfl, rfl, rfl, rfl⟩

theorem execPairs_cons {i : Instr} {is : List Instr} {s t : State} (h : exec i s = .next t)
    (hbusy : t.status.state = .busy) : execPairs (i :: is) s = execPairs is t := by
  simp only [execPairs, h, if_pos hbusy]

theorem execPairs_singleton {i : Instr} {s t : State} (h : exec i s = .next t) (hbusy : t.status.state = .busy) :
    execPairs [i] s = some t :=
  execPairs_cons h hbusy

/-- From every BUSY state in whose buffer `n` more values fit, the pairs append `n` copies of `v`. -/
def RunsAs (v : Byte) (n : Nat) (is : List Instr) : Prop :=
  ∀ s : State, s.status.state = .busy → s.params.cbLenMax ≤ 2 ^ 31 →
    (s.cbLen.get s.status.chan).toNat + n ≤ s.params.cbLenMax →
    ∃ t, execPairs is s = some t ∧ AppendedCopies s.status.chan v n is.length s t

theorem runsAs_lit (v : Byte) : RunsAs v 1 [.lit v] := by
  intro s hbusy _ hfits
  obtain ⟨t, hexec, ht⟩ := exec_lit_appendedCopies v hfits
  exact ⟨t, execPairs_singleton hexec (ht.status ▸ hbusy), ht⟩

theorem runsAs_rep (v : Byte) {n : Nat} (h1 : 2 ≤ n) (h2 : n ≤ 128) : RunsAs v n [asmRep n v] := by
  intro s hbusy hmax hfits
  obtain ⟨t, hexec, ht⟩ := exec_asmRep_appendedCopies v h1 h2 hmax hfits
  exact ⟨t, execPairs_singleton hexec (ht.status ▸ hbusy), ht⟩

/-- `REP 128` leaves the state BUSY and room for the rest. -/
theorem runsAs_cons {v : Byte} {n : Nat} {is : List Instr} (ih : RunsAs v n is) :
    RunsAs v (128 + n) (asmRep 128 v :: is) := by
  intro s hbusy hmax hfits
  obtain ⟨t, hexec, ht⟩ := exec_asmRep_appendedCopies v (by omega) le_rfl hmax (by omega)
  have hlen := ht.cbLen_toNat hmax (by omega)
  have htbusy : t.status.state = .busy := ht.status ▸ hbusy
  obtain ⟨u, hrun, hu⟩ := ih t htbusy (ht.params ▸ hmax) (by rw [ht.status, ht.params]; omega)
  refine ⟨u, (execPairs_cons hexec htbusy).trans hrun, ?_⟩
  rw [List.length_cons, Nat.add_comm is.length]
  exact ht.trans (ht.status ▸ hu)

theorem asmRun_runsAs {n : Nat} (hn : 1 ≤ n) (v : Byte) : RunsAs v n (asmRun n v) :=
  asmRunLoop_induction (P := RunsAs v) (runsAs_lit v) (fun _ => runsAs_rep v) (fun _ _ _ => runsAs_cons) hn le_rfl

/-- Settles O32, by induction over the expansion: what it is made of, and what executing it appends. -/
theorem runExpansionAppendsNCopies : Obligations.RunExpansionAppendsNCopies := by
  rintro n v s _ hn rfl hbusy ⟨-, -, -, hmax⟩ hfits
  obtain ⟨t, hexec, ht⟩ := asmRun_runsAs hn v s hbusy hmax hfits
  exact ⟨asmRun_length hn v, asmRun_wf hn v, t, hexec, ht.cb, ht.cbLen_toNat hmax hfits, asmRun_length hn v ▸ ht.pos⟩

end Sys2Proof.Machine
end

section
/-! SUPPORT. Proofs of the statements about the commands and the host's moves (40_pipeline_control.md sections 1 and 2):
what each command does where it is accepted and where it is rejected, the frame of the commands, the host's word
writes, and what the host's moves leave of a run and of an error. -/

namespace Sys2Proof.Machine

open Sys2Proof.Safety

/-! ### The commands, accepted and rejected (R110 to R114) -/

/-- Settles O1: OP 0 decodes to NOP, whose arm answers the state itself. -/
theorem nopChangesNothing : Obligations.NopChangesNothing :=
  ⟨fun _ hop => decodeCmd_eq_nop hop, fun _ => rfl⟩

theorem exec_start_rejected {s : State} (h : ¬ (s.status.state = .idle ∧ s.docLen.toNat ≤ s.params.inSizeMax)) :
    exec .start s = .next s.reject := by
  simp only [exec, execStart, startAccepted, decide_eq_false h, if_neg Bool.false_ne_true]

/-- Settles O2: an accepted START is `beginRun`, a rejected one `reject`. -/
theorem startZeroesResultsOrIsRejected : Obligations.StartZeroesResultsOrIsRejected := by
  refine ⟨fun w hop => decodeCmd_eq_start hop, fun s => ⟨fun hidle hfits => ?_, exec_start_rejected⟩⟩
  have hzero (c : Chan) :
      s.beginRun.chSize.get c = 0 ∧ s.beginRun.cbLen.get c = 0 ∧ s.beginRun.cbCap.get c = 0 :=
    ⟨PerChan.get_mk 0 c, PerChan.get_mk 0 c, PerChan.get_mk 0 c⟩
  exact ⟨s.beginRun, exec_start_accepted hidle hfits, rfl, rfl, rfl, rfl, rfl, rfl, hzero, rfl, rfl, rfl, rfl, rfl, rfl,
    rfl, rfl, rfl, rfl, rfl, rfl, rfl, rfl, rfl⟩

theorem resultState_of_accepting {st : RunState} (h : st = .idle ∨ st = .done ∨ st = .error) :
    resultState st = true := by
  rcases h with rfl | rfl | rfl <;> rfl

theorem resultState_of_rejecting {st : RunState} (h : st = .busy ∨ st = .fatal) : resultState st = false := by
  rcases h with rfl | rfl <;> rfl

theorem exec_clear_accepted {s : State} (h : resultState s.status.state = true) :
    exec .clear s = .next s.clearResults :=
  if_pos h

theorem exec_clear_rejected {s : State} (h : resultState s.status.state = false) :
    exec .clear s = .next s.reject := by
  simp only [exec, execClear, h, if_neg Bool.false_ne_true]

theorem statusWord_zero : statusWord Status.zero = 0 := rfl

theorem rdResultWord_zero : rdResultWord RdResult.zero = 0 := rfl

/-- Settles O3: an accepted CLEAR is `clearResults`, a rejected one `reject`. -/
theorem clearReleasesAndZeroesOrIsRejected : Obligations.ClearReleasesAndZeroesOrIsRejected := by
  refine ⟨fun w hop => decodeCmd_eq_clear hop, fun s =>
    ⟨fun haccept => ?_, fun hreject => exec_clear_rejected (resultState_of_rejecting hreject)⟩⟩
  have hzero (c : Chan) :
      s.clearResults.cbLen.get c = 0 ∧ s.clearResults.cbCap.get c = 0 ∧ s.clearResults.chSize.get c = 0 :=
    ⟨PerChan.get_mk 0 c, PerChan.get_mk 0 c, PerChan.get_mk 0 c⟩
  exact ⟨s.clearResults, exec_clear_accepted (resultState_of_accepting haccept), statusWord_zero, rdResultWord_zero,
    hzero, rfl, rfl, rfl, rfl, rfl, rfl, rfl, rfl, rfl, rfl, rfl, rfl, rfl, rfl, rfl, rfl, rfl, rfl⟩

theorem exec_read_rejected {c : Chan} {s : State} (h : resultState s.status.state = false) :
    exec (.read c) s = .next s.reject := by
  simp only [exec, execRead, h, if_neg Bool.false_ne_true]

/-- 44_channel_buffer.md R214: below CB_LEN, CBRead gives the value there. -/
theorem cbRead_eq_of_lt {s : State} {c : Chan} {k : W32} {v : Byte} (hk : k.toNat < (s.cbLen.get c).toNat)
    (hv : (s.cb.get c)[k.toNat]? = some v) : cbRead s c k = (true, v) := by
  have hlt : k < s.cbLen.get c := hk
  rw [cbRead, if_pos hlt, hv, Option.getD_some]

/-- 44_channel_buffer.md R214: from CB_LEN on, CBRead is out of bounds. -/
theorem cbRead_eq_of_ge {s : State} {c : Chan} {k : W32} (hk : (s.cbLen.get c).toNat ≤ k.toNat) :
    cbRead s c k = (false, 0) := by
  have hge : ¬ k < s.cbLen.get c := Nat.not_lt.mpr hk
  rw [cbRead, if_neg hge]

theorem exec_read_in_bounds {s : State} {c : Chan} {v : Byte} (h : resultState s.status.state = true)
    (hread : cbRead s c s.rdIndex = (true, v)) :
    exec (.read c) s = .next { s with
      status := { s.status with cmdRej := false }
      rdResult := { value := v, done := true, oob := false } } := by
  simp only [exec, execRead, h, if_true, hread]

theorem exec_read_out_of_bounds {s : State} {c : Chan} {v : Byte} (h : resultState s.status.state = true)
    (hread : cbRead s c s.rdIndex = (false, v)) :
    exec (.read c) s = .next { s with
      status := { s.status with cmdRej := false }
      rdResult := { value := 0, done := true, oob := true } } := by
  simp only [exec, execRead, h, if_true, hread]

/-- 10_state.md R50, 40_pipeline_control.md R111, R112: in IDLE every buffer is empty. -/
theorem cbLen_eq_zero_of_idle {s : State} (hinv : Inv s) (hidle : s.status.state = .idle) (c : Chan) :
    s.cbLen.get c = 0 := by
  have hstate := hinv.state
  simp only [StateOk, hidle] at hstate
  obtain ⟨-, -, hzero, -, -⟩ := hstate
  rw [hzero.cbLen, PerChan.get_mk]

/-- 44_channel_buffer.md R210: no buffer is so long that index 2^32 - 1 lies in it, and in IDLE none holds a value. -/
theorem cbLen_le_rdIndex {s : State} (hinv : Inv s) (c : Chan)
    (h : s.status.state = .idle ∨ s.rdIndex = 0xFFFFFFFF) : (s.cbLen.get c).toNat ≤ s.rdIndex.toNat := by
  rcases h with hidle | hindex
  · simp [cbLen_eq_zero_of_idle hinv hidle c]
  · rw [hindex]
    exact Nat.le_of_lt_succ (s.cbLen.get c).isLt

/-- Settles O4: CH selects the channel or the reserved command, and the two sides of CB_LEN are `cbRead`'s. -/
theorem readIsBoundsCheckedOrIsRejected : Obligations.ReadIsBoundsCheckedOrIsRejected := by
  refine ⟨fun c w hop hch => decodeCmd_eq_read hop hch,
    fun w s hop hch => by rw [decodeCmd_eq_readReserved hop hch]; rfl,
    fun c s hinv h => cbLen_le_rdIndex hinv c h, fun c s => ⟨fun haccept => ?_, fun hreject => ?_⟩⟩
  · have hstate := resultState_of_accepting haccept
    exact ⟨fun v hk hv => exec_read_in_bounds hstate (cbRead_eq_of_lt hk hv),
      fun hk => exec_read_out_of_bounds hstate (cbRead_eq_of_ge hk)⟩
  · exact exec_read_rejected (resultState_of_rejecting hreject)

/-- Settles O5: the decoder gives the two reserved constructors, and both arms are `reject`. -/
theorem reservedCommandsOnlySetCmdRej : Obligations.ReservedCommandsOnlySetCmdRej :=
  ⟨fun _ hop => ⟨decodeCmd_eq_cmdReserved hop, decide_eq_true hop⟩,
    fun _ hop hch => decodeCmd_eq_readReserved hop hch, fun _ => ⟨rfl, fun _ _ => rfl⟩⟩

/-- No command writes IN, DOC_LEN, RD_INDEX, a parameter or a working register. -/
theorem exec_command_frame {i : Instr} {s t : State} (hp : i.isPair = false) (h : exec i s = .next t) :
    t.inMem = s.inMem ∧ t.docLen = s.docLen ∧ t.rdIndex = s.rdIndex ∧ t.params = s.params ∧
      t.pos = s.pos ∧ t.endPos = s.endPos ∧ t.ctrl = s.ctrl ∧ t.val = s.val ∧ t.cnt = s.cnt ∧ t.i = s.i := by
  rcases exec_command_cases hp h with
    ⟨-, rfl⟩ | ⟨-, rfl⟩ | ⟨-, -, -, rfl⟩ | ⟨-, -, rfl⟩ | ⟨c, r, -, -, -, rfl⟩ <;>
  exact ⟨rfl, rfl, rfl, rfl, rfl, rfl, rfl, rfl, rfl, rfl⟩

/-- START alone changes how IN reads: it forgets the offsets raced. -/
theorem exec_command_inByte {i : Instr} {s t : State} (hp : i.isPair = false) (h : exec i s = .next t)
    (hstart : i ≠ .start) (a : Nat) : inByte t a = inByte s a := by
  rcases exec_command_cases hp h with
    ⟨-, rfl⟩ | ⟨-, rfl⟩ | ⟨hi, -, -, -⟩ | ⟨-, -, rfl⟩ | ⟨c, r, -, -, -, rfl⟩
  · rfl
  · exact inByte_congr rfl rfl rfl rfl
  · exact absurd hi hstart
  · exact inByte_congr rfl rfl rfl rfl
  · exact inByte_congr rfl rfl rfl rfl

theorem exec_command_rdResult {i : Instr} {s t : State} (hp : i.isPair = false) (h : exec i s = .next t)
    (hclear : i ≠ .clear) (hread : ∀ c, i ≠ .read c) : t.rdResult = s.rdResult := by
  rcases exec_command_cases hp h with
    ⟨-, rfl⟩ | ⟨-, rfl⟩ | ⟨-, -, -, rfl⟩ | ⟨hi, -, -⟩ | ⟨c, r, hi, -, -, -⟩
  · rfl
  · rfl
  · rfl
  · exact absurd hi hclear
  · exact absurd hi (hread c)

/-- R110 to R114: but for a START and a CLEAR that are accepted, a command changes at most CMD_REJ and RD_RESULT. -/
theorem exec_command_keeps_run {i : Instr} {s t : State} (hp : i.isPair = false) (h : exec i s = .next t)
    (hstart : i = .start → s.status.state ≠ .idle) (hclear : i = .clear → resultState s.status.state = false) :
    ∃ b r, t = { s with status := { s.status with cmdRej := b }, rdResult := r } := by
  rcases exec_command_cases hp h with
    ⟨-, rfl⟩ | ⟨-, rfl⟩ | ⟨hi, hidle, -, -⟩ | ⟨hi, hstate, -⟩ | ⟨c, r, -, -, -, rfl⟩
  · exact ⟨t.status.cmdRej, t.rdResult, rfl⟩
  · exact ⟨true, s.rdResult, rfl⟩
  · exact absurd hidle (hstart hi)
  · exact absurd (hstate.symm.trans (hclear hi)) nofun
  · exact ⟨false, r, rfl⟩

/-- Settles O8, clause by clause from what a command can do. -/
theorem commandsKeepTheirFrame : Obligations.CommandsKeepTheirFrame := by
  intro i s t hcmd h
  refine ⟨exec_command_frame hcmd h, exec_command_inByte hcmd h, exec_command_rdResult hcmd h, fun hstart hclear => ?_⟩
  obtain ⟨b, r, rfl⟩ :=
    exec_command_keeps_run hcmd h (fun hi => absurd hi hstart) (fun hi => absurd hi hclear)
  exact ⟨rfl, rfl, rfl, rfl, rfl, rfl, rfl, rfl, rfl, rfl, rfl, rfl, rfl, rfl, rfl, rfl⟩

/-! ### The host's word writes (R115, R116, R117) -/

theorem hostAct_write_word {off : Nat} (ha : off % 4 = 0) (v : W32) (s : State) :
    hostAct (.write off 4 v) s = regWrite (regAt off) v s := by
  simp [hostAct, wordAccess, ha]

/-- R117: a write to any offset but those of CMD, DOC_LEN and RD_INDEX has no effect. -/
theorem regWrite_ignored {off : Nat} (hcmd : off ≠ 0x00) (hdoc : off ≠ 0x10) (hindex : off ≠ 0x50) (v : W32)
    (s : State) : regWrite (regAt off) v s = .next s := by
  unfold regAt
  split
  case h_1 => exact absurd rfl hcmd
  case h_5 => exact absurd rfl hdoc
  case h_18 => exact absurd rfl hindex
  all_goals rfl

/-- Settles O11: the due move is a word write, and the register at its offset says what it does. -/
theorem registerWritesFollowTheirRules : Obligations.RegisterWritesFollowTheirRules := by
  intro s rest off v hhost ha
  have hstep : step s = regWrite (regAt off) v { s with host := rest } :=
    (step_of_due hhost rfl).trans (hostAct_write_word ha v _)
  rw [hstep]
  refine ⟨?_, ?_, ?_, fun hcmd hdoc hindex => regWrite_ignored hcmd hdoc hindex v _, hostReadValue_exact rfl⟩
  · rintro rfl hb
    exact if_neg hb
  · rintro rfl hb
    exact if_pos hb
  · rintro rfl
    rfl

/-! ### Host moves between engine steps (R121, R122) -/

theorem dueMove_cons (e : HostEntry) (rest : List HostEntry) {s : State} (h : s.host = e :: rest) :
    dueMove s = if e.after = 0 ∧ pollWaits e.move s = false then some e.move else none := by
  simp only [dueMove, h]

theorem step_of_dueMove_none {s : State} (h : dueMove s = none) : step s = engineStep (engineTurn s) := by
  cases hhost : s.host with
  | nil => simp [step, hostOrEngineStep, engineTurn, hhost]
  | cons e rest =>
    rw [dueMove_cons e rest hhost] at h
    by_cases hz : e.after = 0
    · have hwaits : pollWaits e.move s = true := by simpa [hz] using h
      simp [step, hostOrEngineStep, engineTurn, hhost, hz, hwaits]
    · simp [step, hostOrEngineStep, engineTurn, hhost, hz]

theorem step_of_dueMove_some {s : State} {m : HostMove} (h : dueMove s = some m) :
    step s = hostAct m { s with host := s.host.tail } := by
  cases hhost : s.host with
  | nil => simp [dueMove, hhost] at h
  | cons e rest =>
    rw [dueMove_cons e rest hhost] at h
    split_ifs at h with hdue
    obtain ⟨hz, hwaits⟩ := hdue
    cases h
    simp [step, hostOrEngineStep, hhost, hz, hwaits]

/-- Settles O18: whether a move is due decides which of the two the step is, and a POLL waits just while BUSY. -/
theorem hostMovesFallBetweenEngineSteps : Obligations.HostMovesFallBetweenEngineSteps := by
  refine fun s => ⟨step_of_dueMove_none, fun m => step_of_dueMove_some, fun rest hhost => ?_⟩
  rw [dueMove_cons _ rest hhost]
  simp [pollWaits]

/-- `t` has `s`'s next engine step, error record and STATUS, but perhaps for CMD_REJ. -/
def KeepsRun (s t : State) : Prop :=
  (∃ b, t.status = { s.status with cmdRej := b }) ∧ t.errInfo = s.errInfo ∧ t.errAddr = s.errAddr ∧ t.seq = s.seq

theorem KeepsRun.of_status_eq {s t : State} (h : t.status = s.status) (h1 : t.errInfo = s.errInfo)
    (h2 : t.errAddr = s.errAddr) (h3 : t.seq = s.seq) : KeepsRun s t :=
  ⟨⟨s.status.cmdRej, h⟩, h1, h2, h3⟩

theorem keepsRun_readOut (s : State) : KeepsRun s (readOut s) := by
  rcases readOut_cases s with ⟨p, -, h⟩ | ⟨-, h⟩ <;> rw [h] <;> exact .of_status_eq rfl rfl rfl rfl

/-- R121: outside IDLE no host move but a reset, a power-on or an accepted CLEAR touches the run or the
error record. -/
theorem hostAct_keepsRun {m : HostMove} {s t : State} (h : hostAct m s = .next t) (hr : m ≠ .reset) (hp : m ≠ .powerOn)
    (hidle : s.status.state ≠ .idle)
    (hclear : ∀ off bytes w, m = .write off bytes w → decodeCmd w = .clear → resultState s.status.state = false) :
    KeepsRun s t := by
  rcases hostAct_cases h with ⟨off, bytes, v, hm, ⟨-, hcmd⟩ | ⟨-, rfl⟩ | rfl | rfl⟩ | ⟨off, rfl⟩ |
    ⟨a, data, -, -, rfl⟩ | ⟨-, rfl⟩ | ⟨rfl, -⟩ | ⟨rfl, -⟩
  · obtain ⟨b, r, rfl⟩ := exec_command_keeps_run (decodeCmd_isPair v) hcmd (fun _ => hidle) (hclear off bytes v hm)
    exact ⟨⟨b, rfl⟩, rfl, rfl, rfl⟩
  · exact .of_status_eq rfl rfl rfl rfl
  · exact .of_status_eq rfl rfl rfl rfl
  · exact .of_status_eq rfl rfl rfl rfl
  · exact .of_status_eq rfl rfl rfl rfl
  · exact .of_status_eq rfl rfl rfl rfl
  · exact keepsRun_readOut s
  · exact absurd rfl hr
  · exact absurd rfl hp

/-- R121, 20_memory.md R71: while BUSY no host move but a reset or a power-on touches the run. -/
theorem hostAct_busy_keepsRun {m : HostMove} {s t : State} (h : hostAct m s = .next t) (hr : m ≠ .reset)
    (hp : m ≠ .powerOn) (hb : s.status.state = .busy) : KeepsRun s t :=
  hostAct_keepsRun h hr hp (by rw [hb]; nofun) (fun _ _ _ _ _ => by rw [hb]; rfl)

/-- Settles O60: both halves from `hostAct_keepsRun`; in ERROR a CLEAR is excluded by hypothesis. -/
theorem noCommandEndsARunOrRewritesAnError : Obligations.NoCommandEndsARunOrRewritesAnError := by
  intro s t m hdue hr hp h
  have hact : hostAct m { s with host := s.host.tail } = .next t := (step_of_dueMove_some hdue).symm.trans h
  refine ⟨fun hb => ?_, fun herror hclear => ?_⟩
  · obtain ⟨⟨b, hstatus⟩, -, -, hseq⟩ := hostAct_busy_keepsRun hact hr hp hb
    exact ⟨hstatus ▸ hb, hseq⟩
  · obtain ⟨⟨b, hstatus⟩, hinfo, haddr, -⟩ := hostAct_keepsRun hact hr hp
      (fun hidle => absurd (herror.symm.trans hidle) nofun)
      (fun off bytes w hm hc => absurd hc (hclear off bytes w hm))
    exact ⟨hstatus ▸ herror, by rw [hstatus], hinfo, haddr⟩

end Sys2Proof.Machine
end

section
/-! SUPPORT. Proofs of the statements about the sequencer (40_pipeline_control.md section 3): from a BUSY state of the
invariant each engine step answers a state of the invariant again, with PHASE no lower and the bound on the run lower,
so that every run ends. -/

namespace Sys2Proof.Safety

open Sys2Proof.Machine

/-! ### The invariant during a run -/

/-- What the invariant says while BUSY of everything but STATUS, the error record and what `RunOk` looks at. -/
structure RunBase (s : State) : Prop where
  params   : s.params.Legal
  memory   : s.inMem.wf
  inBound  : ∀ x ∈ s.inMem, x.1 < s.params.inSizeMax
  raced    : s.raced.Pairwise (· < ·)
  buffers  : ∀ c, BufferOk s c
  outCount : s.outCount.toNat = s.out.length
  outRead  : s.outRead ≤ s.out.length
  rdResult : s.rdResult.oob = true → s.rdResult.value = 0 ∧ s.rdResult.done = true
  unseen   : s.statusRead = false

theorem Inv.runBase {s : State} (h : Inv s) (hb : s.status.state = .busy) : RunBase s :=
  ⟨h.params, h.memory, h.inBound, h.raced, h.buffers, h.outCount, h.outRead, h.rdResult, h.unseen hb⟩

/-- The fields `RunBase` looks at, but for the buffers. -/
def baseFields (s : State) :=
  (s.params, s.inMem, s.raced, s.out, s.outCount, s.outRead, s.rdResult, s.statusRead)

theorem RunBase.with_buffers {s t : State} (h : RunBase s) (e : baseFields t = baseFields s)
    (hbuf : ∀ c, BufferOk t c) : RunBase t := by
  simp only [baseFields, Prod.mk.injEq] at e
  obtain ⟨hparams, hmem, hraced, hout, hcount, hread, hresult, hseen⟩ := e
  exact ⟨hparams ▸ h.params, hmem ▸ h.memory, by rw [hmem, hparams]; exact h.inBound, hraced ▸ h.raced, hbuf,
    by rw [hcount, hout, h.outCount], by rw [hread, hout]; exact h.outRead, hresult ▸ h.rdResult, hseen ▸ h.unseen⟩

theorem RunBase.congr {s t : State} (h : RunBase s) (e : baseFields t = baseFields s) (h1 : t.cb = s.cb)
    (h2 : t.cbLen = s.cbLen) (h3 : t.cbCap = s.cbCap) : RunBase t := by
  have hparams : t.params = s.params := congrArg Prod.fst e
  exact h.with_buffers e fun c => (h.buffers c).congr hparams (by rw [h1]) (by rw [h2]) (by rw [h3])

/-- The rest of the invariant, for a state that is not IDLE. -/
theorem RunBase.inv {s : State} (h : RunBase s) (hidle : s.status.state ≠ .idle)
    (hrecord : s.status.err = none → s.errInfo = 0 ∧ s.errAddr = 0)
    (hchan : s.status.phase ≠ .dec → s.status.chan = .c0) (hstate : StateOk s) : Inv s where
  params := h.params
  memory := h.memory
  inBound := h.inBound
  raced := h.raced
  buffers := h.buffers
  outCount := h.outCount
  outRead := h.outRead
  rdResult := h.rdResult
  noError := hrecord
  chanPhase := hchan
  state := hstate
  unseen _ := h.unseen
  settled hi := absurd hi hidle

/-- An engine step changes nothing the invariant looks at by drawing a number. -/
theorem Inv.drawNext {s : State} (h : Inv s) (hb : s.status.state = .busy) : Inv s.drawNext :=
  ((h.runBase hb).congr (t := s.drawNext) rfl rfl rfl rfl).inv (by rw [drawNext_status, hb]; nofun) h.noError
    h.chanPhase (h.state.congr rfl rfl rfl rfl rfl rfl rfl rfl rfl rfl rfl rfl rfl rfl rfl rfl (fun _ => rfl))

theorem Inv.runOk {s : State} (h : Inv s) (hb : s.status.state = .busy) : RunOk s := by
  obtain ⟨-, -, hrun⟩ := h.busy hb
  exact hrun

/-! ### What `RunOk` says of each engine step to come -/

theorem RunOk.seq_ne_idle {s : State} (h : RunOk s) : s.seq ≠ .idle := by
  intro hseq
  simp only [RunOk, hseq] at h

theorem RunOk.at_hdr {s : State} (h : RunOk s) (hseq : s.seq = .hdr) :
    s.status.phase = .none ∧ ResultsZero s ∧ s.out = [] := by
  simpa only [RunOk, hseq] using h

theorem RunOk.at_lt {s : State} (h : RunOk s) (hseq : s.seq = .lt) :
    s.status.phase = .hdr ∧ HeaderOk s ∧ s.cbCap = ⟨0, 0, 0⟩ ∧ s.out = [] := by
  simp only [RunOk, hseq] at h
  obtain ⟨hphase, hheader, hcap, -, -, hout⟩ := h
  exact ⟨hphase, hheader, hcap, hout⟩

theorem RunOk.at_payload {s : State} (h : RunOk s) (hseq : s.seq = .payload) :
    s.status.phase = .lt ∧ TableOk s ∧ s.cbCap = ⟨0, 0, 0⟩ ∧ s.out = [] := by
  simpa only [RunOk, hseq] using h

theorem RunOk.phase_at_chanStart {s : State} {c : Chan} (h : RunOk s) (hseq : s.seq = .chanStart c) :
    s.status.phase = .payload ∨ s.status.phase = .dec := by
  simp only [RunOk, hseq] at h
  cases c
  · exact .inl h.1
  · exact .inr h.1
  · exact .inr h.1

theorem RunOk.at_pairs {s : State} (h : RunOk s) (hseq : s.seq = .pairs) :
    s.status.phase = .dec ∧ PayloadOk s ∧ CursorOk s ∧ s.out = [] ∧
      (∀ c, s.cbCap.get c ≠ 0 ↔ c.toNat ≤ s.status.chan.toNat) := by
  simpa only [RunOk, hseq] using h

theorem RunOk.at_chk {s : State} (h : RunOk s) (hseq : s.seq = .chk) :
    s.status.phase = .dec ∧ PayloadOk s ∧ (∀ c, s.cbCap.get c ≠ 0) ∧ s.out = [] := by
  simp only [RunOk, hseq] at h
  obtain ⟨hphase, -, hrest⟩ := h
  exact ⟨hphase, hrest⟩

theorem RunOk.at_asmCheck {s : State} (h : RunOk s) (hseq : s.seq = .asmCheck) :
    s.status.phase = .chk ∧ PayloadOk s ∧ s.cbLen.c0 = s.cbLen.c1 ∧ s.cbLen.c1 = s.cbLen.c2 ∧
      (∀ c, s.cbCap.get c ≠ 0) ∧ s.out = [] := by
  simpa only [RunOk, hseq] using h

theorem RunOk.at_emit {s : State} (h : RunOk s) (hseq : s.seq = .emit) :
    s.status.phase = .asm ∧ PayloadOk s ∧ CountsOk s ∧ (∀ c, s.cbCap.get c ≠ 0) ∧
      s.i.toNat = s.out.length ∧ s.out.length ≤ pixelCount s := by
  simpa only [RunOk, hseq] using h

/-! ### The numbers of a run -/

/-- R290: a raster has at most 10^8 pixels. -/
theorem HeaderOk.pixelCount_le {s : State} (h : HeaderOk s) : pixelCount s ≤ dimMax * dimMax :=
  Nat.mul_le_mul h.width h.height

/-- 42_length_table.md R165: a channel has at most 327,675,000 pairs. -/
theorem TableOk.pairs_le {s : State} (h : TableOk s) (c : Chan) : (s.chSize.get c).toNat / 2 ≤ 327675000 := by
  have hsize := h.sizes c
  have hheight := h.height
  simp only [dimMax] at hheight
  omega

theorem TableOk.stepsFromChan_c0_lt {s : State} (h : TableOk s) :
    stepsFromChan s .c0 < maxStepsFromPayload (pixelCount s) := by
  have h0 := h.pairs_le .c0
  have h1 := h.pairs_le .c1
  have h2 := h.pairs_le .c2
  simp only [PerChan.get_c0, PerChan.get_c1, PerChan.get_c2] at h0 h1 h2
  simp only [stepsFromChan, stepsFromChk, maxStepsFromPayload]
  omega

/-- R118: a channel's start, its pairs and its end come before what follows the channel. -/
theorem stepsFromChan_eq (s : State) (c : Chan) :
    stepsFromChan s c = 2 + (s.chSize.get c).toNat / 2 + stepsAfterChan s c := by
  cases c <;> rfl

theorem stepsFromChan_le_c0 (s : State) (c : Chan) : stepsFromChan s c ≤ stepsFromChan s .c0 := by
  cases c <;> simp only [stepsFromChan] <;> omega

/-- In the pair loop one step is left for each pair before `end`, and one for the end of the channel. -/
theorem stepsLeft_of_pairs {s t : State} {c : Chan} {pos last : Nat} (hb : t.status.state = .busy)
    (hseq : t.seq = .pairs) (hchan : t.status.chan = c) (h1 : t.chSize = s.chSize) (h2 : t.width = s.width)
    (h3 : t.height = s.height) (hpos : t.pos.toNat = pos) (hend : t.endPos.toNat = last) :
    stepsLeft t = 1 + (last - pos) / 2 + stepsAfterChan s c := by
  have hafter : stepsAfterChan t c = stepsAfterChan s c := by
    cases c <;> simp only [stepsAfterChan, stepsFromChan, stepsFromChk, pixelCount, h1, h2, h3]
  simp only [stepsLeft, hb, hseq, hchan, hpos, hend, hafter, if_true]

theorem stepsLeft_of_not_busy {s : State} (h : s.status.state ≠ .busy) : stepsLeft s = 0 := if_neg h

theorem stepsLeft_pos {s : State} (h : RunOk s) (hb : s.status.state = .busy) : 0 < stepsLeft s := by
  have hne := h.seq_ne_idle
  rw [stepsLeft, if_pos hb]
  cases hseq : s.seq with
  | idle => exact absurd hseq hne
  | chanStart c => simp only [stepsFromChan_eq]; omega
  | chk => simp only [stepsFromChk]; omega
  | _ => simp only; omega

/-- R123, R290: no run has more steps left than the largest document's. -/
theorem stepsLeft_le {s : State} (hinv : Inv s) (hb : s.status.state = .busy) : stepsLeft s ≤ 1083025012 := by
  have hrun := hinv.runOk hb
  have htable (h : TableOk s) : stepsFromChan s .c0 + 1 ≤ maxStepsFromPayload (pixelCount s) := h.stepsFromChan_c0_lt
  have hpixels (h : HeaderOk s) : pixelCount s ≤ 100000000 := h.pixelCount_le
  rw [stepsLeft, if_pos hb]
  simp only [maxStepsFromPayload] at htable
  cases hseq : s.seq with
  | idle => exact absurd hseq hrun.seq_ne_idle
  | hdr => exact Nat.le_refl _
  | lt =>
    obtain ⟨-, hheader, -, -⟩ := hrun.at_lt hseq
    have hp := hpixels hheader
    simp only [maxStepsFromPayload]
    omega
  | payload =>
    obtain ⟨-, hok, -, -⟩ := hrun.at_payload hseq
    have ht := htable hok
    have hp := hpixels hok.toHeaderOk
    simp only
    omega
  | chanStart c =>
    obtain ⟨hok, -, -⟩ := hrun.at_chanStart hseq
    have ht := htable hok.toTableOk
    have hp := hpixels hok.toHeaderOk
    have hc := stepsFromChan_le_c0 s c
    simp only
    omega
  | pairs =>
    obtain ⟨-, hok, hcur, -, -⟩ := hrun.at_pairs hseq
    have ht := htable hok.toTableOk
    have hp := hpixels hok.toHeaderOk
    have hc := stepsFromChan_le_c0 s s.status.chan
    have heq := stepsFromChan_eq s s.status.chan
    have hend := hcur.endAt
    have hlow := hcur.low
    simp only
    omega
  | chk =>
    obtain ⟨-, hok, -, -⟩ := hrun.at_chk hseq
    have hp := hpixels hok.toHeaderOk
    simp only [stepsFromChk]
    omega
  | asmCheck =>
    obtain ⟨-, hok, -, -, -, -⟩ := hrun.at_asmCheck hseq
    have hp := hpixels hok.toHeaderOk
    simp only
    omega
  | emit =>
    obtain ⟨-, hok, -, -, -, -⟩ := hrun.at_emit hseq
    have hp := hpixels hok.toHeaderOk
    simp only
    omega

/-! ### What an engine step achieves -/

/-- The engine step of a run from `s` to `t`. -/
structure Advances (s t : State) : Prop where
  inv    : Inv t
  ended  : t.status.state ≠ .idle
  host   : t.host = s.host
  phase  : (phaseCode s.status.phase).toNat ≤ (phaseCode t.status.phase).toNat
  nearer : stepsLeft t < stepsLeft s

/-- The fields that no engine step changes while the run goes on. -/
def runFields (s : State) := (s.status.state, s.status.err, s.errInfo, s.errAddr, s.docLen, s.params, s.host)

/-- A step after which the run goes on. -/
theorem advances_running {s t : State} (hs : Inv s) (hb : s.status.state = .busy) (hbase : RunBase t)
    (e : runFields t = runFields s) (hchan : t.status.phase ≠ .dec → t.status.chan = .c0) (hrun : RunOk t)
    (hphase : (phaseCode s.status.phase).toNat ≤ (phaseCode t.status.phase).toNat)
    (hlt : stepsLeft t < stepsLeft s) : Advances s t := by
  simp only [runFields, Prod.mk.injEq] at e
  obtain ⟨hstate, herr, hinfo, haddr, hdoc, hparams, hhost⟩ := e
  obtain ⟨hnone, hfits, -⟩ := hs.busy hb
  have hidle : t.status.state ≠ .idle := by rw [hstate, hb]; nofun
  have hok : StateOk t := by
    simp only [StateOk, hstate, hb]
    exact ⟨herr.trans hnone, by rwa [hdoc, hparams], hrun⟩
  refine ⟨hbase.inv hidle (fun _ => ?_) hchan hok, hidle, hhost, hphase, hlt⟩
  rw [hinfo, haddr]
  exact hs.noError hnone

/-- 60_exceptions.md R252: raising ends the run, in ERROR or FATAL. -/
theorem raise_state (u : State) (e : ErrorName) (info addr : W32) :
    (u.raise e info addr).status.state ≠ .idle ∧ (u.raise e info addr).status.state ≠ .busy := by
  rw [raise_status]
  split_ifs <;> exact ⟨nofun, nofun⟩

/-- 60_exceptions.md R250, R252: what STATE says holds of a raised error; only a decode raises ResourceExhaustion. -/
theorem stateOk_raise {u : State} {e : ErrorName} (info addr : W32) (hout : u.out = []) (hbounds : e ≠ .outOfBounds)
    (hdec : e = .resourceExhaustion → u.status.phase = .dec) : StateOk (u.raise e info addr) := by
  by_cases he : e = .resourceExhaustion
  · simp only [StateOk, raise_status, if_pos he]
    exact ⟨congrArg some he, hdec he, hout, rfl⟩
  · simp only [StateOk, raise_status, if_neg he]
    exact ⟨⟨e, rfl, he, hbounds⟩, hout, rfl⟩

/-- A step that raises `e` in `u`. -/
theorem advances_raise {s u : State} {e : ErrorName} {info addr : W32} (hs : Inv s) (hb : s.status.state = .busy)
    (hbase : RunBase u) (hhost : u.host = s.host) (hchan : u.status.phase ≠ .dec → u.status.chan = .c0)
    (hphase : (phaseCode s.status.phase).toNat ≤ (phaseCode u.status.phase).toNat) (hout : u.out = [])
    (hbounds : e ≠ .outOfBounds) (hdec : e = .resourceExhaustion → u.status.phase = .dec) :
    Advances s (u.raise e info addr) := by
  have hbase' : RunBase (u.raise e info addr) := hbase.congr rfl rfl rfl rfl
  obtain ⟨hidle, hbusy⟩ := raise_state u e info addr
  refine ⟨hbase'.inv hidle nofun hchan (stateOk_raise info addr hout hbounds hdec), hidle, hhost, hphase, ?_⟩
  rw [stepsLeft_of_not_busy hbusy]
  exact stepsLeft_pos (hs.runOk hb) hb

/-! ### HDR, LT and PAYLOAD -/

/-- 41_header.md R140 to R143: the HDR phase raises, or latches dimensions within bounds. -/
theorem headerStep_cases (s : State) :
    (∃ w h e info addr, e ≠ .outOfBounds ∧ e ≠ .resourceExhaustion ∧
      headerStep s = State.raise e info addr { s.enter .hdr with width := w, height := h }) ∨
    (HeaderOk (latchDimensions (s.enter .hdr)) ∧
      headerStep s = { latchDimensions (s.enter .hdr) with seq := .lt }) := by
  simp only [headerStep, checkDimensions]
  split_ifs with hlen hmagic hwidth hheight
  · exact .inl ⟨s.width, s.height, _, _, _, by decide, by decide, rfl⟩
  · exact .inl ⟨s.width, s.height, _, _, _, by decide, by decide, rfl⟩
  · exact .inl ⟨_, _, _, _, _, by decide, by decide, rfl⟩
  · exact .inl ⟨_, _, _, _, _, by decide, by decide, rfl⟩
  · exact .inr ⟨⟨Nat.not_lt.mp hwidth, Nat.not_lt.mp hheight, Nat.not_lt.mp hlen⟩, rfl⟩

theorem advances_headerStep {s : State} (hs : Inv s) (hb : s.status.state = .busy) (hseq : s.seq = .hdr) :
    Advances s (headerStep s) := by
  obtain ⟨hphase, hzero, hout⟩ := (hs.runOk hb).at_hdr hseq
  have hchan : s.status.chan = .c0 := hs.chanPhase (by rw [hphase]; nofun)
  have hle : (phaseCode s.status.phase).toNat ≤ (phaseCode .hdr).toNat := by rw [hphase]; decide
  rcases headerStep_cases s with ⟨w, h, e, info, addr, hbounds, hres, heq⟩ | ⟨hheader, heq⟩ <;> rw [heq]
  · exact advances_raise hs hb ((hs.runBase hb).congr rfl rfl rfl rfl) rfl (fun _ => hchan) hle hout hbounds
      (fun he => absurd he hres)
  · refine advances_running hs hb ((hs.runBase hb).congr rfl rfl rfl rfl) rfl (fun _ => hchan)
      ⟨rfl, hheader.congr rfl rfl rfl, hzero.cbCap, hzero.chSize, hzero.totalSize, hout⟩ hle ?_
    have hpixels := hheader.pixelCount_le
    simp only [stepsLeft, hb, hseq, latchDimensions_status, enter_status, if_true, maxStepsFromPayload]
    simp only [pixelCount] at hpixels ⊢
    omega

/-- 42_length_table.md R161 to R164: the LT phase raises, or sums the table. -/
theorem ltStep_cases (s : State) :
    (∃ info addr, ltStep s = (s.enter .lt).raise .unexpectedEnd info addr) ∨
    (payloadStart s ≤ s.docLen.toNat ∧ ltStep s = { s.enter .lt with
      chSize := ⟨channelSum (s.enter .lt) .c0, channelSum (s.enter .lt) .c1, channelSum (s.enter .lt) .c2⟩
      totalSize := channelSum (s.enter .lt) .c0 + channelSum (s.enter .lt) .c1 + channelSum (s.enter .lt) .c2
      seq := .payload }) := by
  simp only [ltStep]
  split_ifs with hlen
  · exact .inl ⟨_, _, rfl⟩
  · exact .inr ⟨Nat.not_lt.mp hlen, rfl⟩

/-- R165: below the height bound a channel's size is at most 65535 a row. -/
theorem channelSum_le (s : State) (c : Chan) (h : s.height.toNat ≤ 10000) :
    (channelSum s c).toNat ≤ 65535 * s.height.toNat := by
  rw [channelSum_toNat s c h]
  exact sumEntries_le s c s.height.toNat

/-- 42_length_table.md R163 to R165: the sums of a table that is present are in order. -/
theorem tableOk_of_sums {s t : State} (h : HeaderOk s) (htable : payloadStart s ≤ s.docLen.toNat)
    (h1 : t.width = s.width) (h2 : t.height = s.height) (h3 : t.docLen = s.docLen)
    (h4 : t.chSize = ⟨channelSum s .c0, channelSum s .c1, channelSum s .c2⟩)
    (h5 : t.totalSize = channelSum s .c0 + channelSum s .c1 + channelSum s .c2) : TableOk t := by
  have hheight : s.height.toNat ≤ 10000 := h.height
  have hle (c : Chan) := channelSum_le s c hheight
  refine ⟨h.congr h1 h2 h3, fun c => ?_, ?_, ?_⟩
  · rw [h4, h2]
    cases c
    · exact hle .c0
    · exact hle .c1
    · exact hle .c2
  · have hle0 := hle .c0
    have hle1 := hle .c1
    have hle2 := hle .c2
    rw [h4, h5]
    simp only [BitVec.toNat_add]
    omega
  · rwa [show payloadStart t = payloadStart s by simp only [payloadStart, h2], h3]

theorem advances_ltStep {s : State} (hs : Inv s) (hb : s.status.state = .busy) (hseq : s.seq = .lt) :
    Advances s (ltStep s) := by
  obtain ⟨hphase, hheader, hcap, hout⟩ := (hs.runOk hb).at_lt hseq
  have hchan : s.status.chan = .c0 := hs.chanPhase (by rw [hphase]; nofun)
  have hle : (phaseCode s.status.phase).toNat ≤ (phaseCode .lt).toNat := by rw [hphase]; decide
  rcases ltStep_cases s with ⟨info, addr, heq⟩ | ⟨htable, heq⟩ <;> rw [heq]
  · exact advances_raise hs hb ((hs.runBase hb).congr rfl rfl rfl rfl) rfl (fun _ => hchan) hle hout nofun nofun
  · have hok := tableOk_of_sums (s := s.enter .lt) (t := ltStep s) (hheader.congr rfl rfl rfl) htable
      (by rw [heq]) (by rw [heq]) (by rw [heq]) (by rw [heq]) (by rw [heq])
    rw [heq] at hok
    have hsteps := hok.stepsFromChan_c0_lt
    refine advances_running hs hb ((hs.runBase hb).congr rfl rfl rfl rfl) rfl (fun _ => hchan)
      ⟨rfl, hok, hcap, hout⟩ hle ?_
    simp only [stepsLeft, hb, hseq, enter_status, if_true]
    exact Nat.add_lt_add_left hsteps 1

/-- 42_length_table.md R167: the PAYLOAD phase raises, or finds the payload present. -/
theorem payloadStep_cases (s : State) :
    (∃ info addr, payloadStep s = (s.enter .payload).raise .unexpectedEnd info addr) ∨
    (payloadStart s + s.totalSize.toNat ≤ s.docLen.toNat ∧
      payloadStep s = { s.enter .payload with seq := .chanStart .c0 }) := by
  simp only [payloadStep]
  split_ifs with hlen
  · exact .inl ⟨_, _, rfl⟩
  · exact .inr ⟨Nat.not_lt.mp hlen, rfl⟩

theorem advances_payloadStep {s : State} (hs : Inv s) (hb : s.status.state = .busy) (hseq : s.seq = .payload) :
    Advances s (payloadStep s) := by
  obtain ⟨hphase, htable, hcap, hout⟩ := (hs.runOk hb).at_payload hseq
  have hchan : s.status.chan = .c0 := hs.chanPhase (by rw [hphase]; nofun)
  have hle : (phaseCode s.status.phase).toNat ≤ (phaseCode .payload).toNat := by rw [hphase]; decide
  rcases payloadStep_cases s with ⟨info, addr, heq⟩ | ⟨hpayload, heq⟩ <;> rw [heq]
  · exact advances_raise hs hb ((hs.runBase hb).congr rfl rfl rfl rfl) rfl (fun _ => hchan) hle hout nofun nofun
  · have hok : PayloadOk s := ⟨htable, hpayload⟩
    refine advances_running hs hb ((hs.runBase hb).congr rfl rfl rfl rfl) rfl (fun _ => hchan)
      ⟨rfl, hok.congr rfl rfl rfl rfl rfl, hcap, hout⟩ hle ?_
    simp only [stepsLeft, hb, hseq, enter_status, if_true]
    exact Nat.lt_add_of_pos_left Nat.one_pos

/-! ### The decode of a channel -/

/-- 43_rle_decoder.md R180, R181: the start of a channel raises, or creates its buffer and sets the cursor. -/
theorem chanStartStep_cases (c : Chan) (s : State) :
    (∃ info addr, chanStartStep c s = ((s.enter .dec).setChan c).raise .oddStreamLength info addr) ∨
    ((s.chSize.get c).toNat % 2 = 0 ∧ chanStartStep c s = { cbNew c ((s.enter .dec).setChan c) with
      pos := BitVec.ofNat 32 (chanBase s c)
      endPos := BitVec.ofNat 32 (chanBase s c + (s.chSize.get c).toNat)
      seq := .pairs }) := by
  have hbase : chanBase ((s.enter .dec).setChan c) c = chanBase s c := chanBase_congr c rfl rfl
  simp only [chanStartStep, hbase]
  split_ifs with hodd
  · exact .inl ⟨_, _, rfl⟩
  · exact .inr ⟨Nat.mod_two_ne_one.mp hodd, rfl⟩

/-- 44_channel_buffer.md R211: a new buffer is in order, and the others stay so. -/
theorem bufferOk_cbNew {s : State} (h : ∀ c, BufferOk s c) (c d : Chan) : BufferOk (cbNew c s) d := by
  by_cases hd : d = c
  · subst hd
    refine ⟨?_, ?_, ?_, ?_⟩ <;> simp only [cbNew_cb, cbNew_cbLen, cbNew_cbCap, PerChan.get_set_self]
    · rfl
    · exact Nat.zero_le _
    · exact fun _ => trivial
    · exact fun _ => isCapacity_new
  · exact (h d).congr rfl (PerChan.get_set_ne _ _ _ _ hd) (PerChan.get_set_ne _ _ _ _ hd)
      (PerChan.get_set_ne _ _ _ _ hd)

theorem chan_eq_of_toNat_eq {c d : Chan} : c.toNat = d.toNat → c = d := by
  cases c <;> cases d <;> decide

/-- R211: when the buffers of just the earlier channels exist, creating channel `c`'s makes it those up to `c`. -/
theorem cbCap_cbNew_ne_zero_iff {s : State} {c : Chan} (h : ∀ d, s.cbCap.get d ≠ 0 ↔ d.toNat < c.toNat) (d : Chan) :
    (s.cbCap.set c 256).get d ≠ 0 ↔ d.toNat ≤ c.toNat := by
  by_cases hd : d = c
  · subst hd
    simp
  · have hne : d.toNat ≠ c.toNat := fun he => hd (chan_eq_of_toNat_eq he)
    rw [PerChan.get_set_ne _ _ _ _ hd, h d]
    omega

theorem advances_chanStartStep {s : State} {c : Chan} (hs : Inv s) (hb : s.status.state = .busy)
    (hseq : s.seq = .chanStart c) : Advances s (chanStartStep c s) := by
  obtain ⟨hok, hout, hcap⟩ := (hs.runOk hb).at_chanStart hseq
  have hle : (phaseCode s.status.phase).toNat ≤ (phaseCode .dec).toNat := by
    rcases (hs.runOk hb).phase_at_chanStart hseq with hphase | hphase
    · rw [hphase]; decide
    · rw [hphase]
  rcases chanStartStep_cases c s with ⟨info, addr, heq⟩ | ⟨heven, heq⟩ <;> rw [heq]
  · exact advances_raise hs hb ((hs.runBase hb).congr rfl rfl rfl rfl) rfl (fun hne => absurd rfl hne) hle hout nofun
      nofun
  · have hend := hok.subStream_le c
    have hdoc := s.docLen.isLt
    have hpos : (BitVec.ofNat 32 (chanBase s c)).toNat = chanBase s c := by
      rw [BitVec.toNat_ofNat]; omega
    have hendPos : (BitVec.ofNat 32 (chanBase s c + (s.chSize.get c).toNat)).toNat =
        chanBase s c + (s.chSize.get c).toNat := by
      rw [BitVec.toNat_ofNat]; omega
    refine advances_running hs hb ?base rfl (fun hne => absurd rfl hne) ⟨rfl, hok.congr rfl rfl rfl rfl rfl, ?cursor,
      hout, cbCap_cbNew_ne_zero_iff hcap⟩ hle ?nearer
    case base =>
      exact (hs.runBase hb).with_buffers rfl fun d => (bufferOk_cbNew hs.buffers c d).congr rfl rfl rfl rfl
    case cursor =>
      exact cursorOk_intro (chanBase s c) (s.chSize.get c).toNat (chanBase_congr c rfl rfl) rfl heven hendPos hpos.ge
        (hpos.trans_le (Nat.le_add_right _ _)) (by rw [hpos, Nat.sub_self])
    case nearer =>
      refine lt_of_eq_of_lt (stepsLeft_of_pairs (s := s) (c := c) hb rfl rfl rfl rfl rfl hpos hendPos) ?_
      simp only [stepsLeft, hb, hseq, if_true, stepsFromChan_eq]
      omega

/-- 43_rle_decoder.md R181: sizes are even, so a cursor below `end` has a whole pair before it. -/
theorem CursorOk.pair_fits {s : State} (h : CursorOk s) (hlt : s.pos < s.endPos) :
    s.pos.toNat + 2 ≤ s.endPos.toNat := by
  obtain ⟨hsize, hend, hlow, -, heven⟩ := h
  have hlt' : s.pos.toNat < s.endPos.toNat := hlt
  omega

theorem CursorOk.pos_add_two {s : State} (h : CursorOk s) (hlt : s.pos < s.endPos) :
    (s.pos + 2).toNat = s.pos.toNat + 2 := by
  have hfits := h.pair_fits hlt
  have hend := s.endPos.isLt
  rw [BitVec.toNat_add]
  exact Nat.mod_eq_of_lt (lt_of_le_of_lt hfits hend)

/-- R180, R182: a pair moves the cursor on within its sub-stream. -/
theorem CursorOk.advance {s t : State} (h : CursorOk s) (hlt : s.pos < s.endPos) (hpos : t.pos = s.pos + 2)
    (h1 : t.endPos = s.endPos) (h2 : t.chSize = s.chSize) (h3 : t.height = s.height)
    (h4 : t.status.chan = s.status.chan) : CursorOk t := by
  have hfits := h.pair_fits hlt
  have hadd := h.pos_add_two hlt
  obtain ⟨hsize, hend, hlow, -, heven⟩ := h
  refine cursorOk_intro (chanBase s s.status.chan) (s.chSize.get s.status.chan).toNat
    (by rw [h4, chanBase_congr _ h2 h3]) (by rw [h4, h2]) hsize (by rw [h1, hend]) ?_ ?_ ?_ <;>
  rw [hpos, hadd] <;> omega

/-- R212: appends keep the buffers in order. -/
theorem RunBase.grown {s u : State} {c : Chan} (h : RunBase s) (hg : Grown c s u) (hc : s.cbCap.get c ≠ 0) :
    RunBase u := by
  have hbuf (d : Chan) : BufferOk u d := by
    by_cases hd : d = c
    · subst hd
      exact (hg.keeps h.params (h.buffers d) hc).1
    · obtain ⟨hcb, hlen, hcap⟩ := hg.other_channels hd
      have hparams : u.params = s.params := by obtain ⟨vs, cap, k, rfl⟩ := hg.shape; rfl
      exact (h.buffers d).congr hparams hcb hlen hcap
  obtain ⟨vs, cap, k, rfl⟩ := hg.shape
  exact h.with_buffers rfl hbuf

/-- R210: appends neither create nor release a buffer. -/
theorem RunBase.grown_cbCap {s u : State} {c : Chan} (h : RunBase s) (hg : Grown c s u) (hc : s.cbCap.get c ≠ 0)
    (d : Chan) : u.cbCap.get d ≠ 0 ↔ s.cbCap.get d ≠ 0 := by
  by_cases hd : d = c
  · subst hd
    exact iff_of_true (hg.keeps h.params (h.buffers d) hc).2 hc
  · obtain ⟨-, -, hcap⟩ := hg.other_channels hd
    rw [hcap]

theorem advances_pair {s t : State} {i : Instr} (hs : Inv s) (hb : s.status.state = .busy) (hseq : s.seq = .pairs)
    (hlt : s.pos < s.endPos) (hp : i.isPair = true) (h : exec i (latchPair s) = .next t) : Advances s t := by
  obtain ⟨hphase, hok, hcur, hout, hcap⟩ := (hs.runOk hb).at_pairs hseq
  have hbase : RunBase (latchPair s) := (hs.runBase hb).congr rfl rfl rfl rfl
  have hc : s.cbCap.get s.status.chan ≠ 0 := (hcap _).mpr le_rfl
  obtain ⟨u, hu, ht⟩ := exec_pair_grown hp h
  have hbu : RunBase u := hbase.grown hu hc
  have hcapu (d : Chan) : u.cbCap.get d ≠ 0 ↔ d.toNat ≤ s.status.chan.toNat :=
    (hbase.grown_cbCap hu hc d).trans (hcap d)
  obtain ⟨vs, cap, k, rfl⟩ := hu.shape
  obtain rfl | ⟨info, rfl⟩ | ⟨info, rfl⟩ := ht
  · refine advances_running hs hb (hbu.congr rfl rfl rfl rfl) rfl hs.chanPhase ?run le_rfl ?nearer
    case run =>
      simp only [RunOk, latchPair_seq, hseq]
      exact ⟨hphase, hok.congr rfl rfl rfl rfl rfl, hcur.advance hlt rfl rfl rfl rfl rfl, hout, hcapu⟩
    case nearer =>
      have hfits := hcur.pair_fits hlt
      have hadd := hcur.pos_add_two hlt
      refine lt_of_eq_of_lt (stepsLeft_of_pairs (s := s) hb hseq rfl rfl rfl rfl hadd rfl) ?_
      rw [stepsLeft_of_pairs (s := s) hb hseq rfl rfl rfl rfl rfl rfl, latchPair_endPos, latchPair_status]
      omega
  · exact advances_raise hs hb hbu rfl hs.chanPhase le_rfl hout nofun nofun
  · exact advances_raise hs hb hbu rfl hs.chanPhase le_rfl hout nofun (fun _ => hphase)

/-- R189: a channel ends at the start of the next one, or of CHK. -/
theorem advances_chanEndStep {s : State} (hs : Inv s) (hb : s.status.state = .busy) (hseq : s.seq = .pairs) :
    Advances s (chanEndStep s) := by
  obtain ⟨hphase, hok, hcur, hout, hcap⟩ := (hs.runOk hb).at_pairs hseq
  have hbase : RunBase (chanEndStep s) := (hs.runBase hb).congr rfl rfl rfl rfl
  have hsteps := stepsLeft_of_pairs (s := s) (t := s) hb hseq rfl rfl rfl rfl rfl rfl
  have hnonzero (c : Chan) (hle : c.toNat ≤ s.status.chan.toNat) : s.cbCap.get c ≠ 0 := (hcap c).mpr hle
  have hzero (c : Chan) (hlt : s.status.chan.toNat < c.toNat) : s.cbCap.get c = 0 :=
    not_not.mp fun hne => Nat.not_le.mpr hlt ((hcap c).mp hne)
  refine advances_running hs hb hbase rfl hs.chanPhase ?run le_rfl ?nearer
  case run =>
    simp only [RunOk, chanEndStep]
    cases hchan : s.status.chan <;> rw [hchan] at hnonzero hzero <;> simp only [afterChan]
    · exact ⟨hphase, trivial, hok.congr rfl rfl rfl rfl rfl, hnonzero .c0 (by decide), hzero .c1 (by decide),
        hzero .c2 (by decide), hout⟩
    · exact ⟨hphase, trivial, hok.congr rfl rfl rfl rfl rfl, hnonzero .c0 (by decide), hnonzero .c1 (by decide),
        hzero .c2 (by decide), hout⟩
    · exact ⟨hphase, trivial, hok.congr rfl rfl rfl rfl rfl, fun c => hnonzero c (by cases c <;> decide), hout⟩
  case nearer =>
    have hnext : stepsLeft (chanEndStep s) = stepsAfterChan s s.status.chan := by
      simp only [stepsLeft, chanEndStep, hb, if_true]
      cases s.status.chan <;> rfl
    rw [hnext, hsteps]
    omega

/-! ### CHK and ASM -/

/-- 43_rle_decoder.md R190: CHK raises, or finds the three counts equal. -/
theorem chkStep_cases (s : State) :
    (chkStep s = ((s.enter .chk).setChan .c0).raise .channelLengthMismatch 0 0) ∨
    (s.cbLen.c0 = s.cbLen.c1 ∧ s.cbLen.c1 = s.cbLen.c2 ∧
      chkStep s = { (s.enter .chk).setChan .c0 with seq := .asmCheck }) := by
  simp only [chkStep]
  split_ifs with heq
  · obtain ⟨h01, h12⟩ := heq
    exact .inr ⟨h01, h12, rfl⟩
  · exact .inl rfl

theorem advances_chkStep {s : State} (hs : Inv s) (hb : s.status.state = .busy) (hseq : s.seq = .chk) :
    Advances s (chkStep s) := by
  obtain ⟨hphase, hok, hcap, hout⟩ := (hs.runOk hb).at_chk hseq
  have hle : (phaseCode s.status.phase).toNat ≤ (phaseCode .chk).toNat := by rw [hphase]; decide
  rcases chkStep_cases s with heq | ⟨h01, h12, heq⟩ <;> rw [heq]
  · exact advances_raise hs hb ((hs.runBase hb).congr rfl rfl rfl rfl) rfl (fun _ => rfl) hle hout nofun nofun
  · refine advances_running hs hb ((hs.runBase hb).congr rfl rfl rfl rfl) rfl (fun _ => rfl)
      ⟨rfl, hok.congr rfl rfl rfl rfl rfl, h01, h12, hcap, hout⟩ hle ?_
    simp only [stepsLeft, hb, hseq, setChan_status, enter_status, if_true, stepsFromChk]
    exact Nat.add_lt_add_right (by decide : 2 < 3) (pixelCount s)

/-- 45_raster_interleaver.md R230: ASM raises, or finds the raster's size right. -/
theorem asmCheckStep_cases (s : State) :
    (asmCheckStep s = (s.enter .asm).raise .rasterSizeMismatch 0 0) ∨
    (s.cbLen.c0.toNat = pixelCount s ∧ asmCheckStep s = { s.enter .asm with i := 0, seq := .emit }) := by
  simp only [asmCheckStep]
  split_ifs with hne
  · exact .inl rfl
  · exact .inr ⟨not_not.mp hne, rfl⟩

theorem advances_asmCheckStep {s : State} (hs : Inv s) (hb : s.status.state = .busy) (hseq : s.seq = .asmCheck) :
    Advances s (asmCheckStep s) := by
  obtain ⟨hphase, hok, h01, h12, hcap, hout⟩ := (hs.runOk hb).at_asmCheck hseq
  have hchan : s.status.chan = .c0 := hs.chanPhase (by rw [hphase]; nofun)
  have hle : (phaseCode s.status.phase).toNat ≤ (phaseCode .asm).toNat := by rw [hphase]; decide
  rcases asmCheckStep_cases s with heq | ⟨hsize, heq⟩ <;> rw [heq]
  · exact advances_raise hs hb ((hs.runBase hb).congr rfl rfl rfl rfl) rfl (fun _ => hchan) hle hout nofun nofun
  · have hcounts (c : Chan) : (s.cbLen.get c).toNat = pixelCount s := by
      cases c
      · exact hsize
      · exact (congrArg BitVec.toNat h01).symm.trans hsize
      · exact (congrArg BitVec.toNat (h01.trans h12)).symm.trans hsize
    refine advances_running hs hb ((hs.runBase hb).congr rfl rfl rfl rfl) rfl (fun _ => hchan)
      ⟨rfl, hok.congr rfl rfl rfl rfl rfl, hcounts, hcap, congrArg List.length hout.symm, ?_⟩ hle ?_
    · exact (congrArg List.length hout).trans_le (Nat.zero_le _)
    · simp only [stepsLeft, hb, hseq, enter_status, if_true]
      exact Nat.add_lt_add_right (by decide : 1 < 2) (pixelCount s)

/-- 45_raster_interleaver.md R231: an emission adds one triple and counts it. -/
theorem advances_emitOne {s : State} (hs : Inv s) (hb : s.status.state = .busy) (hseq : s.seq = .emit)
    (hlt : s.i.toNat < pixelCount s) : Advances s (emitOne s) := by
  obtain ⟨hphase, hok, hcounts, hcap, hi, hlen⟩ := (hs.runOk hb).at_emit hseq
  have hpixels : pixelCount s ≤ 100000000 := hok.pixelCount_le
  have hnext : (s.i + 1).toNat = s.i.toNat + 1 := toNat_add_one hlt (by omega)
  have hout : (emitOne s).out.length = s.out.length + 1 := List.length_append
  have hcount : (s.i + 1).toNat = (emitOne s).out.length := by rw [hnext, hi, hout]
  have hbase := hs.runBase hb
  refine advances_running hs hb ?base rfl hs.chanPhase ?run le_rfl ?nearer
  case base =>
    exact ⟨hbase.params, hbase.memory, hbase.inBound, hbase.raced, fun c => (hbase.buffers c).congr rfl rfl rfl rfl,
      hcount, hbase.outRead.trans (by rw [hout]; exact Nat.le_succ _), hbase.rdResult, hbase.unseen⟩
  case run =>
    simp only [RunOk, emitOne, hseq]
    exact ⟨hphase, hok.congr rfl rfl rfl rfl rfl, hcounts, hcap, hcount, hcount.ge.trans (hnext.trans_le hlt)⟩
  case nearer =>
    have hpx : pixelCount (emitOne s) = pixelCount s := rfl
    simp only [stepsLeft, hb, hseq, if_true]
    simp only [emitOne, hb, hseq, if_true, hnext]
    simp only [pixelCount] at hlt ⊢
    omega

/-- 40_pipeline_control.md R120, 45_raster_interleaver.md R234: with every triple emitted the run is DONE. -/
theorem advances_complete {s : State} (hs : Inv s) (hb : s.status.state = .busy) (hseq : s.seq = .emit)
    (hge : pixelCount s ≤ s.i.toNat) : Advances s (complete s) := by
  obtain ⟨hphase, hok, hcounts, hcap, hi, hlen⟩ := (hs.runOk hb).at_emit hseq
  obtain ⟨hnone, -, -⟩ := hs.busy hb
  have hbase : RunBase (complete s) := (hs.runBase hb).congr rfl rfl rfl rfl
  have hfull : s.out.length = pixelCount s := Nat.le_antisymm hlen (hi ▸ hge)
  refine ⟨hbase.inv nofun hs.noError hs.chanPhase ?_, nofun, rfl, le_rfl, ?_⟩
  · exact ⟨hphase, hnone, hcounts, hfull, hok.width, hok.height, rfl⟩
  · rw [stepsLeft_of_not_busy (s := complete s) nofun]
    exact stepsLeft_pos (hs.runOk hb) hb

theorem advances_emitStep {s : State} (hs : Inv s) (hb : s.status.state = .busy) (hseq : s.seq = .emit) :
    Advances s (emitStep s) := by
  rw [emitStep]
  split_ifs with hlt
  · exact advances_emitOne hs hb hseq hlt
  · exact advances_complete hs hb hseq (Nat.not_lt.mp hlt)

/-! ### The engine's step and the run -/

/-- R118, R122: every engine step of a run advances it. -/
theorem advances_engineStep {s t : State} (hs : Inv s) (hb : s.status.state = .busy) (h : engineStep s = .next t) :
    Advances s t := by
  have hd : Inv s.drawNext := hs.drawNext hb
  have hsteps {u : State} (hu : Advances s.drawNext u) : Advances s u :=
    ⟨hu.inv, hu.ended, hu.host, hu.phase, hu.nearer⟩
  rcases engineStep_cases h with ⟨hne, -⟩ | ⟨-, -, ⟨hseq, -⟩ | ⟨hseq, rfl⟩ | ⟨hseq, rfl⟩ | ⟨hseq, rfl⟩ |
    ⟨c, hseq, rfl⟩ | ⟨hseq, -, rfl⟩ | ⟨hseq, hlt, -, hpair⟩ | ⟨hseq, rfl⟩ | ⟨hseq, rfl⟩ | ⟨hseq, rfl⟩⟩
  · exact absurd hb hne
  · exact absurd hseq (hs.runOk hb).seq_ne_idle
  · exact hsteps (advances_headerStep hd hb hseq)
  · exact hsteps (advances_ltStep hd hb hseq)
  · exact hsteps (advances_payloadStep hd hb hseq)
  · exact hsteps (advances_chanStartStep hd hb hseq)
  · exact hsteps (advances_chanEndStep hd hb hseq)
  · exact hsteps (advances_pair hd hb hseq hlt (decodePair_isPair _ _) hpair)
  · exact hsteps (advances_chkStep hd hb hseq)
  · exact hsteps (advances_asmCheckStep hd hb hseq)
  · exact hsteps (advances_emitStep hd hb hseq)

/-- Settles O51, from `advances_engineStep`. -/
theorem everyEngineStepComesNearerTheEnd : Obligations.EveryEngineStepComesNearerTheEnd :=
  fun _ _ hs hb h => (advances_engineStep hs hb h).nearer

/-- Settles O59: an engine step by `advances_engineStep`; a host move while BUSY leaves PHASE alone. -/
theorem phaseNeverDecreasesWithinARun : Obligations.PhaseNeverDecreasesWithinARun := by
  intro s t hs hb h hreset hpower
  rcases step_next_cases h with ⟨-, hengine⟩ | ⟨m, hm, hact⟩
  · obtain ⟨pending, hturn⟩ := engineTurn_eq s
    rw [hturn] at hengine
    exact (advances_engineStep (s := { s with host := pending }) (hs.with_host pending) hb hengine).phase
  · rw [hm] at hreset hpower
    obtain ⟨⟨b, hstatus⟩, -⟩ := hostAct_busy_keepsRun hact (fun he => hreset (he ▸ rfl))
      (fun he => hpower (he ▸ rfl)) hb
    rw [hstatus]

/-- A pair always answers a next state. -/
theorem exec_pair_total {i : Instr} (hp : i.isPair = true) (s : State) : ∃ t, exec i s = .next t := by
  have hfinish (r : EngineResult) : ∃ t, finishPair r = .next t := by cases r <;> exact ⟨_, rfl⟩
  cases i with
  | lit v => exact hfinish _
  | rep ctrl v => exact hfinish _
  | illegal ctrl v => exact ⟨_, rfl⟩
  | illegal80 v => exact ⟨_, rfl⟩
  | _ => cases hp

/-- 43_rle_decoder.md R182: the pair loop of a state of the invariant fetches below DOC_LEN. -/
theorem pairStep_total {s : State} (hok : PayloadOk s) (hcur : CursorOk s) : ∃ t, pairStep s = .next t := by
  have hend := hcur.endAt
  have hdoc := hok.subStream_le s.status.chan
  rw [pairStep]
  split_ifs with hdone hbeyond
  · exact ⟨_, rfl⟩
  · have hfits := hcur.pair_fits (Nat.not_le.mp hdone)
    omega
  · exact exec_pair_total (decodePair_isPair _ _) _

/-- No engine step of a run faults or refuses. -/
theorem engineStep_total {s : State} (hs : Inv s) (hb : s.status.state = .busy) : ∃ t, engineStep s = .next t := by
  have hd : Inv s.drawNext := hs.drawNext hb
  obtain ⟨-, hfits, -⟩ := hs.busy hb
  rw [engineStep_of_busy hb hfits, runSeq]
  cases hseq : s.drawNext.seq with
  | pairs =>
    obtain ⟨-, hok, hcur, -, -⟩ := (hd.runOk hb).at_pairs hseq
    exact pairStep_total hok hcur
  | _ => exact ⟨_, rfl⟩

/-- R121, R123: a run with no host move pending ends within the steps it has left. -/
theorem run_ends_within (n : Nat) {s : State} (hs : Inv s) (hb : s.status.state = .busy) (hhost : s.host = [])
    (hn : stepsLeft s ≤ n) : ∃ k t, k ≤ n ∧ Host.Core.run core k s = .next t ∧
      (t.status.state = .done ∨ t.status.state = .error ∨ t.status.state = .fatal) := by
  induction n generalizing s with
  | zero => exact absurd hn (Nat.not_le.mpr (stepsLeft_pos (hs.runOk hb) hb))
  | succ n ih =>
    obtain ⟨u, hu⟩ := engineStep_total hs hb
    have hadv := advances_engineStep hs hb hu
    have hstep : step s = .next u := (step_of_no_host hhost).trans hu
    have hnearer := hadv.nearer
    cases hstate : u.status.state with
    | idle => exact absurd hstate hadv.ended
    | busy =>
      obtain ⟨k, t, hk, hrun, hend⟩ := ih hadv.inv hstate (hadv.host.trans hhost) (by omega)
      exact ⟨k + 1, t, Nat.succ_le_succ hk, (run_succ k hstep).trans hrun, hend⟩
    | done => exact ⟨1, u, Nat.le_add_left 1 n, run_succ 0 hstep, .inl hstate⟩
    | error => exact ⟨1, u, Nat.le_add_left 1 n, run_succ 0 hstep, .inr (.inl hstate)⟩
    | fatal => exact ⟨1, u, Nat.le_add_left 1 n, run_succ 0 hstep, .inr (.inr hstate)⟩

/-- Settles O52: the run ends within the steps it has left, which are at most the largest document's. -/
theorem everyRunEndsWithinTheBound : Obligations.EveryRunEndsWithinTheBound :=
  fun _ hs hb hhost => run_ends_within 1083025012 hs hb hhost (stepsLeft_le hs hb)

end Sys2Proof.Safety
end

section
/-! SUPPORT. Proofs of the statements about the HDR phase (41_header.md): what its step does in each of
the cases R144 puts in order, what it leaves unchanged, and which header bytes it reads. -/

namespace Sys2Proof.Machine

open Sys2Proof.Safety

/-! ### The engine step of the HDR phase -/

/-- The engine step of the HDR phase answers `headerStep`, wherever DOC_LEN lies within IN. -/
theorem engineStep_hdr_iff {s t : State} (hb : s.status.state = .busy) (hseq : s.seq = .hdr) :
    engineStep s = .next t ↔ s.docLen.toNat ≤ s.params.inSizeMax ∧ headerStep s.drawNext = t := by
  by_cases hfits : s.docLen.toNat ≤ s.params.inSizeMax
  · simp [engineStep_of_busy hb hfits, runSeq, hseq, hfits]
  · simp [engineStep, hb, hfits, Nat.not_le.mp hfits]

/-! ### The signature (R141) -/

/-- R141: `MAGIC` stands at offset 0 just if its four bytes do. -/
theorem memRead_eq_magic_iff (s : State) : memRead s 0 4 = magic ↔
    inByte s 0 = 0x6A ∧ inByte s 1 = 0x87 ∧ inByte s 2 = 0x01 ∧ inByte s 3 = 0x00 := by
  simp [memRead, magic]

/-- R141's `k`: the lists agree before it and differ at it. -/
theorem firstDiff_eq {k : Nat} {as bs : List Byte} (has : k < as.length) (hbs : k < bs.length)
    (heq : ∀ j < k, as[j]? = bs[j]?) (hne : as[k]? ≠ bs[k]?) : firstDiff as bs = k := by
  induction k generalizing as bs with
  | zero =>
    match as, bs with
    | a :: as, b :: bs =>
      have hab : a ≠ b := by simpa using hne
      rw [firstDiff, if_neg hab]
  | succ k ih =>
    match as, bs with
    | a :: as, b :: bs =>
      have hab : a = b := by simpa using heq 0 (Nat.succ_pos k)
      have htail : firstDiff as bs = k :=
        ih (by simpa using has) (by simpa using hbs) (fun j hj => by simpa using heq (j + 1) (Nat.succ_lt_succ hj))
          (by simpa using hne)
      rw [firstDiff, if_pos hab, htail]

/-- R141: a signature that first differs from `MAGIC` at offset `k` is refused with that offset. -/
theorem firstDiff_memRead_magic {s : State} {k : Nat} (hk : k < 4)
    (heq : ∀ j < k, some (inByte s j) = magic[j]?) (hne : some (inByte s k) ≠ magic[k]?) :
    memRead s 0 4 ≠ magic ∧ firstDiff (memRead s 0 4) magic = k := by
  have hread {j : Nat} (hj : j < 4) : (memRead s 0 4)[j]? = some (inByte s j) := by
    simpa using memRead_getElem s 0 4 j hj
  rw [← hread hk] at hne
  refine ⟨fun h => hne (by rw [h]), firstDiff_eq (by simpa using hk) hk (fun j hj => ?_) hne⟩
  rw [hread (hj.trans hk), heq j hj]

/-! ### The step, case by case in R144's order -/

theorem headerStep_short {s : State} (h : s.docLen.toNat < 40) :
    headerStep s = (s.enter .hdr).raise .unexpectedEnd 40 0 := if_pos h

theorem headerStep_of_bad_signature {s : State} (hlen : 40 ≤ s.docLen.toNat) (hsig : memRead s 0 4 ≠ magic) :
    headerStep s = (s.enter .hdr).raise .signatureMismatch
      (sigInfo (inByte s 0) (inByte s 1) (inByte s 2) (inByte s 3))
      (BitVec.ofNat 32 (firstDiff (memRead s 0 4) magic)) :=
  (if_neg (Nat.not_lt.mpr hlen)).trans (if_pos hsig)

theorem headerStep_of_signature {s : State} (hlen : 40 ≤ s.docLen.toNat) (hsig : memRead s 0 4 = magic) :
    headerStep s = checkDimensions (latchDimensions (s.enter .hdr)) :=
  (if_neg (Nat.not_lt.mpr hlen)).trans (if_neg (not_not_intro hsig))

theorem checkDimensions_wide {s : State} (hw : 10000 < s.width.toNat) :
    checkDimensions s = s.raise .resolutionTooLarge (dimInfo 0 s.width) 8 := if_pos hw

theorem checkDimensions_tall {s : State} (hw : s.width.toNat ≤ 10000) (hh : 10000 < s.height.toNat) :
    checkDimensions s = s.raise .resolutionTooLarge (dimInfo 1 s.height) 12 :=
  (if_neg (Nat.not_lt.mpr hw)).trans (if_pos hh)

theorem checkDimensions_of_le {s : State} (hw : s.width.toNat ≤ 10000) (hh : s.height.toNat ≤ 10000) :
    checkDimensions s = { s with seq := .lt } :=
  (if_neg (Nat.not_lt.mpr hw)).trans (if_neg (Nat.not_lt.mpr hh))

/-- R143: the bounds check rewrites no dimension. -/
theorem checkDimensions_dims (s : State) :
    (checkDimensions s).width = s.width ∧ (checkDimensions s).height = s.height := by
  unfold checkDimensions
  split_ifs <;> exact ⟨rfl, rfl⟩

/-- R142: a field of two bytes fits its register. -/
theorem ofNat_be16_toNat (s : State) (a : Nat) : (BitVec.ofNat 16 (be16 s a)).toNat = be16 s a :=
  Nat.mod_eq_of_lt (be16_lt s a)

/-- R140, R144: PHASE is HDR in every case, and CHAN is kept. -/
theorem headerStep_phase_chan (s : State) :
    (headerStep s).status.phase = .hdr ∧ (headerStep s).status.chan = s.status.chan := by
  rcases headerStep_cases s with ⟨w, h, e, info, addr, -, -, heq⟩ | ⟨-, heq⟩ <;> rw [heq] <;> exact ⟨rfl, rfl⟩

/-- R143, R144: the bounds check after the dimensions are latched. -/
theorem checkDimensions_outcome (s : State) :
    (10000 < s.width.toNat →
      (checkDimensions s).status.state = .error ∧ (checkDimensions s).status.err = some .resolutionTooLarge ∧
      (checkDimensions s).errInfo.toNat = s.width.toNat ∧ (checkDimensions s).errAddr = 8) ∧
    (s.width.toNat ≤ 10000 → 10000 < s.height.toNat →
      (checkDimensions s).status.state = .error ∧ (checkDimensions s).status.err = some .resolutionTooLarge ∧
      (checkDimensions s).errInfo.toNat = 2 ^ 16 + s.height.toNat ∧ (checkDimensions s).errAddr = 12) ∧
    (s.width.toNat ≤ 10000 → s.height.toNat ≤ 10000 →
      (checkDimensions s).status.state = s.status.state ∧ (checkDimensions s).status.err = s.status.err ∧
      (checkDimensions s).seq = .lt) := by
  refine ⟨fun hw => ?_, fun hw hh => ?_, fun hw hh => ?_⟩
  · rw [checkDimensions_wide hw]
    exact ⟨rfl, rfl, by simp [dimInfo_toNat], rfl⟩
  · rw [checkDimensions_tall hw hh]
    exact ⟨rfl, rfl, by simp [dimInfo_toNat], rfl⟩
  · rw [checkDimensions_of_le hw hh]
    exact ⟨rfl, rfl, rfl⟩

/-- Settles O38: the step is `headerStep`, case by case in R144's order. -/
theorem headerPhaseChecksInOrder : Obligations.HeaderPhaseChecksInOrder := by
  rintro s u hb hseq hfits rfl
  obtain ⟨hphase, hchan⟩ := headerStep_phase_chan s.drawNext
  refine ⟨headerStep s.drawNext, (engineStep_hdr_iff hb hseq).mpr ⟨hfits, rfl⟩, hphase, hchan, fun hshort => ?_,
    fun k hlen hk heq hne => ?_, fun hlen h0 h1 h2 h3 => ?_⟩
  · rw [headerStep_short (s := s.drawNext) hshort]
    exact ⟨rfl, rfl, rfl, rfl, rfl, rfl⟩
  · obtain ⟨hsig, hdiff⟩ := firstDiff_memRead_magic hk heq hne
    rw [headerStep_of_bad_signature (s := s.drawNext) hlen hsig, hdiff]
    have haddr : (BitVec.ofNat 32 k).toNat = k := Nat.mod_eq_of_lt (by omega)
    exact ⟨rfl, rfl, rfl, haddr, rfl, rfl⟩
  · have hsig : memRead s.drawNext 0 4 = magic := (memRead_eq_magic_iff _).mpr ⟨h0, h1, h2, h3⟩
    rw [headerStep_of_signature (s := s.drawNext) hlen hsig]
    obtain ⟨hwide, htall, hok⟩ := checkDimensions_outcome (latchDimensions (s.drawNext.enter .hdr))
    obtain ⟨hwidth, hheight⟩ := checkDimensions_dims (latchDimensions (s.drawNext.enter .hdr))
    rw [hwidth, hheight]
    refine ⟨ofNat_be16_toNat _ wOff, ofNat_be16_toNat _ hOff, hwide, htall, fun hw hh => ?_⟩
    obtain ⟨hstate, hrest⟩ := hok hw hh
    exact ⟨hstate.trans hb, hrest⟩

/-! ### What the step leaves unchanged (R147) -/

theorem headerStep_buffers (s : State) :
    (headerStep s).cbCap = s.cbCap ∧ (headerStep s).cbLen = s.cbLen ∧ (headerStep s).cb = s.cb := by
  rcases headerStep_cases s with ⟨w, h, e, info, addr, -, -, heq⟩ | ⟨-, heq⟩ <;> rw [heq] <;> exact ⟨rfl, rfl, rfl⟩

/-- Settles O39: the step writes no buffer (`headerStep_buffers`), and neither IN nor OUT. -/
theorem headerPhaseCreatesNoBuffer : Obligations.HeaderPhaseCreatesNoBuffer := by
  intro s t hb hseq h
  obtain ⟨-, rfl⟩ := (engineStep_hdr_iff hb hseq).mp h
  obtain ⟨hcap, hlen, hcb⟩ := headerStep_buffers s.drawNext
  obtain ⟨hin, hout⟩ := headerStep_inMem_out s.drawNext
  exact ⟨hcap, hlen, hcb, hin, hout, fun hzero c => by rw [hcap]; exact hzero c⟩

/-! ### The header bytes the step reads (R145) -/

/-- The bounds check reads no IN byte. -/
theorem checkDimensions_with_inMem (s : State) (m : Memory) :
    checkDimensions { s with inMem := m } = { checkDimensions s with inMem := m } := by
  simp only [checkDimensions]
  split_ifs <;> rfl

/-- R142: the dimensions are latched from the bytes at 8, 9, 12 and 13. -/
theorem latchDimensions_with_inMem {s : State} {m : Memory}
    (h : ∀ a ∈ [8, 9, 12, 13], inByte { s with inMem := m } a = inByte s a) :
    latchDimensions { s with inMem := m } = { latchDimensions s with inMem := m } := by
  have hw : be16 { s with inMem := m } wOff = be16 s wOff := by simp [be16, wOff, h]
  have hh : be16 { s with inMem := m } hOff = be16 s hOff := by simp [be16, hOff, h]
  simp only [latchDimensions, hw, hh]

/-- R145: the step reads IN at the signature and the dimensions only. -/
theorem headerStep_with_inMem {s : State} {m : Memory}
    (h : ∀ a ∈ [0, 1, 2, 3, 8, 9, 12, 13], inByte { s with inMem := m } a = inByte s a) :
    headerStep { s with inMem := m } = { headerStep s with inMem := m } := by
  have hmem : memRead { s with inMem := m } 0 4 = memRead s 0 4 := by simp [memRead, h]
  rcases Nat.lt_or_ge s.docLen.toNat 40 with hlen | hlen
  · rw [headerStep_short hlen, headerStep_short (s := { s with inMem := m }) hlen]
    rfl
  · by_cases hsig : memRead s 0 4 = magic
    · have hlatch : latchDimensions { s.enter .hdr with inMem := m } =
          { latchDimensions (s.enter .hdr) with inMem := m } :=
        latchDimensions_with_inMem fun a ha => h a (List.mem_append_right [0, 1, 2, 3] ha)
      rw [headerStep_of_signature hlen hsig,
        headerStep_of_signature (s := { s with inMem := m }) hlen (hmem.trans hsig),
        ← checkDimensions_with_inMem, ← hlatch]
      rfl
    · rw [headerStep_of_bad_signature hlen hsig,
        headerStep_of_bad_signature (s := { s with inMem := m }) hlen (by rwa [hmem]), hmem]
      simp only [h, List.mem_cons, true_or, or_true]
      rfl

/-- Settles O40, from `headerStep_with_inMem`. -/
theorem headerGapBytesAffectNothing : Obligations.HeaderGapBytesAffectNothing := by
  intro s m hb hseq hbytes t h
  obtain ⟨hfits, rfl⟩ := (engineStep_hdr_iff hb hseq).mp h
  exact (engineStep_hdr_iff (s := { s with inMem := m }) hb hseq).mpr ⟨hfits, headerStep_with_inMem hbytes⟩

end Sys2Proof.Machine
end

section
/-! SUPPORT. Proofs of the statements about the LT and PAYLOAD phases (42_length_table.md): what each step does when
the part of the document it needs is absent, and when it is present. -/

namespace Sys2Proof.Machine

open Sys2Proof.Safety

/-! ### The LT phase (R160 to R164) -/

theorem engineStep_lt {s : State} (hb : s.status.state = .busy) (hseq : s.seq = .lt)
    (hfits : s.docLen.toNat ≤ s.params.inSizeMax) : engineStep s = .next (ltStep s.drawNext) := by
  simp [engineStep_of_busy hb hfits, runSeq, hseq]

/-- R161: a document that ends before its table does. -/
theorem ltStep_truncated {s : State} (h : s.docLen.toNat < payloadStart s) :
    ltStep s = (s.enter .lt).raise .unexpectedEnd (BitVec.ofNat 32 (payloadStart s)) 40 := if_pos h

/-- Entering a phase changes no byte of the table. -/
theorem channelSum_enter (s : State) (p : Phase) (c : Chan) : channelSum (s.enter p) c = channelSum s c := by
  unfold channelSum
  rw [sumEntries_eq_sum, sumEntries_eq_sum]
  rfl

/-- R163, R164: a table that is present is summed. -/
theorem ltStep_of_table {s : State} (h : payloadStart s ≤ s.docLen.toNat) :
    ltStep s = { s.enter .lt with
      chSize := ⟨channelSum s .c0, channelSum s .c1, channelSum s .c2⟩
      totalSize := channelSum s .c0 + channelSum s .c1 + channelSum s .c2
      seq := .payload } := by
  simp only [← channelSum_enter s .lt]
  exact if_neg (Nat.not_lt.mpr h)

/-- R160, R162, R163: `CH_SIZE[c]` is the sum of the channel's big-endian entries. -/
theorem channelSum_toNat_eq_sum (s : State) (c : Chan) (h : s.height.toNat ≤ 10000) :
    (channelSum s c).toNat = ((List.range s.height.toNat).map fun r =>
      (inByte s (40 + 2 * s.height.toNat * c.toNat + 2 * r)).toNat * 256
        + (inByte s (40 + 2 * s.height.toNat * c.toNat + 2 * r + 1)).toNat).sum := by
  rw [channelSum_toNat s c h, sumEntries_eq_sum]
  rfl

/-- R164, R165: below the height bound the total does not overflow its register. -/
theorem channelSums_add_toNat (s : State) (h : s.height.toNat ≤ 10000) :
    (channelSum s .c0 + channelSum s .c1 + channelSum s .c2).toNat =
      (channelSum s .c0).toNat + (channelSum s .c1).toNat + (channelSum s .c2).toNat := by
  have h0 := channelSum_le s .c0 h
  have h1 := channelSum_le s .c1 h
  have h2 := channelSum_le s .c2 h
  simp only [BitVec.toNat_add]
  omega

theorem ltStep_phase (s : State) : (ltStep s).status.phase = .lt := by
  rcases ltStep_cases s with ⟨info, addr, heq⟩ | ⟨-, heq⟩ <;> rw [heq] <;> rfl

/-- `P0` fits a register for every height (R166). -/
theorem ofNat_payloadStart_toNat (s : State) : (BitVec.ofNat 32 (payloadStart s)).toNat = payloadStart s := by
  have hheight := s.height.isLt
  exact Nat.mod_eq_of_lt (by rw [payloadStart_eq]; omega)

/-- Settles O41: the step is `ltStep`, on each side of the end of the table. -/
theorem lengthTablePhaseSumsEntries : Obligations.LengthTablePhaseSumsEntries := by
  rintro s u h hb hseq hfits rfl rfl hheight
  have hstart : payloadStart s.drawNext = 40 + 6 * s.height.toNat := payloadStart_eq s.drawNext
  refine ⟨ltStep s.drawNext, engineStep_lt hb hseq hfits, ltStep_phase _, fun hshort => ?_, fun htable => ?_⟩
  · rw [ltStep_truncated (s := s.drawNext) (hstart ▸ hshort)]
    exact ⟨rfl, rfl, (ofNat_payloadStart_toNat _).trans hstart, rfl, rfl, rfl⟩
  · rw [ltStep_of_table (s := s.drawNext) (hstart ▸ htable)]
    refine ⟨fun c => ?_, channelSums_add_toNat s.drawNext hheight, hb, rfl, rfl⟩
    have hsum := channelSum_toNat_eq_sum s.drawNext c hheight
    cases c <;> exact hsum

/-! ### The PAYLOAD phase (R167) -/

theorem engineStep_payload {s : State} (hb : s.status.state = .busy) (hseq : s.seq = .payload)
    (hfits : s.docLen.toNat ≤ s.params.inSizeMax) : engineStep s = .next (payloadStep s.drawNext) := by
  simp [engineStep_of_busy hb hfits, runSeq, hseq]

/-- R167: a document that ends before its payload does. -/
theorem payloadStep_truncated {s : State} (h : s.docLen.toNat < payloadStart s + s.totalSize.toNat) :
    payloadStep s = (s.enter .payload).raise .unexpectedEnd
      (BitVec.ofNat 32 (payloadStart s + s.totalSize.toNat)) (BitVec.ofNat 32 (payloadStart s)) := if_pos h

theorem payloadStep_of_payload {s : State} (h : payloadStart s + s.totalSize.toNat ≤ s.docLen.toNat) :
    payloadStep s = { s.enter .payload with seq := .chanStart .c0 } := if_neg (Nat.not_lt.mpr h)

theorem payloadStep_phase_buffers (s : State) : (payloadStep s).status.phase = .payload ∧
    (payloadStep s).cbCap = s.cbCap ∧ (payloadStep s).cb = s.cb := by
  rcases payloadStep_cases s with ⟨info, addr, heq⟩ | ⟨-, heq⟩ <;> rw [heq] <;> exact ⟨rfl, rfl, rfl⟩

/-- R165: once the table has been summed, the length a document needs fits a register. -/
theorem ofNat_payloadEnd_toNat {s : State} (h : TableOk s) :
    (BitVec.ofNat 32 (payloadStart s + s.totalSize.toNat)).toNat = payloadStart s + s.totalSize.toNat := by
  have hheight : s.height.toNat ≤ 10000 := h.height
  have h0 : s.chSize.c0.toNat ≤ 65535 * s.height.toNat := h.sizes .c0
  have h1 : s.chSize.c1.toNat ≤ 65535 * s.height.toNat := h.sizes .c1
  have h2 : s.chSize.c2.toNat ≤ 65535 * s.height.toNat := h.sizes .c2
  have htotal := h.total
  exact Nat.mod_eq_of_lt (by rw [payloadStart_eq]; omega)

/-- Settles O42: the step is `payloadStep`, on each side of the end of the payload. -/
theorem payloadPhaseChecksPresence : Obligations.PayloadPhaseChecksPresence := by
  rintro s p0 hb hseq hfits htable rfl
  have hstart : payloadStart s.drawNext = 40 + 6 * s.height.toNat := payloadStart_eq s.drawNext
  have hlast : payloadStart s.drawNext + s.drawNext.totalSize.toNat =
      40 + 6 * s.height.toNat + s.totalSize.toNat := congrArg (· + s.totalSize.toNat) hstart
  obtain ⟨hphase, hcap, hcb⟩ := payloadStep_phase_buffers s.drawNext
  refine ⟨payloadStep s.drawNext, engineStep_payload hb hseq hfits, hphase, hcap, hcb, fun hshort => ?_,
    fun hpresent => ?_⟩
  · rw [payloadStep_truncated (s := s.drawNext) (hlast ▸ hshort)]
    exact ⟨rfl, rfl, (ofNat_payloadEnd_toNat htable).trans hlast, (ofNat_payloadStart_toNat _).trans hstart⟩
  · rw [payloadStep_of_payload (s := s.drawNext) (hlast ▸ hpresent)]
    exact ⟨hb, rfl, rfl⟩

end Sys2Proof.Machine
end

section
/-! SUPPORT. Proofs of the statements about the RLE decoder's steps (43_rle_decoder.md): what each pair appends or raises,
the pair loop, the start and the end of a channel's decode, the cross-channel check, and that no engine step stops. -/

namespace Sys2Proof.Machine

open Sys2Proof.Safety

/-! ### The pairs (R183 to R186) -/

/-- R212: a LIT onto a buffer at CB_LEN_MAX. -/
theorem exec_lit_of_full {v : Byte} {s : State} (h : (s.cbLen.get s.status.chan).toNat = s.params.cbLenMax) :
    exec (.lit v) s = .next (s.raise .resourceExhaustion (chanInfo s.status.chan 0) s.pos) := by
  simp only [exec, execLit, cbAppend, if_pos h, finishPair]

/-- Settles O27, on each side of CB_LEN_MAX. -/
theorem litAppendsItsValueOnce : Obligations.LitAppendsItsValueOnce := by
  refine ⟨fun v => decodePair_eq_lit rfl v, ?_⟩
  rintro v s _ rfl
  refine ⟨fun hroom => ?_, fun hfull => ⟨_, exec_lit_of_full hfull, rfl, chanInfo_toNat _ 0, rfl, rfl, rfl, rfl, rfl⟩⟩
  rw [exec_lit_of_not_full hroom, cbPush_eq]
  rfl

theorem repCount_of_wf {ctrl v : Byte} (h : (Instr.rep ctrl v).wf = true) : repCount ctrl = 257 - ctrl.toNat := by
  have hctrl : 0x81 ≤ ctrl.toNat := of_decide_eq_true h
  exact repCount_eq ctrl (by omega)

/-- Settles O28: the run is `257 - ctrl` pushes, and each keeps the capacity the least that holds the values. -/
theorem repAppendsItsRun : Obligations.RepAppendsItsRun := by
  rintro ctrl v s _ n hwf rfl rfl ⟨-, -, -, hmax⟩ hfits
  have hcount := repCount_of_wf hwf
  refine ⟨capPushes (257 - ctrl.toNat) (s.cbLen.get s.status.chan) (s.cbCap.get s.status.chan), ?_,
    capPushes_isCapacity (by omega)⟩
  rw [exec_rep_of_fits hmax (by rwa [hcount]), hcount]
  simp only [pushes, BitVec.sub_self]
  rfl

/-- R184, R212, R253: a run that does not fit. -/
theorem exec_rep_of_not_fits {ctrl v : Byte} {s : State} (hmax : s.params.cbLenMax ≤ 2 ^ 31)
    (hlen : (s.cbLen.get s.status.chan).toNat ≤ s.params.cbLenMax)
    (h : s.params.cbLenMax < (s.cbLen.get s.status.chan).toNat + repCount ctrl) :
    exec (.rep ctrl v) s = .next
      ((pushes s.status.chan v (s.params.cbLenMax - (s.cbLen.get s.status.chan).toNat)
        { s with cnt := BitVec.ofNat 8 (repCount ctrl) }).raise .resourceExhaustion (chanInfo s.status.chan 0) s.pos) :=
  congrArg finishPair (appendRun_raised s.status.chan v (repCount ctrl) { s with cnt := BitVec.ofNat 8 (repCount ctrl) }
    hmax hlen h)

/-- Settles O29: the run pushes as many values as there is room for, and raises. -/
theorem repThatDoesNotFitIsExhausted : Obligations.RepThatDoesNotFitIsExhausted := by
  rintro ctrl v s _ n hwf rfl rfl ⟨-, -, -, hmax⟩ hlen hover
  refine ⟨_, exec_rep_of_not_fits hmax hlen (by rwa [repCount_of_wf hwf]), rfl, chanInfo_toNat _ 0, rfl, rfl, rfl, ?_,
    fun d hd => PerChan.get_set_ne _ _ _ _ hd, fun d hd => PerChan.get_set_ne _ _ _ _ hd⟩
  simp only [raise_cbLen, pushes, PerChan.get_set_self, BitVec.toNat_add, BitVec.toNat_ofNat]
  omega

/-- Settles O30: both kinds of illegal pair raise alike. -/
theorem illegalPairsRaiseInvalidControlByte : Obligations.IllegalPairsRaiseInvalidControlByte := by
  rintro i ctrl v s - (rfl | ⟨rfl, rfl⟩) <;>
    exact ⟨_, rfl, rfl, rfl, chanInfo_toNat _ _, rfl, rfl, rfl, rfl, rfl, rfl⟩

/-! ### The pairs by the values they stand for (R188) -/

theorem pairValues_cases {ctrl val : Byte} {vs : List Byte} (h : pairValues ctrl val = some vs) :
    (ctrl.toNat = 0 ∧ vs = [val]) ∨ (0x81 ≤ ctrl.toNat ∧ vs = List.replicate (257 - ctrl.toNat) val) := by
  unfold pairValues at h
  split_ifs at h with hlit hillegal <;> cases h
  · exact .inl ⟨hlit, rfl⟩
  · exact .inr ⟨by omega, rfl⟩

/-- R188: a legal pair whose values fit appends them and advances. -/
theorem exec_decodePair_of_values {ctrl val : Byte} {vs : List Byte} {s : State} {c : Chan} (hc : s.status.chan = c)
    (h : pairValues ctrl val = some vs) (hmax : s.params.cbLenMax ≤ 2 ^ 31)
    (hfits : (s.cbLen.get c).toNat + vs.length ≤ s.params.cbLenMax) :
    ∃ cap cnt, exec (decodePair ctrl val) s = .next { s with
      cb := s.cb.set c (s.cb.get c ++ vs)
      cbLen := s.cbLen.set c (s.cbLen.get c + BitVec.ofNat 32 vs.length)
      cbCap := s.cbCap.set c cap
      cnt := cnt
      pos := s.pos + 2 } := by
  subst hc
  rcases pairValues_cases h with ⟨hctrl, rfl⟩ | ⟨hctrl, rfl⟩
  · rw [List.length_singleton] at hfits
    rw [decodePair_eq_lit hctrl, exec_lit_of_not_full (by omega), cbPush_eq]
    exact ⟨_, _, rfl⟩
  · rw [List.length_replicate] at hfits ⊢
    have hcount : repCount ctrl = 257 - ctrl.toNat := repCount_eq ctrl (by omega)
    rw [decodePair_eq_rep hctrl, exec_rep_of_fits hmax (by rwa [hcount]), hcount]
    exact ⟨_, _, rfl⟩

/-- R185, R186: a control byte from 0x01 to 0x80 raises. -/
theorem exec_decodePair_of_illegal {ctrl : Byte} (h1 : 1 ≤ ctrl.toNat) (h2 : ctrl.toNat ≤ 0x80) (val : Byte)
    (s : State) : exec (decodePair ctrl val) s =
      .next (s.raise .invalidControlByte (chanInfo s.status.chan ctrl) s.pos) := by
  rcases Nat.lt_or_eq_of_le h2 with hlt | heq
  · rw [decodePair_eq_illegal h1 (by omega)]
    rfl
  · have hctrl : ctrl = 0x80 := BitVec.eq_of_toNat_eq heq
    rw [decodePair_eq_illegal80 heq, hctrl]
    rfl

/-! ### The pair loop (R180, R182, R189) -/

theorem engineStep_pairs {s : State} (hb : s.status.state = .busy) (hseq : s.seq = .pairs)
    (hfits : s.docLen.toNat ≤ s.params.inSizeMax) : engineStep s = pairStep s.drawNext := by
  simp only [engineStep_of_busy hb hfits, runSeq, drawNext_seq, hseq]

/-- R182: a pair stands at `pos`. -/
theorem engineStep_pair {s : State} (hb : s.status.state = .busy) (hseq : s.seq = .pairs)
    (hfits : s.docLen.toNat ≤ s.params.inSizeMax) (hlt : s.pos.toNat < s.endPos.toNat)
    (hdoc : s.pos.toNat + 2 ≤ s.docLen.toNat) :
    engineStep s = exec (fetchPair s.drawNext) (latchPair s.drawNext) := by
  have hbelow : ¬ s.endPos ≤ s.pos := Nat.not_le.mpr hlt
  rw [engineStep_pairs hb hseq hfits]
  exact (if_neg hbelow).trans (if_neg (Nat.not_lt.mpr hdoc))

/-- Settles O35: handing the turn to the engine changes only the pending moves. -/
theorem stepRunsThePairAtPos : Obligations.StepRunsThePairAtPos := by
  rintro s _ hdue rfl hb hseq hlt hdoc hfits
  rw [step_of_dueMove_none hdue]
  obtain ⟨pending, hturn⟩ := engineTurn_eq s
  rw [hturn]
  exact engineStep_pair hb hseq hfits hlt hdoc

/-- R180: `pos` has reached `end`. -/
theorem engineStep_chanEnd {s : State} (hb : s.status.state = .busy) (hseq : s.seq = .pairs)
    (hfits : s.docLen.toNat ≤ s.params.inSizeMax) (hend : s.pos = s.endPos) :
    engineStep s = .next (chanEndStep s.drawNext) := by
  have hdone : s.endPos ≤ s.pos := hend ▸ BitVec.le_refl _
  rw [engineStep_pairs hb hseq hfits]
  exact if_pos hdone

/-- Settles O44: the end of a channel leads to `afterChan` of it. -/
theorem channelsFollowOneAnother : Obligations.ChannelsFollowOneAnother := by
  intro s hb hseq hfits hend
  have hafter {c : Chan} (hc : s.status.chan = c) :
      engineStep s = .next { s.drawNext with seq := afterChan c } := by
    subst hc
    exact engineStep_chanEnd hb hseq hfits hend
  exact ⟨hafter, hafter, hafter⟩

/-! ### The start of a channel (R180, R181) -/

theorem engineStep_chanStart {s : State} {c : Chan} (hb : s.status.state = .busy) (hseq : s.seq = .chanStart c)
    (hfits : s.docLen.toNat ≤ s.params.inSizeMax) : engineStep s = .next (chanStartStep c s.drawNext) := by
  simp only [engineStep_of_busy hb hfits, runSeq, drawNext_seq, hseq]

theorem chanStartStep_of_odd {s : State} {c : Chan} (h : (s.chSize.get c).toNat % 2 = 1) :
    chanStartStep c s = ((s.enter .dec).setChan c).raise .oddStreamLength (chanInfo c 0)
      (BitVec.ofNat 32 (chanBase s c + (s.chSize.get c).toNat - 1)) := by
  rw [← chanBase_congr (s := s) (t := (s.enter .dec).setChan c) c rfl rfl]
  exact if_pos h

theorem chanStartStep_of_even {s : State} {c : Chan} (h : (s.chSize.get c).toNat % 2 = 0) :
    chanStartStep c s = { cbNew c ((s.enter .dec).setChan c) with
      pos := BitVec.ofNat 32 (chanBase s c)
      endPos := BitVec.ofNat 32 (chanBase s c + (s.chSize.get c).toNat)
      seq := .pairs } := by
  rw [← chanBase_congr (s := s) (t := (s.enter .dec).setChan c) c rfl rfl]
  exact if_neg (Nat.mod_two_ne_one.mpr h)

/-- R182: an offset up to the end of a channel's sub-stream fits a register. -/
theorem ofNat_toNat_of_le_subStream {s : State} (h : PayloadOk s) (c : Chan) {a : Nat}
    (ha : a ≤ chanBase s c + (s.chSize.get c).toNat) : (BitVec.ofNat 32 a).toNat = a := by
  have hend := h.subStream_le c
  have hdoc := s.docLen.isLt
  rw [BitVec.toNat_ofNat]
  omega

/-- 42_length_table.md R166: the sub-streams follow one another from `P0`. -/
theorem chanBase_eq (s : State) (c : Chan) : chanBase s c = 40 + 6 * s.height.toNat
    + (if 1 ≤ c.toNat then s.chSize.c0.toNat else 0) + (if 2 ≤ c.toNat then s.chSize.c1.toNat else 0) := by
  cases c <;> simp [chanBase, payloadStart_eq, Chan.toNat]

/-- Settles O43: the start is `chanStartStep`, for an odd size and for an even one. -/
theorem channelStartChecksSizeAndCreatesBuffer : Obligations.ChannelStartChecksSizeAndCreatesBuffer := by
  rintro s c base _ hb hseq hfits - hok rfl hbase
  obtain rfl : base = chanBase s c := hbase.trans (chanBase_eq s c).symm
  refine ⟨chanStartStep c s.drawNext, engineStep_chanStart hb hseq hfits, ?_⟩
  have hpos : (BitVec.ofNat 32 (chanBase s c)).toNat = chanBase s c :=
    ofNat_toNat_of_le_subStream hok c (Nat.le_add_right _ _)
  have hlast := ofNat_toNat_of_le_subStream hok c (Nat.sub_le (chanBase s c + (s.chSize.get c).toNat) 1)
  have hend := ofNat_toNat_of_le_subStream hok c le_rfl
  rcases Nat.mod_two_eq_zero_or_one (s.chSize.get c).toNat with heven | hodd
  · rw [chanStartStep_of_even (s := s.drawNext) heven]
    exact ⟨rfl, rfl, fun d hd => ⟨PerChan.get_set_ne _ _ _ _ hd, PerChan.get_set_ne _ _ _ _ hd,
      PerChan.get_set_ne _ _ _ _ hd⟩, fun h => by omega, fun _ => ⟨hb, rfl, PerChan.get_set_self _ _ _,
      PerChan.get_set_self _ _ _, hpos, hend, rfl⟩⟩
  · rw [chanStartStep_of_odd (s := s.drawNext) hodd]
    exact ⟨rfl, rfl, fun _ _ => ⟨rfl, rfl, rfl⟩, fun _ => ⟨rfl, rfl, chanInfo_toNat c 0, hlast, rfl, rfl⟩,
      fun h => by omega⟩

/-! ### CHK (R190) -/

theorem engineStep_chk {s : State} (hb : s.status.state = .busy) (hseq : s.seq = .chk)
    (hfits : s.docLen.toNat ≤ s.params.inSizeMax) : engineStep s = .next (chkStep s.drawNext) := by
  simp only [engineStep_of_busy hb hfits, runSeq, drawNext_seq, hseq]

theorem chkStep_of_eq {s : State} (h : s.cbLen.c0 = s.cbLen.c1 ∧ s.cbLen.c1 = s.cbLen.c2) :
    chkStep s = { (s.enter .chk).setChan .c0 with seq := .asmCheck } := if_pos h

theorem chkStep_of_ne {s : State} (h : ¬ (s.cbLen.c0 = s.cbLen.c1 ∧ s.cbLen.c1 = s.cbLen.c2)) :
    chkStep s = ((s.enter .chk).setChan .c0).raise .channelLengthMismatch 0 0 := if_neg h

theorem PerChan.all_eq_iff {α : Type} (p : PerChan α) :
    (∀ c d, p.get c = p.get d) ↔ p.c0 = p.c1 ∧ p.c1 = p.c2 := by
  refine ⟨fun h => ⟨h .c0 .c1, h .c1 .c2⟩, fun ⟨h01, h12⟩ => ?_⟩
  have hall (c : Chan) : p.get c = p.c2 := by
    cases c
    · exact h01.trans h12
    · exact h12
    · rfl
  exact fun c d => (hall c).trans (hall d).symm

/-- Settles O45: the check compares neighbours, which is to compare all. -/
theorem crossChannelCheckComparesLengths : Obligations.CrossChannelCheckComparesLengths := by
  intro s hb hseq hfits
  refine ⟨chkStep s.drawNext, engineStep_chk hb hseq hfits, ?_⟩
  rw [PerChan.all_eq_iff]
  by_cases heq : s.cbLen.c0 = s.cbLen.c1 ∧ s.cbLen.c1 = s.cbLen.c2
  · rw [chkStep_of_eq (s := s.drawNext) heq]
    exact ⟨rfl, rfl, rfl, rfl, rfl, fun _ => ⟨hb, rfl, rfl⟩, fun hne => absurd heq hne⟩
  · rw [chkStep_of_ne (s := s.drawNext) heq]
    exact ⟨rfl, rfl, rfl, rfl, rfl, fun h => absurd h heq, fun _ => ⟨rfl, rfl, rfl, rfl⟩⟩

/-! ### No engine step stops (R182) -/

/-- Settles O50: a run's step is total by the invariant, and a block that is not BUSY stands still. -/
theorem engineStepsNeverStop : Obligations.EngineStepsNeverStop := by
  intro s hs
  by_cases hb : s.status.state = .busy
  · exact engineStep_total hs hb
  · exact ⟨s, if_pos hb⟩

end Sys2Proof.Machine
end

section
/-! SUPPORT. Proofs of the statements about a channel's decode (43_rle_decoder.md R187 to R189): its pairs, one by one,
append what `expand` gives for their bytes. -/

namespace Sys2Proof.Machine

open Sys2Proof.Safety

/-! ### The bytes of a sub-stream and their expansion -/

theorem expand_pair_eq_some {ctrl val : Byte} {rest vs : List Byte} (h : expand (ctrl :: val :: rest) = some vs) :
    ∃ xs ys, pairValues ctrl val = some xs ∧ expand rest = some ys ∧ vs = xs ++ ys := by
  rw [expand] at h
  split at h
  · next xs ys hxs hys => exact ⟨xs, ys, hxs, hys, (Option.some.inj h).symm⟩
  · cases h

/-- R189: only a whole number of pairs has an expansion. -/
theorem even_length_of_expand : ∀ {bytes vs : List Byte}, expand bytes = some vs → bytes.length % 2 = 0
  | [], _, _ => rfl
  | [_], _, h => by cases h
  | ctrl :: val :: rest, _, h => by
    obtain ⟨_, ys, -, hys, -⟩ := expand_pair_eq_some h
    have hrest := even_length_of_expand hys
    simp only [List.length_cons]
    omega

theorem memRead_two_add (s : State) (a n : Nat) :
    memRead s a (2 * (n + 1)) = inByte s a :: inByte s (a + 1) :: memRead s (a + 2) (2 * n) := rfl

theorem take_memRead (s : State) (a : Nat) {k n : Nat} (h : k ≤ n) : (memRead s a n).take k = memRead s a k := by
  induction k generalizing a n with
  | zero => rfl
  | succ k ih =>
    obtain ⟨n, rfl⟩ := Nat.exists_eq_succ_of_ne_zero (Nat.ne_zero_of_lt h)
    rw [memRead, memRead, List.take_succ_cons, ih (a + 1) (Nat.le_of_succ_le_succ h)]

/-! ### The states of a channel's decode -/

/-- The channel's start comes next, and neither a pending move nor an unspecified byte can change what the run makes of
the sub-stream. -/
structure BeforeChannel (c : Chan) (s : State) : Prop where
  inv   : Inv s
  busy  : s.status.state = .busy
  seq   : s.seq = .chanStart c
  host  : s.host = []
  raced : s.raced = []

/-- What the steps of a channel's decode look at and do not change. -/
def decodeFields (s : State) := (s.params, s.docLen, s.inMem, s.raced, s.powerEpoch, s.host)

/-- `u` is `s` after the start of channel `c` and `n` pairs, which stood for the values `vs`. -/
structure AfterPairs (c : Chan) (s : State) (n : Nat) (vs : List Byte) (u : State) : Prop where
  kept   : decodeFields u = decodeFields s
  busy   : u.status.state = .busy
  out    : u.out = s.out
  seq    : u.seq = .pairs
  chan   : u.status.chan = c
  pos    : u.pos.toNat = chanBase s c + 2 * n
  endPos : u.endPos.toNat = chanBase s c + (s.chSize.get c).toNat
  cb     : u.cb.get c = vs
  cbLen  : (u.cbLen.get c).toNat = vs.length
  others : ∀ d, d ≠ c → u.cb.get d = s.cb.get d ∧ u.cbLen.get d = s.cbLen.get d ∧ u.cbCap.get d = s.cbCap.get d

section

variable {c : Chan} {s u : State} {n : Nat} {vs : List Byte}

theorem BeforeChannel.payloadOk (h : BeforeChannel c s) : PayloadOk s := by
  obtain ⟨hok, -, -⟩ := (h.inv.runOk h.busy).at_chanStart h.seq
  exact hok

theorem BeforeChannel.docLen_le (h : BeforeChannel c s) : s.docLen.toNat ≤ s.params.inSizeMax := by
  obtain ⟨-, hfits, -⟩ := h.inv.busy h.busy
  exact hfits

theorem BeforeChannel.cbLenMax_le (h : BeforeChannel c s) : s.params.cbLenMax ≤ 2 ^ 31 := by
  obtain ⟨-, -, -, hmax⟩ := h.inv.params
  exact hmax

/-- R181: the start of a channel of even size. -/
theorem BeforeChannel.step (h : BeforeChannel c s) (heven : (s.chSize.get c).toNat % 2 = 0) :
    ∃ u, step s = .next u ∧ AfterPairs c s 0 [] u := by
  refine ⟨_, (step_of_no_host h.host).trans (engineStep_chanStart h.busy h.seq h.docLen_le), ?_⟩
  rw [chanStartStep_of_even (s := s.drawNext) heven]
  exact {
    kept := rfl
    busy := h.busy
    out := rfl
    seq := rfl
    chan := rfl
    pos := ofNat_toNat_of_le_subStream h.payloadOk c (Nat.le_add_right _ _)
    endPos := ofNat_toNat_of_le_subStream h.payloadOk c le_rfl
    cb := PerChan.get_set_self _ _ _
    cbLen := congrArg BitVec.toNat (PerChan.get_set_self _ _ _)
    others := fun d hd => ⟨PerChan.get_set_ne _ _ _ _ hd, PerChan.get_set_ne _ _ _ _ hd,
      PerChan.get_set_ne _ _ _ _ hd⟩ }

/-- R182: the step of a pair before `end` is the meaning of the two bytes of the sub-stream at `pos`. -/
theorem AfterPairs.step_eq_exec (hu : AfterPairs c s n vs u) (h : BeforeChannel c s)
    (hn : 2 * n + 2 ≤ (s.chSize.get c).toNat) :
    step u = exec (decodePair (inByte s (chanBase s c + 2 * n)) (inByte s (chanBase s c + 2 * n + 1)))
      (latchPair u.drawNext) := by
  have hkept := hu.kept
  simp only [decodeFields, Prod.mk.injEq] at hkept
  obtain ⟨hparams, hdoc, hmem, hraced, hepoch, hhost⟩ := hkept
  have hlast := h.payloadOk.subStream_le c
  have hpos := hu.pos
  have hend := hu.endPos
  have hbyte (a : Nat) : inByte u.drawNext a = inByte s a := inByte_of_no_race hmem hraced hepoch h.raced
  rw [step_of_no_host (hhost.trans h.host), engineStep_pair hu.busy hu.seq
    (by rw [hdoc, hparams]; exact h.docLen_le) (by omega) (by rw [hdoc]; omega), fetchPair, hbyte, hbyte, drawNext_pos,
    hpos]

theorem AfterPairs.pos_add_two (hu : AfterPairs c s n vs u) (hn : 2 * n + 2 ≤ (s.chSize.get c).toNat) :
    (u.pos + 2).toNat = chanBase s c + 2 * (n + 1) := by
  have htwo : (2 : W32).toNat = 2 := rfl
  have hlt := u.endPos.isLt
  have hend := hu.endPos
  rw [BitVec.toNat_add, hu.pos, htwo]
  omega

/-- R183, R184: a legal pair whose values fit. -/
theorem AfterPairs.step_legal {ws : List Byte} (hu : AfterPairs c s n vs u) (h : BeforeChannel c s)
    (hn : 2 * n + 2 ≤ (s.chSize.get c).toNat)
    (hpair : pairValues (inByte s (chanBase s c + 2 * n)) (inByte s (chanBase s c + 2 * n + 1)) = some ws)
    (hroom : vs.length + ws.length ≤ s.params.cbLenMax) :
    ∃ t, step u = .next t ∧ AfterPairs c s (n + 1) (vs ++ ws) t := by
  have hparams : u.params = s.params := congrArg Prod.fst hu.kept
  have hlen := hu.cbLen
  have hmax := h.cbLenMax_le
  obtain ⟨cap, cnt, hexec⟩ := exec_decodePair_of_values (s := latchPair u.drawNext) hu.chan hpair (hparams ▸ hmax)
    (by rw [← hlen, ← hparams] at hroom; exact hroom)
  refine ⟨_, (hu.step_eq_exec h hn).trans hexec, ?_⟩
  exact {
    kept := hu.kept
    busy := hu.busy
    out := hu.out
    seq := hu.seq
    chan := hu.chan
    pos := hu.pos_add_two hn
    endPos := hu.endPos
    cb := by rw [PerChan.get_set_self, latchPair_cb, drawNext_cb, hu.cb]
    cbLen := by
      rw [PerChan.get_set_self, latchPair_cbLen, drawNext_cbLen, BitVec.toNat_add, BitVec.toNat_ofNat, hlen,
        List.length_append]
      omega
    others := fun d hd => by
      rw [PerChan.get_set_ne _ _ _ _ hd, PerChan.get_set_ne _ _ _ _ hd, PerChan.get_set_ne _ _ _ _ hd]
      exact hu.others d hd }

/-- R188: the next `k` pairs, by induction on their number, append what `expand` gives for their bytes. -/
theorem AfterPairs.run (h : BeforeChannel c s) (k : Nat) {ws : List Byte} (hu : AfterPairs c s n vs u)
    (hn : 2 * (n + k) ≤ (s.chSize.get c).toNat) (hexp : expand (memRead s (chanBase s c + 2 * n) (2 * k)) = some ws)
    (hroom : vs.length + ws.length ≤ s.params.cbLenMax) :
    ∃ t, Host.Core.run core k u = .next t ∧ AfterPairs c s (n + k) (vs ++ ws) t := by
  induction k generalizing n vs u ws with
  | zero =>
    cases hexp
    exact ⟨u, rfl, by simpa using hu⟩
  | succ k ih =>
    rw [memRead_two_add] at hexp
    obtain ⟨xs, ys, hpair, hrest, rfl⟩ := expand_pair_eq_some hexp
    rw [List.length_append] at hroom
    obtain ⟨u', hstep, hu'⟩ := hu.step_legal h (by omega) hpair (by omega)
    obtain ⟨t, hrun, ht⟩ := ih hu' (by omega) hrest (by rw [List.length_append]; omega)
    refine ⟨t, (run_succ k hstep).trans hrun, ?_⟩
    rwa [List.append_assoc, Nat.add_right_comm] at ht

/-- R181, R188: the start of a channel of even size and its first `n` pairs. -/
theorem BeforeChannel.run (h : BeforeChannel c s) (heven : (s.chSize.get c).toNat % 2 = 0)
    (hn : 2 * n ≤ (s.chSize.get c).toNat) (hexp : expand ((subStream s c).take (2 * n)) = some vs)
    (hroom : vs.length ≤ s.params.cbLenMax) :
    ∃ u, Host.Core.run core (n + 1) s = .next u ∧ AfterPairs c s n vs u := by
  rw [subStream, take_memRead s _ hn] at hexp
  obtain ⟨u, hstep, hu⟩ := h.step heven
  obtain ⟨t, hrun, ht⟩ := hu.run h n (by omega) hexp (by simpa using hroom)
  exact ⟨t, (run_succ n hstep).trans hrun, by simpa using ht⟩

/-- R189: when all pairs have been executed the channel ends. -/
theorem AfterPairs.step_chanEnd (hu : AfterPairs c s n vs u) (h : BeforeChannel c s)
    (hn : 2 * n = (s.chSize.get c).toNat) : step u = .next (chanEndStep u.drawNext) ∧ u.pos = u.endPos := by
  have hkept := hu.kept
  simp only [decodeFields, Prod.mk.injEq] at hkept
  obtain ⟨hparams, hdoc, -, -, -, hhost⟩ := hkept
  have hend : u.pos = u.endPos := BitVec.eq_of_toNat_eq (by rw [hu.pos, hu.endPos, hn])
  exact ⟨(step_of_no_host (hhost.trans h.host)).trans (engineStep_chanEnd hu.busy hu.seq
    (by rw [hdoc, hparams]; exact h.docLen_le) hend), hend⟩

end

theorem run_snoc {s u t : State} {n m : Nat} (h : Host.Core.run core n s = .next u) (hstep : step u = .next t)
    (hm : m = n + 1) : Host.Core.run core m s = .next t :=
  hm ▸ (run_add n 1 h).trans (run_succ 0 hstep)

/-- Settles O53: the channel's start, all its pairs, and its end. -/
theorem channelDecodeIsExpansion : Obligations.ChannelDecodeIsExpansion := by
  intro s c vs hinv hb hseq hhost hraced hexp hroom
  have h : BeforeChannel c s := ⟨hinv, hb, hseq, hhost, hraced⟩
  have hlen : (subStream s c).length = (s.chSize.get c).toNat := memRead_length s _ _
  have heven : (s.chSize.get c).toNat % 2 = 0 := hlen ▸ even_length_of_expand hexp
  have hall : 2 * ((s.chSize.get c).toNat / 2) = (s.chSize.get c).toNat := by omega
  obtain ⟨u, hrun, hu⟩ := h.run heven hall.le (by rwa [hall, ← hlen, List.take_length]) hroom
  obtain ⟨hstep, hend⟩ := hu.step_chanEnd h hall
  exact ⟨chanEndStep u.drawNext, run_snoc hrun hstep (Nat.add_comm 2 _), hu.cb, hu.cbLen, hu.others, hend, hu.endPos,
    hu.busy, congrArg afterChan hu.chan⟩

/-- Settles O54: the channel's start, the legal pairs, and the pair that raises. -/
theorem firstIllegalPairEndsTheRun : Obligations.FirstIllegalPairEndsTheRun := by
  intro s c n ctrl vs hinv hb hseq hhost hraced heven hn hexp hroom hctrl h1 h2
  have h : BeforeChannel c s := ⟨hinv, hb, hseq, hhost, hraced⟩
  obtain ⟨u, hrun, hu⟩ := h.run heven (by omega) hexp hroom
  have hbyte : inByte s (chanBase s c + 2 * n) = ctrl :=
    Option.some.inj ((memRead_getElem s _ _ _ (by omega)).symm.trans hctrl)
  have hstep : step u = .next ((latchPair u.drawNext).raise .invalidControlByte (chanInfo u.status.chan ctrl) u.pos) :=
    (hu.step_eq_exec h hn).trans (hbyte ▸ exec_decodePair_of_illegal h1 h2 _ _)
  have hinfo : (chanInfo u.status.chan ctrl).toNat = 256 * c.toNat + ctrl.toNat := by rw [chanInfo_toNat, hu.chan]
  obtain ⟨-, hout, -⟩ := (hinv.runOk hb).at_chanStart hseq
  exact ⟨_, run_snoc hrun hstep (Nat.add_comm 2 _), rfl, rfl, hu.chan, hinfo, hu.pos, hu.cb, hu.cbLen,
    hu.out.trans hout⟩

end Sys2Proof.Machine
end

section
/-! SUPPORT. Proofs of the statements about the channel buffer (44_channel_buffer.md R210 to R217): what a list of values
appended to a new buffer leaves there, and that every step of host and engine keeps the invariant of the block. -/

namespace Sys2Proof.Safety

open Sys2Proof.Machine

/-! ### Appending to a new buffer -/

/-- R211: a new buffer is in order, whatever stood there before. -/
theorem bufferOk_cbNew_self (c : Chan) (s : State) : BufferOk (cbNew c s) c := by
  refine ⟨?_, ?_, ?_, ?_⟩ <;> simp only [cbNew_cb, cbNew_cbLen, cbNew_cbCap, PerChan.get_set_self]
  · rfl
  · exact Nat.zero_le _
  · exact fun _ => trivial
  · exact fun _ => isCapacity_new

/-- R212: values that fit are appended in order, and the buffer stays in order. -/
theorem appendAll_of_fits {c : Chan} {vs : List Byte} {s : State} (hp : s.params.Legal) (h : BufferOk s c)
    (hc : s.cbCap.get c ≠ 0) (hfits : (s.cb.get c).length + vs.length ≤ s.params.cbLenMax) :
    ∃ t, appendAll c vs s = .ok t ∧ t.cb.get c = s.cb.get c ++ vs ∧ BufferOk t c ∧ t.cbCap.get c ≠ 0 := by
  induction vs generalizing s with
  | nil => exact ⟨s, rfl, (List.append_nil _).symm, h, hc⟩
  | cons v vs ih =>
    have hcontents := h.contents
    rw [List.length_cons] at hfits
    have hne : (s.cbLen.get c).toNat ≠ s.params.cbLenMax := by omega
    have hcb : (cbPush c v s).cb.get c = s.cb.get c ++ [v] := PerChan.get_set_self _ _ _
    obtain ⟨hbuf, hcap⟩ := bufferOk_push (v := v) hp h hc hne
    obtain ⟨t, happ, ht, hrest⟩ := ih (s := cbPush c v s) hp hbuf hcap (by
      rw [hcb, List.length_append, List.length_singleton, cbPush_params]; omega)
    refine ⟨t, ?_, by rw [ht, hcb, List.append_assoc, List.singleton_append], hrest⟩
    simp only [appendAll, cbAppend, if_neg hne, happ]

/-- Settles O33: by `appendAll_of_fits` the new buffer holds just the values and is in order, which gives its length and
capacity; the reads are then CBRead's two cases. -/
theorem appendedValuesAreReadBack : Obligations.AppendedValuesAreReadBack := by
  intro c vs s hp hfits
  have hempty : (cbNew c s).cb.get c = [] := PerChan.get_set_self _ _ _
  have hnew : (cbNew c s).cbCap.get c ≠ 0 := by simp
  obtain ⟨t, happ, hcb, hbuf, hcap⟩ := appendAll_of_fits (s := cbNew c s) (vs := vs) hp (bufferOk_cbNew_self c s) hnew
    (by rw [hempty, List.length_nil, Nat.zero_add]; exact hfits)
  rw [hempty, List.nil_append] at hcb
  have hlen : (t.cbLen.get c).toNat = vs.length := by rw [← hbuf.contents, hcb]
  refine ⟨t, happ, hlen, hlen ▸ hbuf.capacity hcap, fun k v hv => ?_, fun k hk => cbRead_eq_of_ge (hlen ▸ hk)⟩
  obtain ⟨hk, -⟩ := List.getElem?_eq_some_iff.mp hv
  exact cbRead_eq_of_lt (hlen ▸ hk) (hcb ▸ hv)

/-! ### The invariant by the fields a host move touches -/

/-- The fields the invariant looks at that only the engine, START, CLEAR and a reset change. -/
def runRecord (s : State) :=
  (s.params, s.status.state, s.status.phase, s.status.chan, s.status.err, s.errInfo, s.errAddr, s.width, s.height,
    s.totalSize, s.chSize, s.cbLen, s.cbCap, s.cb, s.out, s.outCount, s.pos, s.endPos, s.i, s.seq)

/-- What the invariant says of the fields that the host's other moves change: IN, the offsets raced, the read results and
what the host has seen. -/
structure HostSideOk (s : State) : Prop where
  memory   : s.inMem.wf
  inBound  : ∀ x ∈ s.inMem, x.1 < s.params.inSizeMax
  raced    : s.raced.Pairwise (· < ·)
  outRead  : s.outRead ≤ s.out.length
  rdResult : s.rdResult.oob = true → s.rdResult.value = 0 ∧ s.rdResult.done = true
  unseen   : s.status.state = .busy → s.statusRead = false
  settled  : s.status.state = .idle → s.statusRead = true

theorem Inv.hostSide {s : State} (h : Inv s) : HostSideOk s :=
  ⟨h.memory, h.inBound, h.raced, h.outRead, h.rdResult, h.unseen, h.settled⟩

/-- A move that leaves the run's record alone, and DOC_LEN while BUSY, keeps the invariant if its own fields stay in
order. -/
theorem Inv.with_hostSide {s t : State} (h : Inv s) (e : runRecord t = runRecord s)
    (hdoc : s.status.state = .busy → t.docLen = s.docLen) (ht : HostSideOk t) : Inv t := by
  simp only [runRecord, Prod.mk.injEq] at e
  obtain ⟨hparams, hstate, hphase, hchan, herr, hinfo, haddr, hwidth, hheight, htotal, hsize, hlen, hcap, hcb, hout,
    hcount, hpos, hend, hi, hseq⟩ := e
  exact {
    params := hparams ▸ h.params
    memory := ht.memory
    inBound := ht.inBound
    raced := ht.raced
    buffers := fun c => (h.buffers c).congr hparams (by rw [hcb]) (by rw [hlen]) (by rw [hcap])
    outCount := by rw [hcount, hout]; exact h.outCount
    outRead := ht.outRead
    rdResult := ht.rdResult
    noError := by rw [herr, hinfo, haddr]; exact h.noError
    chanPhase := by rw [hphase, hchan]; exact h.chanPhase
    state := h.state.congr hstate hphase hchan herr hwidth hheight hsize htotal hlen hcap hout hseq hpos hend hi hparams
      hdoc
    unseen := ht.unseen
    settled := ht.settled }

/-! ### Moves that release the results -/

/-- The fields of the last run's results and of STATUS. -/
def resultFields (s : State) :=
  (s.status, s.errInfo, s.errAddr, s.width, s.height, s.totalSize, s.chSize, s.cbLen, s.cbCap, s.cb, s.out, s.outCount,
    s.outRead, s.rdResult, s.seq, s.statusRead)

/-- 10_state.md R50: with its results as at reset, a block over an IN in order meets the invariant. -/
theorem inv_of_resultFields_reset {t : State} (e : resultFields t = resultFields State.reset) (hparams : t.params.Legal)
    (hmem : t.inMem.wf) (hbound : ∀ x ∈ t.inMem, x.1 < t.params.inSizeMax) (hraced : t.raced.Pairwise (· < ·)) :
    Inv t := by
  simp only [resultFields, Prod.mk.injEq] at e
  obtain ⟨hstatus, hinfo, haddr, hwidth, hheight, htotal, hsize, hlen, hcap, hcb, hout, hcount, hread, hresult, hseq,
    hseen⟩ := e
  have hstate : StateOk t := by
    simp only [StateOk, hstatus]
    exact ⟨rfl, rfl, ⟨hwidth, hheight, htotal, hsize, hlen, hcap⟩, hout, hseq⟩
  exact {
    params := hparams
    memory := hmem
    inBound := hbound
    raced := hraced
    buffers := bufferOk_released hcb hlen hcap
    outCount := by rw [hcount, hout]; rfl
    outRead := hread.trans_le (Nat.zero_le _)
    rdResult := by rw [hresult]; nofun
    noError := fun _ => ⟨hinfo, haddr⟩
    chanPhase := fun _ => congrArg Status.chan hstatus
    state := hstate
    unseen := by rw [hstatus]; nofun
    settled := fun _ => hseen }

/-- 70_reset_and_hazards.md R280 to R282: reset keeps IN. -/
theorem Inv.resetBlock {s : State} (h : Inv s) : Inv s.resetBlock :=
  inv_of_resultFields_reset rfl h.params h.memory h.inBound List.Pairwise.nil

theorem Inv.powerOn {s : State} (h : Inv s) : Inv s.powerOn :=
  inv_of_resultFields_reset rfl h.params List.Pairwise.nil nofun List.Pairwise.nil

/-- In every state that accepts CLEAR the run is over. -/
theorem Inv.seq_idle_of_resultState {s : State} (h : Inv s) (hr : resultState s.status.state = true) : s.seq = .idle := by
  have hstate := h.state
  simp only [StateOk] at hstate
  cases hst : s.status.state <;> simp only [hst] at hstate hr
  case idle => obtain ⟨-, -, -, -, hseq⟩ := hstate; exact hseq
  case done => obtain ⟨-, -, -, -, -, -, hseq⟩ := hstate; exact hseq
  case error => obtain ⟨-, -, hseq⟩ := hstate; exact hseq
  all_goals cases hr

/-- 40_pipeline_control.md R112: an accepted CLEAR leaves the block as a reset does, but for IN and the host's fields. -/
theorem Inv.clearResults {s : State} (h : Inv s) (hr : resultState s.status.state = true) : Inv s.clearResults := by
  have hseq : s.clearResults.seq = .idle := h.seq_idle_of_resultState hr
  refine inv_of_resultFields_reset ?_ h.params h.memory h.inBound h.raced
  simp only [resultFields, hseq]
  rfl

/-- 40_pipeline_control.md R111, R118: an accepted START leaves a run at HDR with every result 0. -/
theorem Inv.beginRun {s : State} (h : Inv s) (hidle : s.status.state = .idle)
    (hfits : s.docLen.toNat ≤ s.params.inSizeMax) : Inv s.beginRun := by
  have hstate := h.state
  simp only [StateOk, hidle] at hstate
  obtain ⟨hphase, -, -, -, -⟩ := hstate
  have hchan : s.status.chan = .c0 := h.chanPhase (by rw [hphase]; nofun)
  have hbase : RunBase s.beginRun :=
    ⟨h.params, h.memory, h.inBound, List.Pairwise.nil, bufferOk_released rfl rfl rfl, rfl, Nat.zero_le _, h.rdResult, rfl⟩
  exact hbase.inv nofun (fun _ => ⟨rfl, rfl⟩) (fun _ => hchan)
    ⟨rfl, hfits, hphase, ⟨rfl, rfl, rfl, rfl, rfl, rfl⟩, rfl⟩

/-! ### The host's moves -/

/-- 40_pipeline_control.md R110 to R114: every command keeps the invariant. -/
theorem Inv.exec_command {i : Instr} {s t : State} (h : Inv s) (hp : i.isPair = false) (hexec : exec i s = .next t) :
    Inv t := by
  rcases exec_command_cases hp hexec with
    ⟨-, rfl⟩ | ⟨-, rfl⟩ | ⟨-, hidle, hfits, rfl⟩ | ⟨-, hr, rfl⟩ | ⟨c, r, -, -, hread, rfl⟩
  · exact h
  · exact h.with_hostSide rfl (fun _ => rfl) { h.hostSide with }
  · exact h.beginRun hidle hfits
  · exact h.clearResults hr
  · exact h.with_hostSide rfl (fun _ => rfl) { h.hostSide with rdResult := hread }

/-- 20_memory.md R69 (b): a read of STATUS is noted only when it shows that no run is in progress. -/
theorem Inv.regRead {s : State} (h : Inv s) (off : Nat) : Inv (regRead off s) :=
  h.with_hostSide rfl (fun _ => rfl) { h.hostSide with
    unseen := fun hb => Bool.eq_false_iff.mpr fun hread => by
      rcases (statusReadAfter_iff off s).mp hread with hseen | ⟨-, hne⟩
      · exact absurd ((h.unseen hb).symm.trans hseen) nofun
      · exact hne hb
    settled := fun hi => (statusReadAfter_iff off s).mpr (.inl (h.settled hi)) }

/-- 20_memory.md R60, R71: a LOAD within IN keeps IN and the offsets raced in order. -/
theorem Inv.loadIn {s : State} (h : Inv s) {a : Nat} {data : List Byte} (hroom : a + data.length ≤ s.params.inSizeMax) :
    Inv (loadIn a data s) := by
  refine h.with_hostSide rfl (fun _ => rfl) { h.hostSide with
    memory := Memory.wf_load h.memory a data
    inBound := fun x hx => ?bound
    raced := ?raced }
  case bound =>
    rcases Memory.mem_load hx with ⟨-, hlt⟩ | hx
    · exact hlt.trans_le hroom
    · exact h.inBound x hx
  case raced =>
    simp only [Machine.loadIn]
    split_ifs
    · exact insertOffsets_rising h.raced a data.length
    · exact h.raced

/-- 20_memory.md R69 (d): the host reads no triple beyond those appended. -/
theorem Inv.readOut {s : State} (h : Inv s) : Inv (readOut s) := by
  rcases readOut_cases s with ⟨p, hp, heq⟩ | ⟨-, heq⟩ <;> rw [heq]
  · obtain ⟨hlt, -⟩ := List.getElem?_eq_some_iff.mp hp
    exact h.with_hostSide rfl (fun _ => rfl) { h.hostSide with outRead := hlt }
  · exact h.with_hostSide rfl (fun _ => rfl) { h.hostSide with }

/-- Every move of the host keeps the invariant. -/
theorem Inv.hostAct {m : HostMove} {s t : State} (h : Inv s) (hact : hostAct m s = .next t) : Inv t := by
  rcases hostAct_cases hact with ⟨off, bytes, v, -, ⟨-, hcmd⟩ | ⟨hb, rfl⟩ | rfl | rfl⟩ | ⟨off, rfl⟩ |
    ⟨a, data, -, hroom, rfl⟩ | ⟨-, rfl⟩ | ⟨-, rfl⟩ | ⟨-, rfl⟩
  · exact h.exec_command (decodeCmd_isPair v) hcmd
  · exact h.with_hostSide rfl (fun hbusy => absurd hbusy hb) { h.hostSide with }
  · exact h.with_hostSide rfl (fun _ => rfl) { h.hostSide with }
  · exact h
  · exact h.regRead off
  · exact h.loadIn hroom
  · exact h.readOut
  · exact h.resetBlock
  · exact h.powerOn

/-! ### Every step -/

/-- 60_exceptions.md R265: the engine advances a run, and does nothing else. -/
theorem Inv.engineStep {s t : State} (h : Inv s) (hstep : engineStep s = .next t) : Inv t := by
  by_cases hb : s.status.state = .busy
  · exact (advances_engineStep h hb hstep).inv
  · rcases engineStep_cases hstep with ⟨-, rfl⟩ | ⟨hbusy, -⟩
    · exact h
    · exact absurd hbusy hb

/-- Settles O49: the step is the engine's or the due move's (R122), and each keeps the invariant. -/
theorem everyStepKeepsTheInvariant : Obligations.EveryStepKeepsTheInvariant := by
  intro s t h hstep
  rcases step_next_cases hstep with ⟨-, hengine⟩ | ⟨m, -, hact⟩
  · obtain ⟨pending, hturn⟩ := engineTurn_eq s
    rw [hturn] at hengine
    exact (h.with_host pending).engineStep hengine
  · exact (h.with_host s.host.tail).hostAct hact

end Sys2Proof.Safety
end

section
/-! SUPPORT. Proofs of the statements about the raster interleaver (45_raster_interleaver.md): the size check, the emission
loop, no output of a run that fails, and the whole run over a well-formed document. -/

namespace Sys2Proof.Machine

open Sys2Proof.Safety

/-! ### The size check (R230) -/

theorem engineStep_asmCheck {s : State} (hb : s.status.state = .busy) (hseq : s.seq = .asmCheck)
    (hfits : s.docLen.toNat ≤ s.params.inSizeMax) : engineStep s = .next (asmCheckStep s.drawNext) := by
  simp only [engineStep_of_busy hb hfits, runSeq, drawNext_seq, hseq]

theorem asmCheckStep_of_ne {s : State} (h : s.cbLen.c0.toNat ≠ pixelCount s) :
    asmCheckStep s = (s.enter .asm).raise .rasterSizeMismatch 0 0 := if_pos h

theorem asmCheckStep_of_eq {s : State} (h : s.cbLen.c0.toNat = pixelCount s) :
    asmCheckStep s = { s.enter .asm with i := 0, seq := .emit } := if_neg (not_not_intro h)

/-- Settles O46: the step is `asmCheckStep`, for a length that is `W·H` and for one that is not. -/
theorem rasterSizeCheckComparesArea : Obligations.RasterSizeCheckComparesArea := by
  intro s hb hseq hfits
  refine ⟨asmCheckStep s.drawNext, engineStep_asmCheck hb hseq hfits, ?_⟩
  by_cases heq : s.cbLen.c0.toNat = s.width.toNat * s.height.toNat
  · rw [asmCheckStep_of_eq (s := s.drawNext) heq]
    exact ⟨rfl, rfl, fun hne => absurd heq hne, fun _ => ⟨hb, rfl, rfl, rfl⟩⟩
  · rw [asmCheckStep_of_ne (s := s.drawNext) heq]
    exact ⟨rfl, rfl, fun _ => ⟨rfl, rfl, rfl, rfl⟩, fun h => absurd h heq⟩

/-! ### The emission loop (R231, R232) -/

theorem engineStep_emit {s : State} (hb : s.status.state = .busy) (hseq : s.seq = .emit)
    (hfits : s.docLen.toNat ≤ s.params.inSizeMax) : engineStep s = .next (emitStep s.drawNext) := by
  simp only [engineStep_of_busy hb hfits, runSeq, drawNext_seq, hseq]

theorem emitStep_of_lt {s : State} (h : s.i.toNat < pixelCount s) : emitStep s = emitOne s := if_pos h

theorem emitStep_of_ge {s : State} (h : pixelCount s ≤ s.i.toNat) : emitStep s = complete s :=
  if_neg (Nat.not_lt.mpr h)

/-- R232: the triple of three values read, whatever number the step draws. -/
theorem tripleAt_drawNext {s : State} {k : W32} {r g b : Byte} (hr : cbRead s .c0 k = (true, r))
    (hg : cbRead s .c1 k = (true, g)) (hb : cbRead s .c2 k = (true, b)) : tripleAt s.drawNext k = r ++ g ++ b := by
  have hread (c : Chan) : cbRead s.drawNext c k = cbRead s c k := rfl
  rw [tripleAt, hread, hread, hread, hr, hg, hb]

/-- Settles O47: the step is `emitStep`, on each side of `W·H`. -/
theorem emissionAppendsTriplesThenCompletes : Obligations.EmissionAppendsTriplesThenCompletes := by
  intro s r g b hbusy hseq hfits
  refine ⟨fun hlt hr hg hb => ⟨r ++ g ++ b, ?_, pixel_fields r g b⟩, fun hge => ?_⟩
  · rw [engineStep_emit hbusy hseq hfits, emitStep_of_lt (s := s.drawNext) hlt, emitOne, drawNext_i,
      tripleAt_drawNext hr hg hb]
    rfl
  · rw [engineStep_emit hbusy hseq hfits, emitStep_of_ge (s := s.drawNext) hge]
    rfl

/-! ### No output of a run that fails (R235) -/

/-- 45_raster_interleaver.md R235, as the invariant has it. -/
theorem out_eq_nil_of_failed {s : State} (hinv : Inv s) (h : s.status.state = .error ∨ s.status.state = .fatal) :
    s.out = [] := by
  have hstate := hinv.state
  rcases h with h | h <;> simp only [StateOk, h] at hstate
  · obtain ⟨-, hout, -⟩ := hstate
    exact hout
  · obtain ⟨-, -, hout, -⟩ := hstate
    exact hout

/-- Settles O56: the step keeps the invariant, in which OUT_COUNT counts OUT. -/
theorem noPartialOutput : Obligations.NoPartialOutput := by
  intro s t hinv hstep hfailed
  have ht : Inv t := everyStepKeepsTheInvariant s t hinv hstep
  have hout : t.out = [] := out_eq_nil_of_failed ht hfailed
  refine ⟨hout, BitVec.eq_of_toNat_eq ?_⟩
  rw [ht.outCount, hout]
  rfl

end Sys2Proof.Machine
end

section
/-! SUPPORT. Proof of the statement about the whole run over a well-formed document (45_raster_interleaver.md R231 to
R234): what the run keeps of the document, and its phases one after another. -/

namespace Sys2Proof.Machine

open Sys2Proof.Safety

/-! ### The triples of three channels (R232, R233) -/

theorem interleave_length : ∀ {r g b : List Byte}, g.length = r.length → b.length = r.length →
    (interleave r g b).length = r.length
  | [], _, _, _, _ => rfl
  | _ :: _, _ :: _, _ :: _, hg, hb =>
    congrArg (· + 1) (interleave_length (Nat.succ.inj hg) (Nat.succ.inj hb))

theorem interleave_getElem? : ∀ {r g b : List Byte} {k : Nat} {x y z : Byte}, r[k]? = some x → g[k]? = some y →
    b[k]? = some z → (interleave r g b)[k]? = some (x ++ y ++ z)
  | _ :: _, _ :: _, _ :: _, 0, _, _, _, hx, hy, hz => by
    cases hx; cases hy; cases hz
    rfl
  | _ :: _, _ :: _, _ :: _, k + 1, _, _, _, hx, hy, hz =>
    interleave_getElem? (k := k) hx hy hz

/-- R231: the triple at the index reached is the next one of the interleaving. -/
theorem tripleAt_eq_interleave {s : State} {r g b : List Byte} {k : W32} (hcb : s.cb = ⟨r, g, b⟩)
    (hlen : ∀ c, (s.cb.get c).length = (s.cbLen.get c).toNat) (hk : ∀ c, k.toNat < (s.cbLen.get c).toNat) :
    (interleave r g b)[k.toNat]? = some (tripleAt s k) := by
  have hget (c : Chan) : ∃ v, (s.cb.get c)[k.toNat]? = some v ∧ cbRead s c k = (true, v) :=
    have hv := List.getElem?_eq_getElem ((hk c).trans_eq (hlen c).symm)
    ⟨_, hv, cbRead_eq_of_lt (hk c) hv⟩
  obtain ⟨x, hx, hrx⟩ := hget .c0
  obtain ⟨y, hy, hry⟩ := hget .c1
  obtain ⟨z, hz, hrz⟩ := hget .c2
  rw [hcb] at hx hy hz
  rw [tripleAt, hrx, hry, hrz]
  exact interleave_getElem? hx hy hz

/-! ### Runs without their number of steps -/

/-- Some number of steps leads from `s` to `t`. -/
def Reaches (s t : State) : Prop := ∃ k, Host.Core.run core k s = .next t

theorem Reaches.trans {s u t : State} (h1 : Reaches s u) (h2 : Reaches u t) : Reaches s t := by
  obtain ⟨n, hn⟩ := h1
  obtain ⟨m, hm⟩ := h2
  exact ⟨n + m, (run_add n m hn).trans hm⟩

theorem Reaches.of_step {s t : State} (h : step s = .next t) : Reaches s t := ⟨1, run_succ 0 h⟩

/-- What every step keeps holds wherever a run comes. -/
theorem Reaches.keeps {P : State → Prop} (hkeep : ∀ {s t}, P s → step s = .next t → P t) {s t : State}
    (h : Reaches s t) (hs : P s) : P t := by
  obtain ⟨k, hrun⟩ := h
  induction k generalizing s with
  | zero => cases hrun; exact hs
  | succ k ih =>
    simp only [Host.Core.run] at hrun
    split at hrun
    · next u hstep => exact ih (hkeep hs hstep) hrun
    · cases hrun
    · cases hrun

/-! ### What the run keeps of the document -/

/-- The HDR and LT phases are over. -/
def PastTable (s : State) : Prop := s.seq ≠ .hdr ∧ s.seq ≠ .lt

/-- What the later phases look at and do not change. -/
def documentFields (s : State) := (decodeFields s, s.width, s.height, s.chSize)

/-- No phase after LT goes back, or rewrites the dimensions or the sizes. -/
theorem engineStep_of_pastTable {s t : State} (hpast : PastTable s) (h : engineStep s = .next t) :
    PastTable t ∧ documentFields t = documentFields s := by
  obtain ⟨hhdr, hlt⟩ := hpast
  rcases engineStep_cases h with ⟨-, rfl⟩ | ⟨-, -, ⟨-, rfl⟩ | ⟨hseq, -⟩ | ⟨hseq, -⟩ | ⟨-, rfl⟩ | ⟨c, -, rfl⟩ |
    ⟨-, -, rfl⟩ | ⟨-, -, -, hpair⟩ | ⟨-, rfl⟩ | ⟨-, rfl⟩ | ⟨-, rfl⟩⟩
  · exact ⟨⟨hhdr, hlt⟩, rfl⟩
  · exact ⟨⟨hhdr, hlt⟩, rfl⟩
  · exact absurd hseq hhdr
  · exact absurd hseq hlt
  · rcases payloadStep_cases s.drawNext with ⟨info, addr, heq⟩ | ⟨-, heq⟩ <;> rw [heq] <;> exact ⟨⟨nofun, nofun⟩, rfl⟩
  · rcases chanStartStep_cases c s.drawNext with ⟨info, addr, heq⟩ | ⟨-, heq⟩ <;> rw [heq] <;>
      exact ⟨⟨nofun, nofun⟩, rfl⟩
  · refine ⟨?_, rfl⟩
    simp only [PastTable, chanEndStep]
    cases s.drawNext.status.chan <;> exact ⟨nofun, nofun⟩
  · obtain ⟨u, hu, ht⟩ := exec_pair_grown (s := latchPair s.drawNext) (decodePair_isPair _ _) hpair
    obtain ⟨vs, cap, k, rfl⟩ := hu.shape
    obtain rfl | ⟨info, rfl⟩ | ⟨info, rfl⟩ := ht
    · exact ⟨⟨hhdr, hlt⟩, rfl⟩
    · exact ⟨⟨nofun, nofun⟩, rfl⟩
    · exact ⟨⟨nofun, nofun⟩, rfl⟩
  · rcases chkStep_cases s.drawNext with heq | ⟨-, -, heq⟩ <;> rw [heq] <;> exact ⟨⟨nofun, nofun⟩, rfl⟩
  · rcases asmCheckStep_cases s.drawNext with heq | ⟨-, heq⟩ <;> rw [heq] <;> exact ⟨⟨nofun, nofun⟩, rfl⟩
  · simp only [emitStep]
    split_ifs
    · exact ⟨⟨hhdr, hlt⟩, rfl⟩
    · exact ⟨⟨nofun, nofun⟩, rfl⟩

/-- `s` meets the invariant over the same IN and DOC_LEN as `u`, with the same moves pending. -/
structure OnDocument (u s : State) : Prop where
  inv  : Inv s
  kept : decodeFields s = decodeFields u

/-- `s` stands in a run over the document of `u` after LT, with WIDTH, HEIGHT and CH_SIZE as given. -/
structure Rendering (u : State) (w h : Nat) (sz : PerChan Nat) (s : State) : Prop extends OnDocument u s where
  past   : PastTable s
  width  : s.width.toNat = w
  height : s.height.toNat = h
  chSize : ∀ c, (s.chSize.get c).toNat = sz.get c

/-- The run is BUSY and takes the engine step `q` next. -/
structure RenderingAt (u : State) (w h : Nat) (sz : PerChan Nat) (q : Seq) (s : State) : Prop extends
    Rendering u w h sz s where
  busy : s.status.state = .busy
  seq  : s.seq = q

/-- `u` is about to run over a well-formed document, with no host move pending and no byte unspecified. -/
structure GoodRun (u : State) (w h : Nat) (sz : PerChan Nat) (r g b : List Byte) : Prop extends
    GoodDocument u w h sz r g b where
  host  : u.host = []
  raced : u.raced = []

section

variable {u s t : State} {w h : Nat} {sz : PerChan Nat} {r g b : List Byte}

theorem OnDocument.fields (hs : OnDocument u s) : s.params = u.params ∧ s.docLen = u.docLen ∧ s.inMem = u.inMem ∧
    s.raced = u.raced ∧ s.powerEpoch = u.powerEpoch ∧ s.host = u.host := by
  simpa only [decodeFields, Prod.mk.injEq] using hs.kept

theorem OnDocument.step_eq (hs : OnDocument u s) (hu : GoodRun u w h sz r g b) : step s = engineStep s := by
  obtain ⟨-, -, -, -, -, hhost⟩ := hs.fields
  exact step_of_no_host (hhost.trans hu.host)

theorem OnDocument.docLen_le (hs : OnDocument u s) (hu : GoodRun u w h sz r g b) :
    s.docLen.toNat ≤ s.params.inSizeMax := by
  obtain ⟨hparams, hdoc, -⟩ := hs.fields
  rw [hdoc, hparams]
  exact hu.fits

theorem OnDocument.step (hs : OnDocument u s) (hstep : step s = .next t) (hkept : decodeFields t = decodeFields s) :
    OnDocument u t :=
  ⟨everyStepKeepsTheInvariant s t hs.inv hstep, hkept.trans hs.kept⟩

/-- 20_memory.md R69 (c): each step reads the document's bytes as they were at START. -/
theorem OnDocument.inByte_eq (hs : OnDocument u s) (hu : GoodRun u w h sz r g b) (a : Nat) :
    inByte s a = inByte u a ∧ inByte s.drawNext a = inByte u a := by
  obtain ⟨-, -, hmem, hraced, hepoch, -⟩ := hs.fields
  exact ⟨inByte_of_no_race hmem hraced hepoch hu.raced, inByte_of_no_race hmem hraced hepoch hu.raced⟩

theorem OnDocument.be16_eq (hs : OnDocument u s) (hu : GoodRun u w h sz r g b) (a : Nat) :
    be16 s.drawNext a = be16 u a := by
  rw [be16, be16, (hs.inByte_eq hu _).2, (hs.inByte_eq hu _).2]

theorem Rendering.step (hu : GoodRun u w h sz r g b) (hs : Rendering u w h sz s) (hstep : step s = .next t) :
    Rendering u w h sz t := by
  obtain ⟨hpast, hfields⟩ := engineStep_of_pastTable hs.past ((hs.step_eq hu).symm.trans hstep)
  simp only [documentFields, Prod.mk.injEq] at hfields
  obtain ⟨hkept, hwidth, hheight, hsize⟩ := hfields
  exact ⟨hs.toOnDocument.step hstep hkept, hpast, hwidth ▸ hs.width, hheight ▸ hs.height, hsize ▸ hs.chSize⟩

/-! ### HDR, LT and PAYLOAD -/

/-- 41_header.md R142: the HDR phase latches the document's dimensions. -/
theorem GoodRun.step_hdr (hu : GoodRun u w h sz r g b) (hinv : Inv u) (hb : u.status.state = .busy)
    (hseq : u.seq = .hdr) : ∃ t, step u = .next t ∧ OnDocument u t ∧ t.status.state = .busy ∧ t.seq = .lt ∧
      t.width.toNat = w ∧ t.height.toNat = h := by
  have hs : OnDocument u u := ⟨hinv, rfl⟩
  have hsig : memRead u.drawNext 0 4 = magic :=
    (memRead_congr (fun a => (hs.inByte_eq hu a).2) 0 4).trans hu.magic
  have hw : (latchDimensions (u.drawNext.enter .hdr)).width.toNat = w :=
    (ofNat_be16_toNat _ _).trans ((hs.be16_eq hu 8).trans hu.width)
  have hh : (latchDimensions (u.drawNext.enter .hdr)).height.toNat = h :=
    (ofNat_be16_toNat _ _).trans ((hs.be16_eq hu 12).trans hu.height)
  have hstep : step u = .next { latchDimensions (u.drawNext.enter .hdr) with seq := .lt } := by
    rw [hs.step_eq hu, engineStep_hdr_iff hb hseq, headerStep_of_signature (s := u.drawNext) hu.header hsig,
      checkDimensions_of_le (hw.trans_le hu.wMax) (hh.trans_le hu.hMax)]
    exact ⟨hu.fits, rfl⟩
  exact ⟨_, hstep, hs.step hstep rfl, hb, rfl, hw, hh⟩

/-- 42_length_table.md R160: the document's sizes are the sums of its entries. -/
theorem GoodRun.size (hu : GoodRun u w h sz r g b) (c : Chan) :
    sz.get c = ((List.range h).map fun k => be16 u (lteOffset h c k)).sum := by
  have hoff (k : Nat) : lteOffset h c k = 40 + 2 * h * c.toNat + 2 * k := rfl
  simp only [hoff]
  cases c with
  | c0 => simpa [Chan.toNat] using hu.size0
  | c1 => simpa [Chan.toNat] using hu.size1
  | c2 =>
    have htwice : 2 * h * Chan.c2.toNat = 4 * h := by simp only [Chan.toNat]; omega
    rw [htwice]
    exact hu.size2

/-- 42_length_table.md R163: the LT phase sums the document's table. -/
theorem GoodRun.step_lt (hu : GoodRun u w h sz r g b) (hs : OnDocument u s) (hb : s.status.state = .busy)
    (hseq : s.seq = .lt) (hw : s.width.toNat = w) (hh : s.height.toNat = h) :
    ∃ t, step s = .next t ∧ RenderingAt u w h sz .payload t := by
  have htable : payloadStart s ≤ s.docLen.toNat := by
    obtain ⟨-, hdoc, -⟩ := hs.fields
    have hwhole := hu.whole
    rw [payloadStart_eq, hh, hdoc]
    omega
  have hsum (c : Chan) : (channelSum s.drawNext c).toNat = sz.get c := by
    have hheight : s.drawNext.height.toNat = h := hh
    rw [channelSum_toNat _ c (hheight.trans_le hu.hMax), sumEntries_eq_sum, hheight, hu.size c]
    simp only [hs.be16_eq hu]
  have hstep := (hs.step_eq hu).trans (engineStep_lt hb hseq (hs.docLen_le hu))
  rw [ltStep_of_table (s := s.drawNext) htable] at hstep
  refine ⟨_, hstep, ⟨hs.step hstep rfl, ⟨nofun, nofun⟩, hw, hh, fun c => ?_⟩, hb, rfl⟩
  cases c
  · exact hsum .c0
  · exact hsum .c1
  · exact hsum .c2

/-- 42_length_table.md R167: the PAYLOAD phase finds the document whole. -/
theorem GoodRun.step_payload (hu : GoodRun u w h sz r g b) (hs : RenderingAt u w h sz .payload s) :
    ∃ t, step s = .next t ∧ RenderingAt u w h sz (.chanStart .c0) t := by
  obtain ⟨-, htable, -, -⟩ := (hs.inv.runOk hs.busy).at_payload hs.seq
  have hpresent : payloadStart s + s.totalSize.toNat ≤ s.docLen.toNat := by
    obtain ⟨-, hdoc, -⟩ := hs.fields
    have h0 : s.chSize.c0.toNat = sz.c0 := hs.chSize .c0
    have h1 : s.chSize.c1.toNat = sz.c1 := hs.chSize .c1
    have h2 : s.chSize.c2.toNat = sz.c2 := hs.chSize .c2
    have hwhole := hu.whole
    rw [payloadStart_eq, htable.total, hs.height, h0, h1, h2, hdoc]
    omega
  have hstep := (hs.step_eq hu).trans (engineStep_payload hs.busy hs.seq (hs.docLen_le hu))
  rw [payloadStep_of_payload (s := s.drawNext) hpresent] at hstep
  exact ⟨_, hstep, hs.toRendering.step hu hstep, hs.busy, rfl⟩

/-- 40_pipeline_control.md R118: the phases up to the start of channel 0. -/
theorem GoodRun.reaches_channels (hu : GoodRun u w h sz r g b) (hinv : Inv u) (hb : u.status.state = .busy)
    (hseq : u.seq = .hdr) : ∃ t, Reaches u t ∧ RenderingAt u w h sz (.chanStart .c0) t := by
  obtain ⟨s1, hstep1, hs1, hb1, hseq1, hw1, hh1⟩ := hu.step_hdr hinv hb hseq
  obtain ⟨s2, hstep2, hs2⟩ := hu.step_lt hs1 hb1 hseq1 hw1 hh1
  obtain ⟨s3, hstep3, hs3⟩ := hu.step_payload hs2
  exact ⟨s3, ((Reaches.of_step hstep1).trans (.of_step hstep2)).trans (.of_step hstep3), hs3⟩

/-! ### The three channels -/

/-- 42_length_table.md R166: the sub-stream of channel `c` is the document's, and expands to the channel's values. -/
theorem GoodRun.expand_subStream (hu : GoodRun u w h sz r g b) (hs : Rendering u w h sz s) (c : Chan) :
    expand (subStream s c) = some ((⟨r, g, b⟩ : PerChan (List Byte)).get c) := by
  have h0 : s.chSize.c0.toNat = sz.c0 := hs.chSize .c0
  have h1 : s.chSize.c1.toNat = sz.c1 := hs.chSize .c1
  rw [subStream, memRead_congr (fun a => (hs.inByte_eq hu a).1), hs.chSize c]
  cases c <;> simp only [chanBase, payloadStart_eq, hs.height, h0, h1]
  · exact hu.chan0
  · exact hu.chan1
  · exact hu.chan2

theorem GoodRun.length_get (hu : GoodRun u w h sz r g b) (c : Chan) :
    ((⟨r, g, b⟩ : PerChan (List Byte)).get c).length = w * h := by
  cases c
  · exact hu.lenR
  · exact hu.lenG
  · exact hu.lenB

theorem PerChan.eq_set {α : Type} {p q : PerChan α} {c : Chan} {x : α} (hc : q.get c = x)
    (hne : ∀ d, d ≠ c → q.get d = p.get d) : q = p.set c x := by
  have hget (d : Chan) : q.get d = (p.set c x).get d := by
    by_cases hd : d = c
    · rw [hd, hc, PerChan.get_set_self]
    · rw [hne d hd, PerChan.get_set_ne p c d x hd]
  exact congr (congr (congrArg PerChan.mk (hget .c0)) (hget .c1)) (hget .c2)

/-- 43_rle_decoder.md R189: a channel is decoded to its values. -/
theorem GoodRun.decode (hu : GoodRun u w h sz r g b) {c : Chan} (hs : RenderingAt u w h sz (.chanStart c) s) :
    ∃ t, Reaches s t ∧ RenderingAt u w h sz (afterChan c) t ∧
      t.cb = s.cb.set c ((⟨r, g, b⟩ : PerChan (List Byte)).get c) := by
  obtain ⟨hparams, -, -, hraced, -, hhost⟩ := hs.fields
  have hroom := hu.room
  rw [← hu.length_get c, ← hparams] at hroom
  obtain ⟨t, hrun, hcb, -, hother, -, -, hbusy, hafter⟩ := channelDecodeIsExpansion s c _ hs.inv hs.busy hs.seq
    (hhost.trans hu.host) (hraced.trans hu.raced) (hu.expand_subStream hs.toRendering c) hroom
  have hreach : Reaches s t := ⟨_, hrun⟩
  have hkeep (d : Chan) (hd : d ≠ c) : t.cb.get d = s.cb.get d := by
    obtain ⟨hsame, -, -⟩ := hother d hd
    exact hsame
  exact ⟨t, hreach, ⟨hreach.keeps (Rendering.step hu) hs.toRendering, hbusy, hafter⟩, PerChan.eq_set hcb hkeep⟩

theorem GoodRun.decode_all (hu : GoodRun u w h sz r g b) (hs : RenderingAt u w h sz (.chanStart .c0) s) :
    ∃ t, Reaches s t ∧ RenderingAt u w h sz .chk t ∧ t.cb = ⟨r, g, b⟩ := by
  obtain ⟨s1, hreach1, hs1, hcb1⟩ := hu.decode hs
  obtain ⟨s2, hreach2, hs2, hcb2⟩ := hu.decode hs1
  obtain ⟨s3, hreach3, hs3, hcb3⟩ := hu.decode hs2
  exact ⟨s3, (hreach1.trans hreach2).trans hreach3, hs3, by rw [hcb3, hcb2, hcb1]; rfl⟩

/-! ### CHK and ASM -/

theorem GoodRun.cbLen_eq (hu : GoodRun u w h sz r g b) (hs : Rendering u w h sz s) (hcb : s.cb = ⟨r, g, b⟩)
    (c : Chan) : (s.cbLen.get c).toNat = w * h := by
  rw [← (hs.inv.buffers c).contents, hcb, hu.length_get c]

theorem Rendering.pixelCount_eq (hs : Rendering u w h sz s) : pixelCount s = w * h := by
  rw [pixelCount, hs.width, hs.height]

/-- 43_rle_decoder.md R190: the three counts are equal. -/
theorem GoodRun.step_chk (hu : GoodRun u w h sz r g b) (hs : RenderingAt u w h sz .chk s) (hcb : s.cb = ⟨r, g, b⟩) :
    ∃ t, step s = .next t ∧ RenderingAt u w h sz .asmCheck t ∧ t.cb = ⟨r, g, b⟩ := by
  have hsame (c d : Chan) : s.cbLen.get c = s.cbLen.get d :=
    BitVec.eq_of_toNat_eq ((hu.cbLen_eq hs.toRendering hcb c).trans (hu.cbLen_eq hs.toRendering hcb d).symm)
  have hstep := (hs.step_eq hu).trans (engineStep_chk hs.busy hs.seq (hs.docLen_le hu))
  rw [chkStep_of_eq (s := s.drawNext) ⟨hsame .c0 .c1, hsame .c1 .c2⟩] at hstep
  exact ⟨_, hstep, ⟨hs.toRendering.step hu hstep, hs.busy, rfl⟩, hcb⟩

/-- 45_raster_interleaver.md R230: the count is `W·H`. -/
theorem GoodRun.step_asmCheck (hu : GoodRun u w h sz r g b) (hs : RenderingAt u w h sz .asmCheck s)
    (hcb : s.cb = ⟨r, g, b⟩) :
    ∃ t, step s = .next t ∧ RenderingAt u w h sz .emit t ∧ t.cb = ⟨r, g, b⟩ ∧ t.out = [] := by
  obtain ⟨-, -, -, -, -, hout⟩ := (hs.inv.runOk hs.busy).at_asmCheck hs.seq
  have hcount : s.cbLen.c0.toNat = pixelCount s := (hu.cbLen_eq hs.toRendering hcb .c0).trans hs.pixelCount_eq.symm
  have hstep := (hs.step_eq hu).trans (engineStep_asmCheck hs.busy hs.seq (hs.docLen_le hu))
  rw [asmCheckStep_of_eq (s := s.drawNext) hcount] at hstep
  exact ⟨_, hstep, ⟨hs.toRendering.step hu hstep, hs.busy, rfl⟩, hcb, hout⟩

/-! ### The emission -/

/-- R231: the triple emitted is the next one of the interleaving. -/
theorem GoodRun.emitOne_out_grows (hu : GoodRun u w h sz r g b) (hs : RenderingAt u w h sz .emit s)
    (hcb : s.cb = ⟨r, g, b⟩) (hout : s.out <+: interleave r g b) (hlt : s.out.length < w * h) :
    (emitOne s.drawNext).out <+: interleave r g b := by
  obtain ⟨-, -, -, -, hi, -⟩ := (hs.inv.runOk hs.busy).at_emit hs.seq
  have hnext : (interleave r g b)[s.i.toNat]? = some (tripleAt s.drawNext s.i) :=
    tripleAt_eq_interleave (s := s.drawNext) hcb (fun c => (hs.inv.buffers c).contents)
      (fun c => hi.trans_lt (hlt.trans_eq (hu.cbLen_eq hs.toRendering hcb c).symm))
  rw [hi] at hnext
  obtain ⟨hlen, hget⟩ := List.getElem?_eq_some_iff.mp hnext
  have hgrown := List.concat_get_prefix hout hlen
  rwa [List.get_eq_getElem, hget] at hgrown

/-- R231, R234: the remaining `n` triples are emitted, and the run completes. -/
theorem GoodRun.emit (hu : GoodRun u w h sz r g b) (n : Nat) (hs : RenderingAt u w h sz .emit s)
    (hcb : s.cb = ⟨r, g, b⟩) (hout : s.out <+: interleave r g b) (hn : s.out.length + n = w * h) :
    ∃ t, Reaches s t ∧ Rendering u w h sz t ∧ t.status.state = .done ∧ t.cb = ⟨r, g, b⟩ ∧
      t.out = interleave r g b := by
  induction n generalizing s with
  | zero =>
    obtain ⟨-, -, -, -, hi, -⟩ := (hs.inv.runOk hs.busy).at_emit hs.seq
    have hstep := (hs.step_eq hu).trans (engineStep_emit hs.busy hs.seq (hs.docLen_le hu))
    rw [emitStep_of_ge (s := s.drawNext) (hs.pixelCount_eq.trans (hn.symm.trans hi.symm)).le] at hstep
    have hlen : (interleave r g b).length = w * h :=
      (interleave_length (hu.lenG.trans hu.lenR.symm) (hu.lenB.trans hu.lenR.symm)).trans hu.lenR
    exact ⟨_, .of_step hstep, hs.toRendering.step hu hstep, rfl, hcb, hout.eq_of_length (hn.trans hlen.symm)⟩
  | succ n ih =>
    obtain ⟨-, -, -, -, hi, -⟩ := (hs.inv.runOk hs.busy).at_emit hs.seq
    have hlt : s.out.length < w * h := by omega
    have hstep := (hs.step_eq hu).trans (engineStep_emit hs.busy hs.seq (hs.docLen_le hu))
    rw [emitStep_of_lt (s := s.drawNext) (hi.trans_lt (hlt.trans_eq hs.pixelCount_eq.symm))] at hstep
    have hlen : (emitOne s.drawNext).out.length = s.out.length + 1 := List.length_append
    obtain ⟨t, hreach, ht⟩ := ih ⟨hs.toRendering.step hu hstep, hs.busy, hs.seq⟩ hcb
      (hu.emitOne_out_grows hs hcb hout hlt) (by omega)
    exact ⟨t, (Reaches.of_step hstep).trans hreach, ht⟩

/-! ### The whole run -/

/-- 40_pipeline_control.md R118: a run over a good document emits the interleaving of its channels and is DONE. -/
theorem GoodRun.reaches_done (hu : GoodRun u w h sz r g b) (hinv : Inv u) (hb : u.status.state = .busy)
    (hseq : u.seq = .hdr) :
    ∃ t, Reaches u t ∧ Rendering u w h sz t ∧ t.status.state = .done ∧ t.cb = ⟨r, g, b⟩ ∧
      t.out = interleave r g b := by
  obtain ⟨s1, hreach1, hs1⟩ := hu.reaches_channels hinv hb hseq
  obtain ⟨s2, hreach2, hs2, hcb2⟩ := hu.decode_all hs1
  obtain ⟨s3, hstep3, hs3, hcb3⟩ := hu.step_chk hs2 hcb2
  obtain ⟨s4, hstep4, hs4, hcb4, hout4⟩ := hu.step_asmCheck hs3 hcb3
  obtain ⟨t, hreach, ht⟩ := hu.emit (w * h) hs4 hcb4 (hout4 ▸ List.nil_prefix) (by rw [hout4]; exact Nat.zero_add _)
  exact ⟨t, (((hreach1.trans hreach2).trans (.of_step hstep3)).trans (.of_step hstep4)).trans hreach, ht⟩

end

/-- R111: a START after which DOC_LEN lies within IN was accepted. -/
theorem eq_beginRun_of_exec_start {s u : State} (hidle : s.status.state = .idle) (h : exec .start s = .next u)
    (hfits : u.docLen.toNat ≤ u.params.inSizeMax) : u = s.beginRun := by
  obtain ⟨⟨-, hdoc, -, hparams, -⟩, -⟩ := commandsKeepTheirFrame .start s u rfl h
  rw [hdoc, hparams] at hfits
  exact (Host.Outcome.next.inj ((exec_start_accepted hidle hfits).symm.trans h)).symm

/-- 40_pipeline_control.md R120, 45_raster_interleaver.md R234: what the invariant says of a run that is DONE. -/
theorem done_record {t : State} (hinv : Inv t) (hdone : t.status.state = .done) :
    t.status.err = none ∧ t.status.phase = .asm ∧ t.outCount.toNat = pixelCount t := by
  have hstate := hinv.state
  simp only [StateOk, hdone] at hstate
  obtain ⟨hphase, herr, -, hfull, -⟩ := hstate
  exact ⟨herr, hphase, hinv.outCount.trans hfull⟩

/-- Settles O55: the START was accepted, and the run it begins reaches DONE phase by phase; the invariant gives the
rest of the record. -/
theorem wellFormedDocumentIsRendered : Obligations.WellFormedDocumentIsRendered := by
  intro s u w h sz r g b hinv hidle hhost hexec hdoc
  obtain rfl : u = s.beginRun := eq_beginRun_of_exec_start hidle hexec hdoc.fits
  have hrun : GoodRun s.beginRun w h sz r g b := ⟨hdoc, hhost, rfl⟩
  obtain ⟨t, ⟨k, hk⟩, ht, hdone, hcb, hout⟩ := hrun.reaches_done (hinv.exec_command rfl hexec) rfl rfl
  obtain ⟨-, -, hmem, -⟩ := ht.fields
  obtain ⟨herr, hphase, hcount⟩ := done_record ht.inv hdone
  exact ⟨k, t, hk, hdone, herr, hphase, hout, hcount.trans ht.pixelCount_eq, ht.width, ht.height, ht.chSize, hcb, hmem⟩

end Sys2Proof.Machine
end

section
/-! SUPPORT. Proofs of the statements about exceptions (60_exceptions.md): the engine outside a run, taking an error, and the
FATAL state, which only a reset leaves and in which no step shows the contents of the buffers. -/

namespace Sys2Proof.Machine

open Sys2Proof.Safety

/-! ### Taking an error (R252, R265) -/

/-- Settles O37: the first branch of the step. -/
theorem engineIsIdleUnlessBusy : Obligations.EngineIsIdleUnlessBusy :=
  fun _ hb => if_pos hb

/-- Settles O34: the record is the update itself, and after it STATE is ERROR or FATAL, in which the engine is idle. -/
theorem raisingAnErrorWritesItsRecord : Obligations.RaisingAnErrorWritesItsRecord := by
  intro e info addr s
  obtain ⟨-, hbusy⟩ := raise_state s e info addr
  exact ⟨rfl, engineIsIdleUnlessBusy _ hbusy⟩

/-! ### Leaving FATAL (R257) -/

/-- Settles O9: the engine is idle, and a host move other than a reset changes at most CMD_REJ in STATUS. -/
theorem fatalIsLeftOnlyByReset : Obligations.FatalIsLeftOnlyByReset := by
  intro s t hfatal h hreset hpower
  rcases step_next_cases h with ⟨-, hengine⟩ | ⟨m, hm, hact⟩
  · obtain ⟨pending, hturn⟩ := engineTurn_eq s
    rw [hturn, engineIsIdleUnlessBusy { s with host := pending } (by simp [hfatal])] at hengine
    cases hengine
    exact hfatal
  · rw [hm] at hreset hpower
    obtain ⟨⟨b, hstatus⟩, -⟩ := hostAct_keepsRun (s := { s with host := s.host.tail }) hact
      (fun he => hreset (he ▸ rfl)) (fun he => hpower (he ▸ rfl)) (by simp [hfatal])
      (fun _ _ _ _ _ => resultState_of_rejecting (.inr hfatal))
    rw [hstatus]
    exact hfatal

/-! ### Commands rejected whatever they are (R257) -/

/-- R257, 70_reset_and_hazards.md R285: in BUSY and in FATAL every command but NOP is rejected. -/
theorem exec_command_rejected {i : Instr} {s : State} (hp : i.isPair = false) (hi : i ≠ .nop)
    (h : s.status.state = .busy ∨ s.status.state = .fatal) : exec i s = .next s.reject := by
  have hresult := resultState_of_rejecting h
  cases i with
  | nop => exact absurd rfl hi
  | start => exact exec_start_rejected fun hidle => by simp [hidle.1] at h
  | clear => exact exec_clear_rejected hresult
  | read c => exact exec_read_rejected hresult
  | readReserved => rfl
  | cmdReserved op => rfl
  | lit _ | rep _ _ | illegal _ _ | illegal80 _ => cases hp

/-! ### The buffer contents in FATAL (R257) -/

/-- Two outcomes that no one can tell apart without reading a channel buffer. -/
inductive AlikeButBuffers : (o o' : Host.Outcome State Fault Refusal) → Prop where
  | next (t : State) (b : PerChan (List Byte)) : AlikeButBuffers (.next t) (.next { t with cb := b })
  | fault (f : Fault) : AlikeButBuffers (.fault f) (.fault f)
  | refused (r : Refusal) : AlikeButBuffers (.refused r) (.refused r)

theorem AlikeButBuffers.observations {o o' : Host.Outcome State Fault Refusal} (h : AlikeButBuffers o o') :
    (∀ t, o = .next t → ∃ b, o' = .next { t with cb := b }) ∧ (∀ f, o = .fault f → o' = .fault f) ∧
    (∀ r, o = .refused r → o' = .refused r) := by
  cases h with
  | next t b =>
    refine ⟨fun _ heq => ?_, nofun, nofun⟩
    cases heq
    exact ⟨b, rfl⟩
  | fault f => refine ⟨fun _ heq => ?_, fun _ heq => heq, fun _ heq => ?_⟩ <;> cases heq
  | refused r => refine ⟨fun _ heq => ?_, fun _ heq => ?_, fun _ heq => heq⟩ <;> cases heq

/-- R257: NOP and the rejection of every other command leave the buffers alone. -/
theorem exec_command_alike {i : Instr} {s : State} (b : PerChan (List Byte)) (hp : i.isPair = false)
    (hfatal : s.status.state = .fatal) : AlikeButBuffers (exec i s) (exec i { s with cb := b }) := by
  rcases eq_or_ne i .nop with rfl | hi
  · exact .next s b
  · rw [exec_command_rejected hp hi (.inr hfatal), exec_command_rejected hp hi (s := { s with cb := b }) (.inr hfatal)]
    exact .next s.reject b

theorem regWrite_alike (r : Reg) (v : W32) {s : State} (b : PerChan (List Byte)) (hfatal : s.status.state = .fatal) :
    AlikeButBuffers (regWrite r v s) (regWrite r v { s with cb := b }) := by
  cases r with
  | cmd => exact exec_command_alike b (decodeCmd_isPair v) hfatal
  | docLen =>
    simp only [regWrite, hfatal, reduceCtorEq, if_false]
    exact .next { s with docLen := v } b
  | rdIndex => exact .next { s with rdIndex := v } b
  | _ => exact .next s b

/-- 20_memory.md R69: a read of OUT does not look at the buffers. -/
theorem readOut_with_cb (s : State) (b : PerChan (List Byte)) :
    readOut { s with cb := b } = { readOut s with cb := b } := by
  have hnext : nextTriple { s with cb := b } = nextTriple s := rfl
  unfold readOut
  rw [hnext]
  cases nextTriple s <;> rfl

/-- R257: no host move in FATAL looks at the buffers, and only a reset changes them. -/
theorem hostAct_alike (m : HostMove) {s : State} (b : PerChan (List Byte)) (hfatal : s.status.state = .fatal) :
    AlikeButBuffers (hostAct m s) (hostAct m { s with cb := b }) := by
  cases m with
  | write off bytes v =>
    simp only [hostAct]
    split_ifs
    · exact regWrite_alike (regAt off) v b hfatal
    · exact .refused .hostAccessNotWord
  | read off bytes =>
    simp only [hostAct]
    split_ifs
    · exact .next (regRead off s) b
    · exact .refused .hostAccessNotWord
  | poll => exact .next (regRead 0x04 s) b
  | load a data =>
    simp only [hostAct]
    split_ifs
    · exact .next (loadIn a data s) b
    · exact .fault .inOffsetAbsent
  | readOut =>
    simp only [hostAct, readOut_with_cb]
    exact .next (readOut s) b
  | reset => exact .next s.resetBlock s.resetBlock.cb
  | powerOn => exact .next s.powerOn s.powerOn.cb

theorem dueMove_with_cb (s : State) (b : PerChan (List Byte)) : dueMove { s with cb := b } = dueMove s := rfl

theorem engineTurn_with_cb (s : State) (b : PerChan (List Byte)) :
    engineTurn { s with cb := b } = { engineTurn s with cb := b } := by
  cases hhost : s.host with
  | nil => simp only [engineTurn, hhost]
  | cons e rest =>
    simp only [engineTurn, hhost]
    split_ifs
    · simp only [hhost]
    · rfl

theorem engineTurn_status (s : State) : (engineTurn s).status = s.status := by
  obtain ⟨pending, hturn⟩ := engineTurn_eq s
  rw [hturn]

/-- R257: whether a host move is due or the engine stands still, the step does not look at the buffers. -/
theorem step_alike {s : State} (b : PerChan (List Byte)) (hfatal : s.status.state = .fatal) :
    AlikeButBuffers (step s) (step { s with cb := b }) := by
  cases hdue : dueMove s with
  | none =>
    have hidle : (engineTurn s).status.state ≠ .busy := by simp [engineTurn_status, hfatal]
    rw [step_of_dueMove_none hdue, step_of_dueMove_none ((dueMove_with_cb s b).trans hdue), engineTurn_with_cb s b,
      engineIsIdleUnlessBusy (engineTurn s) hidle, engineIsIdleUnlessBusy { engineTurn s with cb := b } hidle]
    exact .next (engineTurn s) b
  | some m =>
    rw [step_of_dueMove_some hdue, step_of_dueMove_some ((dueMove_with_cb s b).trans hdue)]
    exact hostAct_alike m (s := { s with host := s.host.tail }) b hfatal

/-- Settles O10, from `step_alike`. -/
theorem fatalHidesBufferContents : Obligations.FatalHidesBufferContents :=
  fun _ b hfatal => (step_alike b hfatal).observations

end Sys2Proof.Machine
end

section
/-! SUPPORT. Proofs of the statements about reset and hazards (70_reset_and_hazards.md): what a due reset leaves, and the
commands while BUSY. -/

namespace Sys2Proof.Machine

/-! ### Reset (R280 to R282) -/

/-- A reset never waits, and the host keeps the moves after it. -/
theorem step_of_reset_due {s : State} {rest : List HostEntry} (h : s.host = { after := 0, move := .reset } :: rest) :
    step s = .next { s with host := rest }.resetBlock :=
  step_of_due h rfl

/-- Settles O20: the step is `resetBlock`, which has the registers of `State.reset` (R50) and keeps IN. -/
theorem resetMoveRestoresAllButIn : Obligations.ResetMoveRestoresAllButIn := by
  intro s rest hhost
  obtain ⟨hstatus, hinfo, haddr, hdoc, hwidth, hheight, htotal, hchan, hindex, hresult, hcount, hpos, hend, hctrl, hval,
    hcnt, hi, hout⟩ := resetLeavesTheGivenValues
  exact ⟨_, step_of_reset_due hhost, hstatus, hinfo, haddr, hdoc, hwidth, hheight, htotal, hchan, hindex, hresult,
    hcount, hout, hpos, hend, hctrl, hval, hcnt, hi, rfl, rfl, rfl⟩

/-! ### Commands while BUSY (R285) -/

/-- Settles O6: NOP's arm answers the state itself, and `exec_command_rejected` covers every other command. -/
theorem busyRejectsEveryCommandButNop : Obligations.BusyRejectsEveryCommandButNop := by
  intro i s hbusy hcmd _
  obtain ⟨-, hnop⟩ := nopChangesNothing
  exact ⟨fun hi => hi ▸ hnop s, fun hi => exec_command_rejected hcmd hi (.inl hbusy)⟩

end Sys2Proof.Machine
end

section
/-! SUPPORT. Proofs that the decoder and the encoder agree (30_encoding.md R81 to R91): each kind of word is taken to its
bytes or its fields, and the decoder's equation for that kind does the rest. -/

namespace Sys2Proof

/-! ### An encoded instruction decodes to itself -/

/-- R81: the decoder reads back the two bytes of a pair. -/
@[simp] theorem decodeWord_encodePair (ctrl val : Byte) : decodeWord (encodePair ctrl val) = decodePair ctrl val :=
  congrArg₂ decodePair (pairCtrl_append ctrl val) (pairVal_append ctrl val)

/-- R82: the ranges of the control byte. -/
theorem ctrl_ranges (ctrl : Byte) :
    ctrl.toNat = 0 ∨ (1 ≤ ctrl.toNat ∧ ctrl.toNat ≤ 0x7F) ∨ ctrl.toNat = 0x80 ∨ 0x81 ≤ ctrl.toNat := by omega

/-- R82, R83: an encoded pair decodes to itself, its control byte being in its row's range. -/
theorem decodeWord_encode_of_pair {i : Instr} (hp : i.isPair = true) (hwf : i.wf = true) : decodeWord (encode i) = i := by
  cases i with
  | lit val => exact (decodeWord_encodePair _ _).trans (decodePair_eq_lit rfl val)
  | rep ctrl val => exact (decodeWord_encodePair _ _).trans (decodePair_eq_rep (of_decide_eq_true hwf) val)
  | illegal ctrl val =>
    obtain ⟨h1, h2⟩ := of_decide_eq_true hwf
    exact (decodeWord_encodePair _ _).trans (decodePair_eq_illegal h1 h2 val)
  | illegal80 val => exact (decodeWord_encodePair _ _).trans (decodePair_eq_illegal80 rfl val)
  | nop | start | clear | read _ | readReserved | cmdReserved _ => cases hp

/-- R89, R91: an encoded command decodes to itself, OP and CH being fields of its word. -/
theorem decodeWord_encode_of_command {i : Instr} (hp : i.isPair = false) (hwf : i.wf = true) :
    decodeWord (encode i) = i := by
  have hword := commandWordReservedBitsAreIgnored 0#26
  cases i with
  | nop => obtain ⟨-, hnop, -⟩ := hword 0 0; exact hnop rfl
  | start => obtain ⟨-, -, hstart, -⟩ := hword 0 1; exact hstart rfl
  | clear => obtain ⟨-, -, -, hclear, -⟩ := hword 0 2; exact hclear rfl
  | read c => obtain ⟨-, -, -, -, hread, -⟩ := hword c.bits 3; exact hread rfl c (by cases c <;> rfl)
  | readReserved => obtain ⟨-, -, -, -, -, hreserved, -⟩ := hword 3 3; exact hreserved rfl rfl
  | cmdReserved op => obtain ⟨-, -, -, -, -, -, hreserved⟩ := hword 0 op; exact hreserved (of_decide_eq_true hwf)
  | lit _ | rep _ _ | illegal _ _ | illegal80 _ => cases hp

/-- Settles O21, for the pairs and for the commands. -/
theorem decodeOfEncodeIsTheInstruction : Obligations.DecodeOfEncodeIsTheInstruction := by
  intro i hwf
  cases hp : i.isPair with
  | true => exact decodeWord_encode_of_pair hp hwf
  | false => exact decodeWord_encode_of_command hp hwf

/-! ### Every word has one meaning -/

/-- R82: a pair loses nothing by being decoded: the kinds that drop the control byte fix it. -/
theorem encode_decodePair (ctrl val : Byte) : encode (decodePair ctrl val) = encodePair ctrl val := by
  obtain h | ⟨h1, h2⟩ | h | h := ctrl_ranges ctrl
  · rw [decodePair_eq_lit h, show ctrl = 0x00 from BitVec.eq_of_toNat_eq h]; rfl
  · rw [decodePair_eq_illegal h1 h2]; rfl
  · rw [decodePair_eq_illegal80 h, show ctrl = 0x80 from BitVec.eq_of_toNat_eq h]; rfl
  · rw [decodePair_eq_rep h]; rfl

/-- R82: the kind a control byte selects is the one whose range it is in. -/
theorem decodePair_wf (ctrl val : Byte) : (decodePair ctrl val).wf = true := by
  obtain h | ⟨h1, h2⟩ | h | h := ctrl_ranges ctrl
  · rw [decodePair_eq_lit h]; rfl
  · rw [decodePair_eq_illegal h1 h2]; exact decide_eq_true ⟨h1, h2⟩
  · rw [decodePair_eq_illegal80 h]; rfl
  · rw [decodePair_eq_rep h]; exact decide_eq_true h

/-- R89: a word of OP 3 is READ of a channel, or the reserved one. -/
theorem decodeCmd_of_op_three {w : W32} (h : (cmdOp w).toNat = 3) :
    (∃ c, decodeCmd w = .read c) ∨ decodeCmd w = .readReserved := by
  have hlt := (cmdCh w).isLt
  obtain hch | hch | hch | hch : (cmdCh w).toNat = 0 ∨ (cmdCh w).toNat = 1 ∨ (cmdCh w).toNat = 2 ∨
      (cmdCh w).toNat = 3 := by omega
  · exact .inl ⟨.c0, decodeCmd_eq_read h hch⟩
  · exact .inl ⟨.c1, decodeCmd_eq_read h hch⟩
  · exact .inl ⟨.c2, decodeCmd_eq_read h hch⟩
  · exact .inr (decodeCmd_eq_readReserved h hch)

/-- R89, R91: only OP has a range to be in, and the decoder keeps it as an operand from 4 on. -/
theorem decodeCmd_wf (w : W32) : (decodeCmd w).wf = true := by
  by_cases hop : 4 ≤ (cmdOp w).toNat
  · rw [decodeCmd_eq_cmdReserved hop]
    exact decide_eq_true hop
  · obtain h | h | h | h : (cmdOp w).toNat = 0 ∨ (cmdOp w).toNat = 1 ∨ (cmdOp w).toNat = 2 ∨ (cmdOp w).toNat = 3 := by
      omega
    · rw [decodeCmd_eq_nop h]; rfl
    · rw [decodeCmd_eq_start h]; rfl
    · rw [decodeCmd_eq_clear h]; rfl
    · obtain ⟨c, hread⟩ | hreserved := decodeCmd_of_op_three h
      · rw [hread]; rfl
      · rw [hreserved]; rfl

/-- Settles O22: a pair's view is its two bytes (`pairCtrl_append_pairVal`), and both decoders answer in range. -/
theorem everyWordHasOneMeaning : Obligations.EveryWordHasOneMeaning :=
  ⟨fun w => ⟨(encode_decodePair _ _).trans (congrArg EncWord.pair (pairCtrl_append_pairVal w)),
    decodePair_wf _ _, Machine.decodePair_isPair _ _⟩, fun w => ⟨decodeCmd_wf w, Machine.decodeCmd_isPair w⟩⟩

/-! ### Words written out from the tables -/

/-- A row of 16 bits is read as a pair, control byte first. -/
theorem decodeTableWord_pair (w : Nat) :
    decodeTableWord 16 w = some (decodePair (pairCtrl (BitVec.ofNat 16 w)) (pairVal (BitVec.ofNat 16 w))) := rfl

/-- A row of 32 bits is read as a command word. -/
theorem decodeTableWord_cmd (w : Nat) : decodeTableWord 32 w = some (decodeCmd (BitVec.ofNat 32 w)) := rfl

/-- Settles O26: the four pairs by the range of their control byte, the four command words by their OP and CH. -/
theorem writtenOutWordsDecode : Obligations.WrittenOutWordsDecode := by
  unfold Obligations.WrittenOutWordsDecode
  simp only [decodeTableWord_pair, decodeTableWord_cmd, Option.some.injEq]
  exact ⟨decodePair_eq_lit rfl _, decodePair_eq_rep (by decide) _, decodePair_eq_illegal (by decide) (by decide) _,
    decodePair_eq_illegal80 rfl _, decodeCmd_eq_start rfl, decodeCmd_eq_read rfl rfl, decodeCmd_eq_start rfl,
    decodeCmd_eq_cmdReserved (by decide)⟩

end Sys2Proof
end
